-- ==== Sys2Proof/Word.lean ====
section
/-! DEFINITION. The word types of the block and the plainest operations on byte sequences
(00_scope.md R9 to R11). Every value of the block is unsigned (R10). -/

namespace Sys2Proof

/-- One byte: a data byte of a frame, a buffer byte, an address, a sequence number (R10, u8). -/
abbrev Byte := BitVec 8

/-- The 32-bit identifier word (30_encoding.md R90). -/
abbrev IdWord := BitVec 32

/-- A Parameter Group Number, as wide as a TP.CM frame carries it (00_scope.md R14, pgn: u24). -/
abbrev Pgn := BitVec 24

/-- The 64-bit NAME (10_state.md R25). -/
abbrev Name64 := BitVec 64

/-- `ceil(len / 7)`, the number of Data-Transfer packets of a payload (00_scope.md R10). -/
def packetCount (len : Nat) : Nat := (len + 6) / 7

end Sys2Proof
end

