-- ==== Sys2Proof/Config.lean ====
section
/-! DEFINITION. What an implementation fixes: the constants of 00_scope.md R7 as literals, the parameters of
R8 as the fields of one record, and the free values, which are constants without a body. -/

namespace Sys2Proof

/-- The parameters of 00_scope.md R8: "constants of a run" (10_state.md R20), each an argument of the model. -/
structure Config where
  /-- `MAX_NODES`, "a configured maximum node count" (R8, 10_state.md R22). -/
  maxNodes : Nat
  /-- `LISTEN_ONLY` (41_dispatcher.md R167). -/
  listenOnly : Bool
  /-- `PGN_REQUEST` (30_encoding.md R111). -/
  pgnRequest : Pgn
  /-- `ABORT_REASON_BUSY` (30_encoding.md R102). -/
  abortReasonBusy : Byte
  /-- `ABORT_REASON_TIMEOUT` (30_encoding.md R102). -/
  abortReasonTimeout : Byte
  /-- `BAM_RX_TIMEOUT_SENDS_ABORT` (43_transport_protocol.md R252). -/
  bamRxTimeoutSendsAbort : Bool
  /-- `DT_SEQ_MISMATCH_ABORTS` (43_transport_protocol.md R281). -/
  dtSeqMismatchAborts : Bool
  /-- `AC_DECREMENT_GUARDED` (42_address_claim.md R196). -/
  acDecrementGuarded : Bool
  /-- `TICK_W`, the width in bits of `tick_ms` (10_state.md R26). -/
  tickW : Nat
  /-- `TIMER_W`, the width in bits of `tp_timer` (10_state.md R42). -/
  timerW : Nat
  deriving DecidableEq, Repr

/-- The defaults of R8. DESIGN CHOICE: `MAX_NODES` has no default there; 2 is the value of the spec's own
vectors (95_test_vectors.md section 2.2). Unsafe for a claim that rests on it (log entry 6). -/
def Config.default : Config :=
  { maxNodes := 2, listenOnly := false, pgnRequest := 0x00EA00#24, abortReasonBusy := 1#8,
    abortReasonTimeout := 3#8, bamRxTimeoutSendsAbort := false, dtSeqMismatchAborts := false,
    acDecrementGuarded := true, tickW := 16, timerW := 32 }

/-! ### The constants of R7 -/

def addrNull : Byte := 254#8
def addrGlobal : Byte := 255#8
/-- `AC_TABLE_SIZE`: addresses 0..253 have an entry; the largest is `ADDR_MAX_CLAIMABLE`. -/
abbrev acTableSize : Nat := 254
def startupDelayLo : Nat := 128
def startupDelayHi : Nat := 247
def startupDelayMs : Nat := 250
def pgnAddressClaimed : Pgn := 0x00EE00#24
def pgnTpCm : Pgn := 0x00EC00#24
def pgnTpDt : Pgn := 0x00EB00#24
def prioAc : BitVec 3 := 6#3
def prioTp : BitVec 3 := 7#3
def ctrlRts : Byte := 16#8
def ctrlCts : Byte := 17#8
def ctrlEoma : Byte := 19#8
def ctrlBam : Byte := 32#8
def ctrlAbort : Byte := 255#8
def rtsMaxPackets : Byte := 255#8
def tpMaxLen : Nat := 1785
def tpChunk : Nat := 7
def padByte : Byte := 0xFF#8
/-- The fill of a reserved TP.CM byte (30_encoding.md R110). -/
def reservedByte : Byte := 0xFF#8
def tPeriodMs : Nat := 50
def trMs : Nat := 200
def t1Ms : Nat := 1250
def t3Ms : Nat := 1250
def pdu1Limit : Nat := 240

/-! ### Free values: nothing constrains them (log entries 7, 8 and 11) -/

/-- The `k`-th `tx_ok` draw: whether the transport accepts the `k`-th frame handed to it
(41_dispatcher.md R176, "under no law"). -/
opaque Config.txOk : Nat → Bool

/-- Free values for the 8-bit fields INIT leaves unspecified (10_state.md R47). -/
opaque Config.freeByte : Nat → Byte

/-- A free value for `tp_role` after INIT (10_state.md R32, R47). -/
opaque Config.freeBit : Nat → Bool

/-- Free values for `tp_rem` and `tp_len` after INIT, within their range 0..1785 (10_state.md R36, R37, R47). -/
opaque Config.freeLength : Nat → Fin 1786

/-- A free value for `tp_pgn` after INIT (10_state.md R39, R47). -/
opaque Config.freePgn : Nat → Pgn

/-- What a timer sum outside TIMER_W bits leaves; the spec states no result there (10_state.md R42 says it
does not occur with the default widths). -/
opaque Config.timerOverflow : Nat → Nat

end Sys2Proof
end

