-- ==== Sys2Proof/Syntax.lean ====
section
/-! DEFINITION. The data types of 00_scope.md R14 and the instructions: one constructor of `Instr` for every
row of spec/opcode_table.json, in the table's order. A received-frame class carries the handle of the
receiving node and every field of its frame, read or not (R98 to R103), so that the frame can be given back whole. -/

namespace Sys2Proof

/-- `Frame = (id, dlc, data)` with `dlc` the length of `data` (00_scope.md R14, 20_memory.md R63). -/
structure Frame where
  id : IdWord
  data : List Byte
  deriving DecidableEq, Repr

/-- The `dlc` field of a frame: how many data bytes it has (R63). -/
abbrev Frame.dlc (f : Frame) : Nat := f.data.length

/-- `Message = (prio, pgn, src, dst, len, data)` with `len` the length of `data` (00_scope.md R14). -/
structure Message where
  prio : BitVec 3
  pgn : Pgn
  src : Byte
  dst : Byte
  data : List Byte
  deriving DecidableEq, Repr

/-- The `len` field of a message. -/
abbrev Message.len (m : Message) : Nat := m.data.length

/-- What the identifier of a frame of a fixed PGN leaves open: priority, destination, source (30_encoding.md R91). -/
structure Routing where
  prio : BitVec 3
  dst : Byte
  src : Byte
  deriving DecidableEq, Repr

/-- The rows of spec/opcode_table.json. -/
inductive Instr where
  /-- STD_FRAME (40_codec.md R146): an identifier with bit 31 clear. -/
  | stdFrame (h : Nat) (id : IdWord) (data : List Byte)
  /-- REQUEST_AC (42_address_claim.md R199): data `00 EE 00`, then bytes that are not read (30_encoding.md R95). -/
  | requestAc (h : Nat) (r : Routing) (extra : List Byte)
  /-- TP_CM.RTS (43_transport_protocol.md R272, 30_encoding.md R98). -/
  | tpCmRts (h : Nat) (r : Routing) (len : BitVec 16) (npkt maxPackets : Byte) (pgn : Pgn)
  /-- TP_CM.CTS (R271, R99). -/
  | tpCmCts (h : Nat) (r : Routing) (packets nextSeq res3 res4 : Byte) (pgn : Pgn)
  /-- TP_CM.EOMA (R273, R100). -/
  | tpCmEoma (h : Nat) (r : Routing) (len : BitVec 16) (npkt res4 : Byte) (pgn : Pgn)
  /-- TP_CM.BAM (R274, R101). -/
  | tpCmBam (h : Nat) (r : Routing) (len : BitVec 16) (npkt res4 : Byte) (pgn : Pgn)
  /-- TP_CM.ABORT (R275, R102). -/
  | tpCmAbort (h : Nat) (r : Routing) (reason res2 res3 res4 : Byte) (pgn : Pgn)
  /-- TP_CM.OTHER (R277): a control byte that is none of the five, and seven bytes that are not read. -/
  | tpCmOther (h : Nat) (r : Routing) (control : Byte) (rest : List Byte)
  /-- TP_DT (R280, R103): sequence number and seven payload bytes. -/
  | tpDt (h : Nat) (r : Routing) (seq : Byte) (chunk : List Byte)
  /-- ADDRESS_CLAIMED (42_address_claim.md R194, 30_encoding.md R96). -/
  | addressClaimed (h : Nat) (r : Routing) (name : Name64)
  /-- APP (41_dispatcher.md R166): every extended frame no earlier row takes. -/
  | app (h : Nat) (prio : BitVec 3) (pgn : Pgn) (src dst : Byte) (data : List Byte)
  /-- TX.ADDRESS_CLAIMED (42_address_claim.md R193). -/
  | txAddressClaimed (h : Nat)
  /-- TX.CANNOT_CLAIM_ADDRESS (R198). -/
  | txCannotClaimAddress (h : Nat)
  /-- TX.TP_CM.BAM (43_transport_protocol.md R234). -/
  | txTpCmBam (h : Nat)
  /-- TX.TP_CM.RTS (R234). -/
  | txTpCmRts (h : Nat)
  /-- TX.TP_CM.CTS (R254). -/
  | txTpCmCts (h : Nat)
  /-- TX.TP_CM.EOMA (R254). -/
  | txTpCmEoma (h : Nat)
  /-- TX.TP_CM.ABORT_TIMEOUT (R237). -/
  | txTpCmAbortTimeout (h : Nat)
  /-- TX.TP_CM.ABORT_BUSY (R238): `dst` is the source of the refused RTS or BAM, `pgn` the PGN it announced. -/
  | txTpCmAbortBusy (h : Nat) (dst : Byte) (pgn : Pgn)
  /-- TX.TP_DT (R233). -/
  | txTpDt (h : Nat)
  /-- TX.APP_SINGLE (41_dispatcher.md R171). -/
  | txAppSingle (h : Nat) (msg : Message)
  /-- RESET (70_reset_and_hazards.md R360). -/
  | reset
  /-- INIT (44_node_registry.md R301). -/
  | init (name : Name64) (pref : Byte) (tick : Nat)
  /-- RXFRAME (41_dispatcher.md R160). -/
  | rxframe (h : Nat) (f : Frame)
  /-- TICK (43_transport_protocol.md R250). -/
  | tick (h : Nat)
  /-- SEND (41_dispatcher.md R170). -/
  | send (h : Nat) (msg : Message)
  deriving DecidableEq, Repr

/-- The five operations a host can issue (30_encoding.md R130): "the constructors of an input type". -/
inductive HostOp where
  | reset
  | init (name : Name64) (pref : Byte) (tick : Nat)
  | rxframe (h : Nat) (f : Frame)
  | tick (h : Nat)
  | send (h : Nat) (msg : Message)
  deriving DecidableEq, Repr

/-- The table row of a host operation. -/
def HostOp.toInstr : HostOp → Instr
  | .reset => .reset
  | .init name pref ms => .init name pref ms
  | .rxframe h f => .rxframe h f
  | .tick h => .tick h
  | .send h msg => .send h msg

/-- The transmitted-frame forms of 30_encoding.md R113, with the values their frames carry: `a` the node's
address at emission, `s` the destination. Timeout and busy aborts are one form, told apart by the reason byte. -/
inductive TxForm where
  | addressClaimed (a : Byte) (name : Name64)
  | cannotClaimAddress (name : Name64)
  | bam (a : Byte) (len : BitVec 16) (npkt : Byte) (pgn : Pgn)
  | rts (s a : Byte) (len : BitVec 16) (npkt : Byte) (pgn : Pgn)
  | cts (s a : Byte) (npkt : Byte) (pgn : Pgn)
  | eoma (s a : Byte) (len : BitVec 16) (npkt : Byte) (pgn : Pgn)
  | abort (s a : Byte) (reason : Byte) (pgn : Pgn)
  | dt (s a : Byte) (seq : Byte) (chunk : List Byte)
  | appSingle (prio : BitVec 3) (pgn : Pgn) (s a : Byte) (data : List Byte)
  deriving DecidableEq, Repr

end Sys2Proof
end

