-- ==== Sys2Proof/Decode.lean ====
section
/-! DEFINITION. The codec (40_codec.md), the classification of a received frame (30_encoding.md R111, R112) and
the encoders, written from the same tables (R91, R95 to R103, R113). Decoding is total on every frame; what no row
of the table takes is rejected by name. -/

namespace Sys2Proof

/-! ### Little-endian fields (00_scope.md R11) -/

/-- `LE16(lo, hi)`. -/
def le16 (lo hi : Byte) : BitVec 16 := hi ++ lo

/-- `LE24(b0, b1, b2)`. -/
def le24 (b0 b1 b2 : Byte) : BitVec 24 := b2 ++ b1 ++ b0

/-- `LE64(b0, …, b7)`. -/
def le64 (b0 b1 b2 b3 b4 b5 b6 b7 : Byte) : BitVec 64 :=
  b7 ++ b6 ++ b5 ++ b4 ++ b3 ++ b2 ++ b1 ++ b0

/-- `v[8k+7 : 8k]`, byte `k` of a value. -/
def byteOf {w : Nat} (v : BitVec w) (k : Nat) : Byte := v.extractLsb' (8 * k) 8

/-- The bytes of a NAME, least significant first (20_memory.md R66). -/
def nameBytes (name : Name64) : List Byte :=
  [byteOf name 0, byteOf name 1, byteOf name 2, byteOf name 3,
   byteOf name 4, byteOf name 5, byteOf name 6, byteOf name 7]

/-! ### The identifier (40_codec.md R140, R141) -/

/-- "PDU_format < 240" (30_encoding.md R92). -/
def pfIsPdu1 (pf : Byte) : Bool := decide (pf.toNat < pdu1Limit)

/-- Whether a PGN is destination-specific: its bits 15:8 are the PDU format (R141). -/
def pgnIsPdu1 (pgn : Pgn) : Bool := pfIsPdu1 (byteOf pgn 1)

/-- The fields `Decode` gives. -/
structure IdFields where
  prio : BitVec 3
  pgn : Pgn
  src : Byte
  dst : Byte
  deriving DecidableEq, Repr

/-- `Decode` (R140, R93). Bits 31, 30, 29 and 25 are not read (R105). -/
def decodeId (id : IdWord) : IdFields :=
  let prio : BitVec 3 := id.extractLsb' 26 3
  let dp : BitVec 1 := id.extractLsb' 24 1
  let pf : Byte := id.extractLsb' 16 8
  let ps : Byte := id.extractLsb' 8 8
  let src : Byte := id.extractLsb' 0 8
  if pfIsPdu1 pf then
    { prio := prio, pgn := 0#7 ++ dp ++ pf ++ 0#8, src := src, dst := ps }
  else
    { prio := prio, pgn := 0#7 ++ dp ++ pf ++ ps, src := src, dst := addrGlobal }

/-- The PDU-specific byte `Encode` writes (R141). -/
def psOf (pgn : Pgn) (dst : Byte) : Byte := if pgnIsPdu1 pgn then dst else byteOf pgn 0

/-- `Encode` (R141), the pattern `1 00 ppp 0 d ffffffff ssssssss aaaaaaaa` of R91. -/
def encodeId (prio : BitVec 3) (pgn : Pgn) (src dst : Byte) : IdWord :=
  1#1 ++ 0#2 ++ prio ++ 0#1 ++ (pgn.extractLsb' 16 1 : BitVec 1) ++ byteOf pgn 1 ++ psOf pgn dst ++ src

/-- `FrameToMessage` (R144). -/
def frameToMessage (f : Frame) : Message :=
  let d := decodeId f.id
  { prio := d.prio, pgn := d.pgn, src := d.src, dst := d.dst, data := f.data }

/-- `MessageToFrame` (R145). -/
def messageToFrame (m : Message) : Frame :=
  { id := encodeId m.prio m.pgn m.src m.dst, data := m.data }

/-- The tuples `Decode` inverts `Encode` on (R142). -/
def validTuple (pgn : Pgn) (dst : Byte) : Bool :=
  decide (pgn.extractLsb' 17 7 = 0#7) &&
    (if pgnIsPdu1 pgn then decide (byteOf pgn 0 = 0#8) else decide (dst = addrGlobal))

/-! ### The data formats (30_encoding.md R95 to R103) -/

/-- Format CM.*: control byte, four bytes, PGN (R97). -/
def cmBytes (ctrl b1 b2 b3 b4 : Byte) (pgn : Pgn) : List Byte :=
  [ctrl, b1, b2, b3, b4, byteOf pgn 0, byteOf pgn 1, byteOf pgn 2]

/-- Formats CM.RTS, CM.EOMA and CM.BAM: a 16-bit length in bytes 1 and 2, a packet count in byte 3 (R98, R100, R101). -/
def cmLenBytes (ctrl : Byte) (len : BitVec 16) (npkt b4 : Byte) (pgn : Pgn) : List Byte :=
  cmBytes ctrl (byteOf len 0) (byteOf len 1) npkt b4 pgn

/-- The first three bytes of a Request for the Address-Claimed PGN (R95). -/
def requestAcBytes : List Byte := [byteOf pgnAddressClaimed 0, byteOf pgnAddressClaimed 1, byteOf pgnAddressClaimed 2]

/-- Routing rule 1's test (41_dispatcher.md R162): the Request PGN, at least three bytes, asking for Address-Claimed. -/
def isAcRequest (c : Config) (pgn : Pgn) (data : List Byte) : Bool :=
  match data with
  | b0 :: b1 :: b2 :: _ => decide (pgn = c.pgnRequest) && decide (le24 b0 b1 b2 = pgnAddressClaimed)
  | _ => false

/-- Whether a control byte selects one of the five sub-classes (R112). -/
def isCmControl (ctrl : Byte) : Bool :=
  ctrl == ctrlRts || ctrl == ctrlCts || ctrl == ctrlEoma || ctrl == ctrlBam || ctrl == ctrlAbort

/-- The frames no row of the table takes. -/
inductive Reject where
  /-- A data field of more than eight bytes: not a CAN frame (92_eei_decisions.md D4). -/
  | tooLong
  /-- A TP.CM, TP.DT or Address-Claimed frame whose dlc is not 8 (R108): the receive path discards it, BAD_LENGTH. -/
  | badLength
  deriving DecidableEq, Repr

/-- The TP.CM sub-class (R112), by the first data byte; `h` is the receiving node, `r` what the identifier leaves open. -/
def decodeCm (h : Nat) (r : Routing) (data : List Byte) : Except Reject Instr :=
  match data with
  | [d0, d1, d2, d3, d4, d5, d6, d7] =>
    .ok (if d0 = ctrlRts then .tpCmRts h r (le16 d1 d2) d3 d4 (le24 d5 d6 d7)
      else if d0 = ctrlCts then .tpCmCts h r d1 d2 d3 d4 (le24 d5 d6 d7)
      else if d0 = ctrlEoma then .tpCmEoma h r (le16 d1 d2) d3 d4 (le24 d5 d6 d7)
      else if d0 = ctrlBam then .tpCmBam h r (le16 d1 d2) d3 d4 (le24 d5 d6 d7)
      else if d0 = ctrlAbort then .tpCmAbort h r d1 d2 d3 d4 (le24 d5 d6 d7)
      else .tpCmOther h r d0 [d1, d2, d3, d4, d5, d6, d7])
  | _ => .error .badLength

/-- A TP.DT frame (R103). -/
def decodeDt (h : Nat) (r : Routing) (data : List Byte) : Except Reject Instr :=
  match data with
  | [d0, d1, d2, d3, d4, d5, d6, d7] => .ok (.tpDt h r d0 [d1, d2, d3, d4, d5, d6, d7])
  | _ => .error .badLength

/-- An Address-Claimed frame (R96). -/
def decodeClaim (h : Nat) (r : Routing) (data : List Byte) : Except Reject Instr :=
  match data with
  | [d0, d1, d2, d3, d4, d5, d6, d7] => .ok (.addressClaimed h r (le64 d0 d1 d2 d3 d4 d5 d6 d7))
  | _ => .error .badLength

/-- The row of the table a frame received for handle `h` falls under, tested in the dispatcher's order (R111). -/
def decode (c : Config) (h : Nat) (f : Frame) : Except Reject Instr :=
  if f.data.length > 8 then .error .tooLong
  else if f.id.getLsbD 31 = false then .ok (.stdFrame h f.id f.data)
  else
    let d := decodeId f.id
    let r : Routing := { prio := d.prio, dst := d.dst, src := d.src }
    if isAcRequest c d.pgn f.data then .ok (.requestAc h r (f.data.drop 3))
    else if d.pgn = pgnTpCm then decodeCm h r f.data
    else if d.pgn = pgnTpDt then decodeDt h r f.data
    else if d.pgn = pgnAddressClaimed then decodeClaim h r f.data
    else .ok (.app h d.prio d.pgn d.src d.dst f.data)

/-! ### Encoders -/

/-- A frame of PGN `pgn` with the routing `r` and the data field `data`. -/
def classFrame (pgn : Pgn) (r : Routing) (data : List Byte) : Frame :=
  { id := encodeId r.prio pgn r.src r.dst, data := data }

/-- The frame of a received-frame class. The transmitted rows' words carry values of the node's state
(`encodeTx` writes them), and the host operations have no bits (R130): for those there is none here. -/
def encode (c : Config) (i : Instr) : Option Frame :=
  match i with
  | .stdFrame _ id data => some { id := id, data := data }
  | .requestAc _ r extra => some (classFrame c.pgnRequest r (requestAcBytes ++ extra))
  | .tpCmRts _ r len npkt maxPackets pgn => some (classFrame pgnTpCm r (cmLenBytes ctrlRts len npkt maxPackets pgn))
  | .tpCmCts _ r packets nextSeq res3 res4 pgn =>
    some (classFrame pgnTpCm r (cmBytes ctrlCts packets nextSeq res3 res4 pgn))
  | .tpCmEoma _ r len npkt res4 pgn => some (classFrame pgnTpCm r (cmLenBytes ctrlEoma len npkt res4 pgn))
  | .tpCmBam _ r len npkt res4 pgn => some (classFrame pgnTpCm r (cmLenBytes ctrlBam len npkt res4 pgn))
  | .tpCmAbort _ r reason res2 res3 res4 pgn =>
    some (classFrame pgnTpCm r (cmBytes ctrlAbort reason res2 res3 res4 pgn))
  | .tpCmOther _ r control rest => some (classFrame pgnTpCm r (control :: rest))
  | .tpDt _ r seq chunk => some (classFrame pgnTpDt r (seq :: chunk))
  | .addressClaimed _ r name => some (classFrame pgnAddressClaimed r (nameBytes name))
  | .app _ prio pgn src dst data => some { id := encodeId prio pgn src dst, data := data }
  | .txAddressClaimed _ => none
  | .txCannotClaimAddress _ => none
  | .txTpCmBam _ => none
  | .txTpCmRts _ => none
  | .txTpCmCts _ => none
  | .txTpCmEoma _ => none
  | .txTpCmAbortTimeout _ => none
  | .txTpCmAbortBusy _ _ _ => none
  | .txTpDt _ => none
  | .txAppSingle _ _ => none
  | .reset => none
  | .init _ _ _ => none
  | .rxframe _ _ => none
  | .tick _ => none
  | .send _ _ => none

/-- `0x9CEC0000 | (s << 8) | a` (R113). -/
def txCmWord (s a : Byte) : IdWord := 0x9CEC#16 ++ s ++ a

/-- The frame of a transmitted form, from the bit patterns of the table's transmit rows and R96 to R103. -/
def encodeTx (t : TxForm) : Frame :=
  match t with
  | .addressClaimed a name => { id := 0x98EEFF#24 ++ a, data := nameBytes name }
  | .cannotClaimAddress name => { id := 0x98EEFFFE#32, data := nameBytes name }
  | .bam a len npkt pgn => { id := 0x9CECFF#24 ++ a, data := cmLenBytes 32#8 len npkt 0xFF#8 pgn }
  | .rts s a len npkt pgn => { id := txCmWord s a, data := cmLenBytes 16#8 len npkt 255#8 pgn }
  | .cts s a npkt pgn => { id := txCmWord s a, data := cmBytes 17#8 npkt 1#8 0xFF#8 0xFF#8 pgn }
  | .eoma s a len npkt pgn => { id := txCmWord s a, data := cmLenBytes 19#8 len npkt 0xFF#8 pgn }
  | .abort s a reason pgn => { id := txCmWord s a, data := cmBytes 255#8 reason 0xFF#8 0xFF#8 0xFF#8 pgn }
  | .dt s a seq chunk => { id := 0x9CEB#16 ++ s ++ a, data := seq :: chunk }
  | .appSingle prio pgn s a data =>
    { id := 4#3 ++ prio ++ 0#1 ++ (pgn.extractLsb' 16 1 : BitVec 1) ++ byteOf pgn 1 ++ s ++ a, data := data }

/-! ### The opcode table's words -/

/-- The frame whose bits are `w`, numbered as the table numbers them: the identifier word in bits 31..0, then the
eight data bytes of the longest frame, `d[0]` in bits 39..32 (log entry 4). -/
def tableFrame (w : Nat) : Frame :=
  { id := BitVec.ofNat 32 w
    data := (List.range 8).map fun k => BitVec.ofNat 8 (w >>> (32 + 8 * k)) }

/-- What the decoder reads from a table word: a frame received for handle 0 (log entry 4). A row without an
identifier word (a host operation, R130) has no bits to decode. -/
def decodeTableWord (nbits w : Nat) : Option Instr :=
  if nbits < 32 then none
  else
    match decode Config.default 0 (tableFrame (w % 2 ^ nbits)) with
    | .ok i => some i
    | .error _ => none

end Sys2Proof
end

