-- ==== Sys2Proof/WellFormed.lean ====
section
/-! DEFINITION. Which instructions a frame or a host can stand for: the conditions of spec/opcode_table.json's
rows (30_encoding.md R95 to R103, R108, R111) and of the message forms. -/

namespace Sys2Proof

/-- The seven bytes after the first of an 8-byte data field. -/
def sevenBytes (bs : List Byte) : Bool := decide (bs.length = 7)

/-- An application frame is what no earlier row takes (41_dispatcher.md R162, R166), with a PGN a word can carry (R142). -/
def appFrameWf (c : Config) (pgn : Pgn) (dst : Byte) (data : List Byte) : Bool :=
  decide (data.length ≤ 8) && validTuple pgn dst && !isAcRequest c pgn data &&
    decide (pgn ≠ pgnTpCm) && decide (pgn ≠ pgnTpDt) && decide (pgn ≠ pgnAddressClaimed)

/-- The well-formed instructions. `SEND` takes a message of any length: over 1785 bytes it answers ERR_PARAM (R170). -/
def WellFormed (c : Config) (i : Instr) : Bool :=
  match i with
  | .stdFrame _ id data => decide (id.getLsbD 31 = false) && decide (data.length ≤ 8)
  | .requestAc _ r extra => validTuple c.pgnRequest r.dst && decide (extra.length ≤ 5)
  | .tpCmRts _ _ _ _ _ _ => true
  | .tpCmCts _ _ _ _ _ _ _ => true
  | .tpCmEoma _ _ _ _ _ _ => true
  | .tpCmBam _ _ _ _ _ _ => true
  | .tpCmAbort _ _ _ _ _ _ _ => true
  | .tpCmOther _ _ control rest => sevenBytes rest && !isCmControl control && !isAcRequest c pgnTpCm (control :: rest)
  | .tpDt _ _ seq chunk => sevenBytes chunk && !isAcRequest c pgnTpDt (seq :: chunk)
  | .addressClaimed _ _ name => !isAcRequest c pgnAddressClaimed (nameBytes name)
  | .app _ _ pgn _ dst data => appFrameWf c pgn dst data
  | .txAddressClaimed _ => true
  | .txCannotClaimAddress _ => true
  | .txTpCmBam _ => true
  | .txTpCmRts _ => true
  | .txTpCmCts _ => true
  | .txTpCmEoma _ => true
  | .txTpCmAbortTimeout _ => true
  | .txTpCmAbortBusy _ _ _ => true
  | .txTpDt _ => true
  | .txAppSingle _ msg => decide (msg.data.length ≤ 8)
  | .reset => true
  | .init _ _ _ => true
  | .rxframe _ f => decide (f.data.length ≤ 8)
  | .tick _ => true
  | .send _ _ => true

end Sys2Proof
end

