-- ==== Sys2Proof/Machine/State.lean ====
section
/-! DEFINITION. The state as plain data (10_state.md R20 to R47), the reasons a step can stop, and the state after
reset (R46). The node records are MAX_NODES many; those below `nodeCount` are initialised. -/

namespace Sys2Proof.Machine

/-! ### Memory: one TP buffer (20_memory.md R60, R62) -/

/-- The cells of a buffer: offset and byte, offsets strictly rising, no cell equal to what an unlisted offset reads as. -/
abbrev Memory := List Host.Cell

/-- What an offset nothing has written reads as. DESIGN CHOICE, unsafe: the spec gives no value (10_state.md R34,
log entry 10). -/
def unlistedByte : Byte := 0#8

/-! ### The node record (10_state.md R23) -/

/-- `tp_kind` (R31). -/
inductive TpKind where
  | none
  | bcast
  | p2p
  deriving DecidableEq, Repr

/-- `tp_role` (R32). -/
inductive TpRole where
  | sender
  | receiver
  deriving DecidableEq, Repr

/-- One node record, its fields named as in R23. -/
structure Node where
  addr : Byte
  name : Name64
  tickMs : Nat
  acTable : Vector Bool acTableSize
  acFree : Nat
  cannotClaim : Bool
  tpKind : TpKind
  tpRole : TpRole
  tpCts : Bool
  tpBuf : Memory
  tpSeq : Byte
  tpRem : Nat
  tpLen : Nat
  tpNpkt : Byte
  tpPgn : Pgn
  tpPeer : Byte
  tpDest : Byte
  tpTimer : Nat
  deriving DecidableEq, Repr

/-- A record at reset: the spec gives no value for any field (R46); these are the model's. DESIGN CHOICE, unsafe
(log entry 9). -/
def Node.reset : Node :=
  { addr := addrNull, name := 0#64, tickMs := 0, acTable := Vector.replicate acTableSize false, acFree := 0,
    cannotClaim := false, tpKind := .none, tpRole := .sender, tpCts := false, tpBuf := [], tpSeq := 0#8,
    tpRem := 0, tpLen := 0, tpNpkt := 0#8, tpPgn := 0#24, tpPeer := 0#8, tpDest := 0#8, tpTimer := 0 }

/-! ### What an operation gives back -/

/-- The output events (00_scope.md R13). -/
inductive OutEvent where
  | txFrame (f : Frame)
  | deliver (m : Message)
  | startupDelay (ms : Nat)
  deriving DecidableEq, Repr

/-- The return statuses of host operations (60_exceptions.md R326). -/
inductive Status where
  | ok
  | errHandle
  | errParam
  | errCapacity
  | errListenOnly
  | errCannotClaim
  | errBusy
  | errTx
  deriving DecidableEq, Repr

/-- What an operation returns: a status and, after a successful INIT, the new handle (30_encoding.md R130). -/
structure Ret where
  status : Status
  handle : Option Nat
  deriving DecidableEq, Repr

/-- The reasons a received frame is discarded (60_exceptions.md R321); no state keeps one. -/
inductive Discard where
  | stdFrame
  | notAddressed
  | seqMismatch
  | noConnection
  | notReceiver
  | alreadyComplete
  | badLength
  deriving DecidableEq, Repr

/-- Where the model stops because the spec defines no effect there; each place is one the spec says no run reaches
(log entry 13). All are safe: the model stops where hardware, if it ever came there, would go on. -/
inductive Fault where
  /-- Raised by MemRead and MemWrite on the TP buffer: an access outside offsets 0..1784 (20_memory.md R62). Safe. -/
  | bufferRange
  /-- Raised by SendDT and Accept: sequence number 0 with bytes left, where "no offset is defined"
  (43_transport_protocol.md R280). Safe. -/
  | noOffset
  /-- Raised by SendDT with `tp_rem = 0`, against its precondition (R233). Safe. -/
  | sendWithoutData
  /-- Raised by an operation on a record outside the array `node[0..MAX_NODES-1]` (10_state.md R20). Safe. -/
  | noRecord
  deriving DecidableEq, Repr

/-- Where a step gives an instruction no meaning. -/
inductive Refusal where
  /-- Raised by `exec` alone, for an instruction that has no meaning yet. Safe. -/
  | notModelled (mnemonic : String)
  /-- Raised by `step`: a pending operation that is none of the block's (a frame of more than eight data bytes,
  00_scope.md R14, 92_eei_decisions.md D4). Safe. -/
  | notAnOperation
  deriving DecidableEq, Repr

/-! ### The state -/

/-- The whole state: the spec's `nodeCount` and `nodes` (R20, R22, R23), and what the model holds beside them
because a step sees nothing else. -/
structure State where
  /-- The parameters of 00_scope.md R8: no operation writes them. -/
  cfg : Config
  /-- `node_count` (10_state.md R22). -/
  nodeCount : Nat
  /-- `node[0..MAX_NODES-1]` (R20). -/
  nodes : List Node
  /-- The model's own: operations the host has issued, oldest first (00_scope.md R13, log entry 3). -/
  pending : List HostOp
  /-- The model's own: the output list of the last operation (R13, log entry 5). -/
  outputs : List OutEvent
  /-- The model's own: what the last operation returned; RESET returns nothing (30_encoding.md R130, log entry 5). -/
  result : Option Ret
  /-- The model's own: the index of the next `tx_ok` draw (41_dispatcher.md R176, log entry 7). -/
  txDraws : Nat
  /-- The model's own: the index of the next other free value (10_state.md R47, log entry 8). -/
  freeDraws : Nat
  deriving DecidableEq, Repr

/-- The machine right after reset (R46): no node, every record at `Node.reset`, nothing pending, the parameters at
their defaults (log entries 3, 5, 6, 9). -/
def State.reset : State :=
  { cfg := Config.default, nodeCount := 0, nodes := List.replicate Config.default.maxNodes Node.reset,
    pending := [], outputs := [], result := none, txDraws := 0, freeDraws := 0 }

/-! ### An operation in progress -/

/-- One operation on one node while it runs: the record, the events emitted so far, the next `tx_ok` draw. -/
structure NodeRun where
  node : Node
  out : List OutEvent
  draws : Nat
  deriving DecidableEq, Repr

/-- How an operation ends early: a Discard (00_scope.md R12) or a fault of the model. -/
inductive Stop where
  | discard (why : Discard)
  | fault (why : Fault)
  deriving DecidableEq, Repr

end Sys2Proof.Machine
end

