-- ==== Sys2Proof/Machine/Ops.lean ====
section
/-! DEFINITION. The named operations over the buffer and the node records that every meaning calls: MemRead and
MemWrite (20_memory.md R62), the output helpers Transmit and Deliver (41_dispatcher.md R175, R177), and the one place
where an operation begins and ends, with its handle check (44_node_registry.md R303), its status
(60_exceptions.md R326) and its early end by a Discard (R321). The block has no trap entry and no return from one
(R333, R334): that end is all it has in their stead. -/

namespace Sys2Proof.Machine

/-! ### The TP buffer -/

/-- One byte of the buffer. -/
def Memory.read : Memory → Nat → Byte
  | [], _ => unlistedByte
  | (k, v) :: rest, a => if k = a then v else Memory.read rest a

/-- Write one byte, keeping the canonical form: the byte an unlisted offset reads as is not listed. -/
def Memory.write : Memory → Nat → Byte → Memory
  | [], a, b => if b = unlistedByte then [] else [(a, b)]
  | (k, v) :: rest, a, b =>
    if a < k then (if b = unlistedByte then (k, v) :: rest else (a, b) :: (k, v) :: rest)
    else if a = k then (if b = unlistedByte then rest else (a, b) :: rest)
    else (k, v) :: Memory.write rest a b

/-- Write bytes at rising offsets. -/
def Memory.writeAll : Memory → Nat → List Byte → Memory
  | m, _, [] => m
  | m, a, b :: bs => Memory.writeAll (Memory.write m a b) (a + 1) bs

/-- Every listed offset is at least `lo`, offsets rise strictly, and no listed byte is the unlisted one. -/
def Memory.wfFrom : Nat → Memory → Bool
  | _, [] => true
  | lo, (k, v) :: rest => decide (lo ≤ k) && decide (v ≠ unlistedByte) && Memory.wfFrom (k + 1) rest

/-- The canonical form: equal buffers are equal lists. -/
def Memory.wf (m : Memory) : Bool := Memory.wfFrom 0 m

/-- `MemRead(addr, k)`, defined for `addr + k ≤ 1785` (R62). -/
def memRead (m : Memory) (addr k : Nat) : Except Stop (List Byte) :=
  if addr + k ≤ tpMaxLen then .ok ((List.range k).map fun j => m.read (addr + j))
  else .error (.fault .bufferRange)

/-- `MemWrite(addr, k, v)` with `k` the length of `v`, defined for `addr + k ≤ 1785` (R62). -/
def memWrite (m : Memory) (addr : Nat) (v : List Byte) : Except Stop Memory :=
  if addr + v.length ≤ tpMaxLen then .ok (m.writeAll addr v)
  else .error (.fault .bufferRange)

/-- `(s − 1) × 7`, the offset of packet `s` (R62); none is defined for 0 (43_transport_protocol.md R280). -/
def packetOffset (s : Byte) : Except Stop Nat :=
  if s = 0#8 then .error (.fault .noOffset) else .ok ((s.toNat - 1) * tpChunk)

/-! ### Output events -/

/-- Write the record of the operation in progress. -/
def NodeRun.setNode (r : NodeRun) (n : Node) : NodeRun := { r with node := n }

/-- `emit E` (00_scope.md R12). -/
def NodeRun.emit (r : NodeRun) (e : OutEvent) : NodeRun := { r with out := r.out ++ [e] }

/-- `emit TxFrame(f); draw tx_ok` (41_dispatcher.md R176): the run goes on, and the draw is the answer. -/
def emitFrame (f : Frame) (r : NodeRun) : NodeRun × Bool :=
  ({ r with out := r.out ++ [.txFrame f], draws := r.draws + 1 }, Config.txOk r.draws)

/-- `Deliver(m)` (R177). -/
def deliver (m : Message) (r : NodeRun) : NodeRun := r.emit (.deliver m)

/-! ### Beginning and ending an operation -/

/-- What one operation does to its node: the run's new value and the status it returns, or an early end. -/
abbrev NodeOp := Config → NodeRun → Except Stop (NodeRun × Status)

/-- End an operation that changed nothing and emitted nothing, with a status (R326). -/
def State.returned (s : State) (st : Status) : State :=
  { s with outputs := [], result := some { status := st, handle := none } }

/-- End an operation on node `h`: its record, its output list, its status. -/
def State.finish (s : State) (h : Nat) (r : NodeRun) (st : Status) : State :=
  { s with nodes := s.nodes.set h r.node, outputs := r.out, txDraws := r.draws,
           result := some { status := st, handle := none } }

/-- Run an operation on the node of handle `h`: the handle check first (R303); a Discard changes nothing and returns
OK (R321, 90_conflicts.md C10). -/
def onNode (h : Nat) (s : State) (op : NodeOp) : Host.Outcome State Fault Refusal :=
  if s.nodeCount ≤ h then .next (s.returned .errHandle)
  else
    match s.nodes[h]? with
    | none => .fault .noRecord
    | some n =>
      match op s.cfg { node := n, out := [], draws := s.txDraws } with
      | .ok (r, st) => .next (s.finish h r st)
      | .error (.discard _) => .next (s.returned .ok)
      | .error (.fault why) => .fault why

/-- Give a run that ends normally its status. -/
def withStatus (st : Status) : Except Stop NodeRun → Except Stop (NodeRun × Status)
  | .ok r => .ok (r, st)
  | .error e => .error e

/-- The status of an operation whose only report is what Transmit answered (R326, ERR_TX). -/
def txStatus (ok : Bool) : Status := if ok then .ok else .errTx

end Sys2Proof.Machine
end

