-- ==== Sys2Proof/Machine/Flags.lean ====
section
/-! DEFINITION. The two status flags of a node, `cannot_claim` and `tp_cts` (10_state.md R44), what they gate and
select, and the timer that the flags' states run on (R42). Neither flag is a condition code. -/

namespace Sys2Proof.Machine

/-- The transmit prohibition (41_dispatcher.md R175): nothing leaves a listen-only block or a Cannot-Claim node. -/
def txBarred (c : Config) (n : Node) : Bool := c.listenOnly || n.cannotClaim

/-- `Transmit(n, m)` (R175): the run after it, and whether the transport accepted the frame. -/
def transmit (c : Config) (m : Message) (r : NodeRun) : NodeRun × Bool :=
  if txBarred c r.node then (r, false)
  else emitFrame (messageToFrame { m with src := r.node.addr }) r

/-- The connection states of 43_transport_protocol.md R231. -/
inductive ConnState where
  | idle
  | bamTx
  | bamRx
  | bamRxDone
  | p2pTxWaitCts
  | p2pTxData
  | p2pTxWaitAck
  | p2pRxPreCts
  | p2pRxData
  | p2pRxDone
  deriving DecidableEq, Repr

/-- The state `(tp_kind, tp_role, tp_cts)` and the test `tp_rem = 0` name (R231). -/
def connState (n : Node) : ConnState :=
  match n.tpKind, n.tpRole with
  | .none, _ => .idle
  | .bcast, .sender => .bamTx
  | .bcast, .receiver => if n.tpRem = 0 then .bamRxDone else .bamRx
  | .p2p, .sender => if n.tpCts then (if n.tpRem = 0 then .p2pTxWaitAck else .p2pTxData) else .p2pTxWaitCts
  | .p2p, .receiver => if n.tpCts then (if n.tpRem = 0 then .p2pRxDone else .p2pRxData) else .p2pRxPreCts

/-- `n.tp_timer + n.tick_ms` in TIMER_W bits (43_transport_protocol.md R250, 10_state.md R42): a sum that does not
fit, which the spec says cannot occur with the default widths, leaves a free value (log entry 11). -/
def timerSum (c : Config) (timer tick : Nat) : Nat :=
  if timer + tick < 2 ^ c.timerW then timer + tick
  else Config.timerOverflow (timer + tick) % 2 ^ c.timerW

/-- `n.tp_timer <- t`. -/
def NodeRun.setTimer (r : NodeRun) (t : Nat) : NodeRun := r.setNode { r.node with tpTimer := t }

/-- `TP_Close(n)` (R236): the other `tp_*` fields keep their values. -/
def NodeRun.close (r : NodeRun) : NodeRun := r.setNode { r.node with tpKind := .none, tpCts := false }

end Sys2Proof.Machine
end

