-- ==== Sys2Proof/Machine/Operands.lean ====
section
/-! DEFINITION. The operand forms: the message a received-frame class stands for, rebuilt from the row's fields
(40_codec.md R144, 30_encoding.md R95 to R103), the shared receive path in front of every class
(41_dispatcher.md R160), and the fields the transmitted rows read from the node record (30_encoding.md R113). -/

namespace Sys2Proof.Machine

/-- The decoded message of a frame of PGN `pgn` with the routing `r`. -/
def classMessage (pgn : Pgn) (r : Routing) (data : List Byte) : Message :=
  { prio := r.prio, pgn := pgn, src := r.src, dst := r.dst, data := data }

/-- RXFRAME behind its acceptance check (R160): listen-only delivery (R167), the destination filter (R161), then the
handler of the message's class; status OK. -/
def receive (h : Nat) (m : Message) (handler : Config → NodeRun → Except Stop NodeRun) (s : State) :
    Host.Outcome State Fault Refusal :=
  onNode h s fun c r =>
    if c.listenOnly then .ok (deliver m r, .ok)
    else if m.dst ≠ addrGlobal ∧ m.dst ≠ r.node.addr then .error (.discard .notAddressed)
    else withStatus .ok (handler c r)

/-- `tp_len` as the 16-bit field of a TP.CM frame (R98). -/
def Node.lenField (n : Node) : BitVec 16 := BitVec.ofNat 16 n.tpLen

/-- The Address-Claimed message of a node (42_address_claim.md R193); `Transmit` writes the source. -/
def claimMessage (n : Node) : Message :=
  { prio := prioAc, pgn := pgnAddressClaimed, src := n.addr, dst := addrGlobal, data := nameBytes n.name }

/-- The message of `CM` (43_transport_protocol.md R232). -/
def cmMessage (n : Node) (dst : Byte) (data : List Byte) : Message :=
  { prio := prioTp, pgn := pgnTpCm, src := n.addr, dst := dst, data := data }

/-- The message of `SendDT` (R233). -/
def dtMessage (n : Node) (data : List Byte) : Message :=
  { prio := prioTp, pgn := pgnTpDt, src := n.addr, dst := n.tpPeer, data := data }

/-- The reassembled message (R239): priority 7, and the fields the opening frame left in the record. -/
def reassembledMessage (n : Node) (data : List Byte) : Message :=
  { prio := prioTp, pgn := n.tpPgn, src := n.tpPeer, dst := n.tpDest, data := data }

end Sys2Proof.Machine
end

