-- ==== Sys2Proof/Machine/AddressClaim.lean ====
section
/-! DEFINITION. The address-claim engine (42_address_claim.md) and the meanings of its rows: REQUEST_AC,
ADDRESS_CLAIMED, TX.ADDRESS_CLAIMED, TX.CANNOT_CLAIM_ADDRESS. -/

namespace Sys2Proof.Machine

/-! ### The availability table (20_memory.md R61) -/

/-- `n.ac_table[a]`; only 0..253 have an entry, and no rule asks for another (R61). -/
def Node.occupied (n : Node) (a : Nat) : Bool := n.acTable.toList.getD a true

/-- `Mark(n, a)` (R196), guarded or not by the parameter AC_DECREMENT_GUARDED; the counter stops at 0 (log entry 12). -/
def mark (c : Config) (a : Nat) (n : Node) : Node :=
  if c.acDecrementGuarded then
    if n.occupied a then n
    else { n with acTable := n.acTable.setIfInBounds a true, acFree := n.acFree - 1 }
  else { n with acTable := n.acTable.setIfInBounds a true, acFree := n.acFree - 1 }

/-- The table with one entry occupied (R191, R200). -/
def selfOnlyTable (a : Byte) : Vector Bool acTableSize :=
  (Vector.replicate acTableSize false).setIfInBounds a.toNat true

/-- `ClearTable(n)` (R200). -/
def clearTable (n : Node) : Node := { n with acTable := selfOnlyTable n.addr, acFree := 253 }

/-- The first free address of at most `fuel` candidates, from `a` upwards modulo 254 (R197). -/
def scanFree (n : Node) : Nat → Nat → Option Nat
  | 0, _ => none
  | fuel + 1, a => if n.occupied a then scanFree n fuel ((a + 1) % acTableSize) else some a

/-- `UpdateAddress(n)` (R197): the node at its new address, or none. -/
def updateAddress (c : Config) (n : Node) : Option Node :=
  if n.acFree = 0 then none
  else
    match scanFree n 253 ((n.addr.toNat + 1) % acTableSize) with
    | none => none
    | some a => some (mark c a { n with addr := BitVec.ofNat 8 a })

/-! ### The engine's actions -/

/-- `SendClaim(n)` (R193); what Transmit answers is discarded. -/
def sendClaim (c : Config) (r : NodeRun) : NodeRun := (transmit c (claimMessage r.node) r).1

/-- `EnterCannotClaim(n)` (R198): the frame is emitted before the flag is set, past the gate of Transmit. -/
def enterCannotClaim (r : NodeRun) : NodeRun :=
  let n := { r.node with addr := addrNull }
  let r := (emitFrame (messageToFrame (claimMessage n)) (r.setNode n)).1
  r.setNode { n with cannotClaim := true }

/-- The contention branch of `AC_OnClaim` (R194, R195): `their` is the NAME received from our own address. -/
def contend (c : Config) (their : Name64) (r : NodeRun) : NodeRun :=
  if their.toNat < r.node.name.toNat then
    let r := r.close
    match updateAddress c r.node with
    | some n => sendClaim c (r.setNode n)
    | none => enterCannotClaim r
  else sendClaim c r

/-- `AC_OnClaim(n, m)` after its length check, with `S` the source and `N` the NAME (R194). -/
def acOnClaim (c : Config) (src : Byte) (their : Name64) (r : NodeRun) : NodeRun :=
  if r.node.cannotClaim then r
  else
    let r' := if src = r.node.addr then contend c their r else r
    if src.toNat < acTableSize then r'.setNode (mark c src.toNat r'.node) else r'

/-- `AC_OnRequest(n)` (R199). -/
def acOnRequest (c : Config) (r : NodeRun) : NodeRun :=
  if r.node.cannotClaim then r else sendClaim c (r.setNode (clearTable r.node))

/-- `AC_Init(n, name, pref)` (R191), with the startup delay as its last output (R192). -/
def acInit (c : Config) (name : Name64) (pref : Byte) (r : NodeRun) : NodeRun :=
  let n := { r.node with addr := pref, acTable := selfOnlyTable pref, acFree := 253, name := name,
                         cannotClaim := false }
  let r := sendClaim c (r.setNode n)
  if startupDelayLo ≤ pref.toNat ∧ pref.toNat ≤ startupDelayHi then r.emit (.startupDelay startupDelayMs) else r

/-! ### Meanings -/

/-- REQUEST_AC (R199; routing rule 1, 41_dispatcher.md R163). -/
def execRequestAc (h : Nat) (rt : Routing) (extra : List Byte) (s : State) : Host.Outcome State Fault Refusal :=
  receive h (classMessage s.cfg.pgnRequest rt (requestAcBytes ++ extra)) (fun c r => .ok (acOnRequest c r)) s

/-- ADDRESS_CLAIMED (R194; routing rule 3, 41_dispatcher.md R165). -/
def execAddressClaimed (h : Nat) (rt : Routing) (name : Name64) (s : State) : Host.Outcome State Fault Refusal :=
  receive h (classMessage pgnAddressClaimed rt (nameBytes name)) (fun c r => .ok (acOnClaim c rt.src name r)) s

/-- TX.ADDRESS_CLAIMED: `SendClaim` on node `h` (R193). -/
def execTxAddressClaimed (h : Nat) (s : State) : Host.Outcome State Fault Refusal :=
  onNode h s fun c r => .ok (sendClaim c r, .ok)

/-- TX.CANNOT_CLAIM_ADDRESS: `EnterCannotClaim` on node `h` (R198). -/
def execTxCannotClaimAddress (h : Nat) (s : State) : Host.Outcome State Fault Refusal :=
  onNode h s fun _ r => .ok (enterCannotClaim r, .ok)

end Sys2Proof.Machine
end

