-- ==== Sys2Proof/Machine/Transport.lean ====
section
/-! DEFINITION. The transport-protocol engine (43_transport_protocol.md) and the meanings of its rows: the TP_CM
classes, TP_DT, the TX.TP rows and TICK. -/

namespace Sys2Proof.Machine

/-! ### Helpers of the engine -/

/-- `CM(n, ctrl, …, pgn, to)` (R232), its data field already laid out; answers what Transmit answers. -/
def cm (c : Config) (dst : Byte) (data : List Byte) (r : NodeRun) : NodeRun × Bool :=
  transmit c (cmMessage r.node dst data) r

/-- `SendDT(n)` (R233): the state update does not depend on what Transmit answers. -/
def sendDt (c : Config) (r : NodeRun) : Except Stop NodeRun :=
  if r.node.tpRem = 0 then .error (.fault .sendWithoutData)
  else
    match packetOffset r.node.tpSeq with
    | .error e => .error e
    | .ok off =>
      match memRead r.node.tpBuf off (min tpChunk r.node.tpRem) with
      | .error e => .error e
      | .ok bytes =>
        let k := min tpChunk r.node.tpRem
        let data := r.node.tpSeq :: (bytes ++ List.replicate (tpChunk - k) padByte)
        let r := (transmit c (dtMessage r.node data) r).1
        .ok (r.setNode { r.node with tpRem := r.node.tpRem - k, tpSeq := r.node.tpSeq + 1#8 })

/-- `TP_Abort(n, reason)` (R237). -/
def tpAbort (c : Config) (reason : Byte) (r : NodeRun) : NodeRun :=
  (cm c r.node.tpPeer (cmBytes ctrlAbort reason reservedByte reservedByte reservedByte r.node.tpPgn) r).1.close

/-- `TP_BusyAbort(n, to, pgn)` (R238): the existing connection is untouched. -/
def tpBusyAbort (c : Config) (dst : Byte) (pgn : Pgn) (r : NodeRun) : NodeRun :=
  (cm c dst (cmBytes ctrlAbort c.abortReasonBusy reservedByte reservedByte reservedByte pgn) r).1

/-- `TP_DeliverReassembled(n)` (R239). -/
def deliverReassembled (r : NodeRun) : Except Stop NodeRun :=
  match memRead r.node.tpBuf 0 r.node.tpLen with
  | .error e => .error e
  | .ok data => .ok (deliver (reassembledMessage r.node data) r)

/-- `Accept(n, s, chunk)` (R235): the bytes after the first `min(7, tp_rem)` are not copied. -/
def accept (s : Byte) (chunk : List Byte) (n : Node) : Except Stop Node :=
  match packetOffset s with
  | .error e => .error e
  | .ok off =>
    match memWrite n.tpBuf off (chunk.take (min tpChunk n.tpRem)) with
    | .error e => .error e
    | .ok buf =>
      .ok { n with tpBuf := buf, tpRem := n.tpRem - min tpChunk n.tpRem, tpSeq := n.tpSeq + 1#8, tpTimer := 0 }

/-! ### The frames a connection sends, each with the statements of its branch (log entry 2) -/

/-- The broadcast branch of `TP_Queue` (R234). -/
def openBam (c : Config) (r : NodeRun) : NodeRun × Bool :=
  let r := r.setNode { r.node with tpKind := .bcast }
  cm c addrGlobal (cmLenBytes ctrlBam r.node.lenField r.node.tpNpkt reservedByte r.node.tpPgn) r

/-- The peer-to-peer branch of `TP_Queue` (R234). -/
def openRts (c : Config) (r : NodeRun) : NodeRun × Bool :=
  let r := r.setNode { r.node with tpKind := .p2p }
  cm c r.node.tpPeer (cmLenBytes ctrlRts r.node.lenField r.node.tpNpkt rtsMaxPackets r.node.tpPgn) r

/-- The CTS branch of R254: send, mark cleared, restart the timer. -/
def sendCts (c : Config) (r : NodeRun) : NodeRun :=
  let r := (cm c r.node.tpPeer (cmBytes ctrlCts r.node.tpNpkt 1#8 reservedByte reservedByte r.node.tpPgn) r).1
  r.setNode { r.node with tpCts := true, tpTimer := 0 }

/-- The completion branch of R254: the EOMA, then the delivery, then the close. -/
def sendEoma (c : Config) (r : NodeRun) : Except Stop NodeRun :=
  let r := (cm c r.node.tpPeer (cmLenBytes ctrlEoma r.node.lenField r.node.tpNpkt reservedByte r.node.tpPgn) r).1
  match deliverReassembled r with
  | .error e => .error e
  | .ok r => .ok r.close

/-! ### Queue -/

/-- The record `TP_Queue` writes before it opens the connection (R234). -/
def queuedNode (n : Node) (m : Message) (buf : Memory) : Node :=
  { n with tpBuf := buf, tpLen := m.len, tpRem := m.len, tpNpkt := BitVec.ofNat 8 (packetCount m.len),
           tpRole := .sender, tpSeq := 1#8, tpTimer := 0, tpPgn := m.pgn, tpPeer := m.dst, tpDest := m.dst,
           tpCts := false }

/-- `TP_Queue(n, msg)` (R234). -/
def tpQueue (m : Message) : NodeOp := fun c r =>
  if r.node.tpKind ≠ .none then .ok (r, .errBusy)
  else
    match memWrite r.node.tpBuf 0 m.data with
    | .error e => .error e
    | .ok buf =>
      let r := r.setNode (queuedNode r.node m buf)
      let (r, ok) := if m.dst = addrGlobal then openBam c r else openRts c r
      .ok (r, txStatus ok)

/-! ### The periodic update -/

/-- TICK, broadcast sender (R251). -/
def tickBamTx (c : Config) (r : NodeRun) : Except Stop NodeRun :=
  if 0 < r.node.tpRem ∧ tPeriodMs ≤ r.node.tpTimer then
    match sendDt c r with
    | .error e => .error e
    | .ok r => .ok (if r.node.tpRem = 0 then (r.setTimer 0).close else r.setTimer 0)
  else .ok (if r.node.tpRem = 0 then r.close else r)

/-- TICK, broadcast receiver (R252): completion before the timeout. -/
def tickBamRx (c : Config) (r : NodeRun) : Except Stop NodeRun :=
  if r.node.tpRem = 0 then
    match deliverReassembled r with
    | .error e => .error e
    | .ok r => .ok r.close
  else if t1Ms ≤ r.node.tpTimer then
    .ok (if c.bamRxTimeoutSendsAbort then tpAbort c c.abortReasonTimeout r else r.close)
  else .ok r

/-- TICK, peer-to-peer sender (R253). -/
def tickP2pTx (c : Config) (r : NodeRun) : Except Stop NodeRun :=
  if r.node.tpCts = false then
    .ok (if trMs ≤ r.node.tpTimer then tpAbort c c.abortReasonTimeout r else r)
  else if 0 < r.node.tpRem then
    if tPeriodMs ≤ r.node.tpTimer then
      match sendDt c r with
      | .error e => .error e
      | .ok r => .ok (r.setTimer 0)
    else .ok r
  else .ok (if t3Ms ≤ r.node.tpTimer then tpAbort c c.abortReasonTimeout r else r)

/-- TICK, peer-to-peer receiver (R254): the CTS slot, else completion, else T1. -/
def tickP2pRx (c : Config) (r : NodeRun) : Except Stop NodeRun :=
  if r.node.tpCts = false then
    .ok (if tPeriodMs ≤ r.node.tpTimer then sendCts c r else r)
  else if r.node.tpRem = 0 then sendEoma c r
  else .ok (if t1Ms ≤ r.node.tpTimer then tpAbort c c.abortReasonTimeout r else r)

/-- `TICK` after its handle check (R250). -/
def tickNode (c : Config) (r : NodeRun) : Except Stop NodeRun :=
  if r.node.tpKind = .none then .ok r
  else
    let r := r.setTimer (timerSum c r.node.tpTimer r.node.tickMs)
    match r.node.tpKind, r.node.tpRole with
    | .bcast, .sender => tickBamTx c r
    | .bcast, .receiver => tickBamRx c r
    | .p2p, .sender => tickP2pTx c r
    | .p2p, .receiver => tickP2pRx c r
    | .none, _ => .ok r

/-! ### Receiving connection-management frames -/

/-- CTS (R271): no byte after the control byte is read. -/
def onCts (n : Node) : Node :=
  if n.tpKind = .p2p ∧ n.tpRole = .sender then
    { n with tpTimer := if n.tpCts then n.tpTimer else 0, tpCts := true }
  else n

/-- The record after an accepted RTS or BAM (R272, R274). -/
def openedNode (n : Node) (kind : TpKind) (src dst : Byte) (len : BitVec 16) (npkt : Byte) (pgn : Pgn) : Node :=
  { n with tpKind := kind, tpRole := .receiver, tpCts := false, tpPgn := pgn, tpLen := len.toNat,
           tpRem := len.toNat, tpNpkt := npkt, tpPeer := src, tpDest := dst, tpSeq := 1#8, tpTimer := 0 }

/-- RTS and BAM: busy before over-length (R272, R274, R276). -/
def onOpen (kind : TpKind) (src dst : Byte) (len : BitVec 16) (npkt : Byte) (pgn : Pgn) (c : Config)
    (r : NodeRun) : Except Stop NodeRun :=
  if r.node.tpKind ≠ .none then .ok (tpBusyAbort c src pgn r)
  else if tpMaxLen < len.toNat then .error (.discard .badLength)
  else .ok (r.setNode (openedNode r.node kind src dst len npkt pgn))

/-- RTS (R272). -/
def onRts (src dst : Byte) (len : BitVec 16) (npkt : Byte) (pgn : Pgn) (c : Config) (r : NodeRun) :
    Except Stop NodeRun := onOpen .p2p src dst len npkt pgn c r

/-- BAM (R274): "destination is forced to global". -/
def onBam (src : Byte) (len : BitVec 16) (npkt : Byte) (pgn : Pgn) (c : Config) (r : NodeRun) :
    Except Stop NodeRun := onOpen .bcast src addrGlobal len npkt pgn c r

/-- EOMA (R273). -/
def onEoma (pgn : Pgn) (r : NodeRun) : NodeRun :=
  if r.node.tpKind = .p2p ∧ r.node.tpRole = .sender ∧ pgn = r.node.tpPgn ∧ r.node.tpRem = 0 then r.close else r

/-- ABORT (R275). -/
def onAbort (pgn : Pgn) (r : NodeRun) : NodeRun :=
  if r.node.tpKind ≠ .none ∧ pgn = r.node.tpPgn then r.close else r

/-- `TP_OnCM(n, m)` (R270). -/
def tpOnCm (m : Message) (c : Config) (r : NodeRun) : Except Stop NodeRun :=
  match m.data with
  | [d0, d1, d2, d3, _, d5, d6, d7] =>
    if d0 = ctrlRts then onRts m.src m.dst (le16 d1 d2) d3 (le24 d5 d6 d7) c r
    else if d0 = ctrlCts then .ok (r.setNode (onCts r.node))
    else if d0 = ctrlEoma then .ok (onEoma (le24 d5 d6 d7) r)
    else if d0 = ctrlBam then onBam m.src (le16 d1 d2) d3 (le24 d5 d6 d7) c r
    else if d0 = ctrlAbort then .ok (onAbort (le24 d5 d6 d7) r)
    else .ok r
  | _ => .error (.discard .badLength)

/-! ### Receiving data -/

/-- A sequence mismatch (R281). -/
def onSeqMismatch (c : Config) (r : NodeRun) : Except Stop NodeRun :=
  if c.dtSeqMismatchAborts then
    .ok (if r.node.tpKind = .p2p then tpAbort c c.abortReasonTimeout r else r.close)
  else .error (.discard .seqMismatch)

/-- `TP_OnDT(n, m)` after its length check, with the sequence byte and the seven data bytes (R280). -/
def onDt (s : Byte) (chunk : List Byte) (c : Config) (r : NodeRun) : Except Stop NodeRun :=
  if r.node.tpKind = .none then .error (.discard .noConnection)
  else if r.node.tpRole ≠ .receiver then .error (.discard .notReceiver)
  else if r.node.tpRem = 0 then .error (.discard .alreadyComplete)
  else if s ≠ r.node.tpSeq then onSeqMismatch c r
  else
    match accept s chunk r.node with
    | .error e => .error e
    | .ok n => .ok (r.setNode n)

/-- `TP_OnDT(n, m)` (R280). -/
def tpOnDt (m : Message) (c : Config) (r : NodeRun) : Except Stop NodeRun :=
  match m.data with
  | [d0, d1, d2, d3, d4, d5, d6, d7] => onDt d0 [d1, d2, d3, d4, d5, d6, d7] c r
  | _ => .error (.discard .badLength)

/-! ### Meanings of the received rows -/

/-- TP_CM.RTS (R272). -/
def execTpCmRts (h : Nat) (rt : Routing) (len : BitVec 16) (npkt maxPackets : Byte) (pgn : Pgn) (s : State) :
    Host.Outcome State Fault Refusal :=
  receive h (classMessage pgnTpCm rt (cmLenBytes ctrlRts len npkt maxPackets pgn))
    (onRts rt.src rt.dst len npkt pgn) s

/-- TP_CM.CTS (R271). -/
def execTpCmCts (h : Nat) (rt : Routing) (packets nextSeq res3 res4 : Byte) (pgn : Pgn) (s : State) :
    Host.Outcome State Fault Refusal :=
  receive h (classMessage pgnTpCm rt (cmBytes ctrlCts packets nextSeq res3 res4 pgn))
    (fun _ r => .ok (r.setNode (onCts r.node))) s

/-- TP_CM.EOMA (R273). -/
def execTpCmEoma (h : Nat) (rt : Routing) (len : BitVec 16) (npkt res4 : Byte) (pgn : Pgn) (s : State) :
    Host.Outcome State Fault Refusal :=
  receive h (classMessage pgnTpCm rt (cmLenBytes ctrlEoma len npkt res4 pgn)) (fun _ r => .ok (onEoma pgn r)) s

/-- TP_CM.BAM (R274). -/
def execTpCmBam (h : Nat) (rt : Routing) (len : BitVec 16) (npkt res4 : Byte) (pgn : Pgn) (s : State) :
    Host.Outcome State Fault Refusal :=
  receive h (classMessage pgnTpCm rt (cmLenBytes ctrlBam len npkt res4 pgn)) (onBam rt.src len npkt pgn) s

/-- TP_CM.ABORT (R275). -/
def execTpCmAbort (h : Nat) (rt : Routing) (reason res2 res3 res4 : Byte) (pgn : Pgn) (s : State) :
    Host.Outcome State Fault Refusal :=
  receive h (classMessage pgnTpCm rt (cmBytes ctrlAbort reason res2 res3 res4 pgn)) (fun _ r => .ok (onAbort pgn r)) s

/-- TP_CM.OTHER (R277): ignored. -/
def execTpCmOther (h : Nat) (rt : Routing) (control : Byte) (rest : List Byte) (s : State) :
    Host.Outcome State Fault Refusal :=
  receive h (classMessage pgnTpCm rt (control :: rest)) (fun _ r => .ok r) s

/-- TP_DT (R280, R281). -/
def execTpDt (h : Nat) (rt : Routing) (seq : Byte) (chunk : List Byte) (s : State) :
    Host.Outcome State Fault Refusal :=
  receive h (classMessage pgnTpDt rt (seq :: chunk)) (onDt seq chunk) s

/-! ### Meanings of the transmitted rows -/

/-- TX.TP_CM.BAM: the broadcast branch of `TP_Queue` (R234). -/
def execTxTpCmBam (h : Nat) (s : State) : Host.Outcome State Fault Refusal :=
  onNode h s fun c r => .ok ((openBam c r).1, txStatus (openBam c r).2)

/-- TX.TP_CM.RTS: the peer-to-peer branch of `TP_Queue` (R234). -/
def execTxTpCmRts (h : Nat) (s : State) : Host.Outcome State Fault Refusal :=
  onNode h s fun c r => .ok ((openRts c r).1, txStatus (openRts c r).2)

/-- TX.TP_CM.CTS: the CTS branch of R254. -/
def execTxTpCmCts (h : Nat) (s : State) : Host.Outcome State Fault Refusal :=
  onNode h s fun c r => .ok (sendCts c r, .ok)

/-- TX.TP_CM.EOMA: the completion branch of R254. -/
def execTxTpCmEoma (h : Nat) (s : State) : Host.Outcome State Fault Refusal :=
  onNode h s fun c r => withStatus .ok (sendEoma c r)

/-- TX.TP_CM.ABORT_TIMEOUT: `TP_Abort` with the Timeout reason (R237). -/
def execTxTpCmAbortTimeout (h : Nat) (s : State) : Host.Outcome State Fault Refusal :=
  onNode h s fun c r => .ok (tpAbort c c.abortReasonTimeout r, .ok)

/-- TX.TP_CM.ABORT_BUSY: `TP_BusyAbort` (R238). -/
def execTxTpCmAbortBusy (h : Nat) (dst : Byte) (pgn : Pgn) (s : State) : Host.Outcome State Fault Refusal :=
  onNode h s fun c r => .ok (tpBusyAbort c dst pgn r, .ok)

/-- TX.TP_DT: `SendDT` (R233). -/
def execTxTpDt (h : Nat) (s : State) : Host.Outcome State Fault Refusal :=
  onNode h s fun c r => withStatus .ok (sendDt c r)

/-! ### TICK -/

/-- TICK (R250 to R255). -/
def execTick (h : Nat) (s : State) : Host.Outcome State Fault Refusal :=
  onNode h s fun c r => withStatus .ok (tickNode c r)

end Sys2Proof.Machine
end

