-- ==== Sys2Proof/Machine/Dispatcher.lean ====
section
/-! DEFINITION. The message dispatcher (41_dispatcher.md) and the meanings of STD_FRAME, APP, TX.APP_SINGLE,
RXFRAME and SEND. -/

namespace Sys2Proof.Machine

/-- `AC_OnClaim(n, m)` (42_address_claim.md R194). A Cannot-Claim node returns before the length check (R201). -/
def acOnClaimMessage (m : Message) (c : Config) (r : NodeRun) : Except Stop NodeRun :=
  if r.node.cannotClaim then .ok r
  else
    match m.data with
    | [d0, d1, d2, d3, d4, d5, d6, d7] => .ok (acOnClaim c m.src (le64 d0 d1 d2 d3 d4 d5 d6 d7) r)
    | _ => .error (.discard .badLength)

/-- `Dispatch(n, m)` (R162): the routing rules, in order. -/
def dispatch (m : Message) (c : Config) (r : NodeRun) : Except Stop NodeRun :=
  if isAcRequest c m.pgn m.data then .ok (acOnRequest c r)
  else if m.pgn = pgnTpCm then tpOnCm m c r
  else if m.pgn = pgnTpDt then tpOnDt m c r
  else if m.pgn = pgnAddressClaimed then acOnClaimMessage m c r
  else .ok (deliver m r)

/-- The end of a legacy standard frame: handle check, then the discard (40_codec.md R146). -/
def discardStandard (h : Nat) (s : State) : Host.Outcome State Fault Refusal :=
  onNode h s fun _ _ => .error (.discard .stdFrame)

/-- A single-frame send (R171): the status is what the transport reports. -/
def sendSingle (m : Message) : NodeOp := fun c r =>
  .ok ((transmit c m r).1, txStatus (transmit c m r).2)

/-- `SEND` after its handle check (R170). -/
def sendNode (m : Message) : NodeOp := fun c r =>
  if c.listenOnly then .ok (r, .errListenOnly)
  else if r.node.cannotClaim then .ok (r, .errCannotClaim)
  else if tpMaxLen < m.len then .ok (r, .errParam)
  else if m.len ≤ 8 then sendSingle { m with src := r.node.addr } c r
  else tpQueue { m with src := r.node.addr } c r

/-! ### Meanings -/

/-- STD_FRAME (40_codec.md R146, 30_encoding.md R107). -/
def execStdFrame (h : Nat) (_id : IdWord) (_data : List Byte) (s : State) : Host.Outcome State Fault Refusal :=
  discardStandard h s

/-- APP (R166). -/
def execApp (h : Nat) (prio : BitVec 3) (pgn : Pgn) (src dst : Byte) (data : List Byte) (s : State) :
    Host.Outcome State Fault Refusal :=
  receive h { prio := prio, pgn := pgn, src := src, dst := dst, data := data }
    (fun _ r => .ok (deliver { prio := prio, pgn := pgn, src := src, dst := dst, data := data } r)) s

/-- TX.APP_SINGLE (R171). -/
def execTxAppSingle (h : Nat) (msg : Message) (s : State) : Host.Outcome State Fault Refusal :=
  onNode h s (sendSingle msg)

/-- RXFRAME (R160): acceptance (40_codec.md R146), then the receive path. -/
def execRxframe (h : Nat) (f : Frame) (s : State) : Host.Outcome State Fault Refusal :=
  if f.id.getLsbD 31 then receive h (frameToMessage f) (dispatch (frameToMessage f)) s
  else discardStandard h s

/-- SEND (R170). -/
def execSend (h : Nat) (msg : Message) (s : State) : Host.Outcome State Fault Refusal :=
  onNode h s (sendNode msg)

end Sys2Proof.Machine
end

