-- ==== Sys2Proof/Machine/Registry.lean ====
section
/-! DEFINITION. The node registry (44_node_registry.md) and the meanings of RESET and INIT. -/

namespace Sys2Proof.Machine

/-- What INIT writes before `AC_Init` (R301), and the free values of the fields the spec leaves unspecified after
INIT (10_state.md R47, log entry 8); the buffer is not written. -/
def initNode (tick k : Nat) (n : Node) : Node :=
  { n with
    tickMs := tick, tpKind := .none, tpCts := false, tpTimer := 0
    tpRole := if Config.freeBit k then .sender else .receiver
    tpSeq := Config.freeByte k, tpNpkt := Config.freeByte (k + 1), tpPeer := Config.freeByte (k + 2)
    tpDest := Config.freeByte (k + 3), tpRem := (Config.freeLength k).val
    tpLen := (Config.freeLength (k + 1)).val, tpPgn := Config.freePgn k }

/-- End a successful INIT: the new record, one more node, the handle returned (R301). -/
def State.registered (s : State) (r : NodeRun) : State :=
  { s with nodes := s.nodes.set s.nodeCount r.node, nodeCount := s.nodeCount + 1, outputs := r.out,
           txDraws := r.draws, freeDraws := s.freeDraws + 4,
           result := some { status := .ok, handle := some s.nodeCount } }

/-- INIT (R301): address, tick, capacity, in this order. -/
def execInit (name : Name64) (pref : Byte) (tick : Nat) (s : State) : Host.Outcome State Fault Refusal :=
  if 253 < pref.toNat then .next (s.returned .errParam)
  else if tick = 0 ∨ 2 ^ s.cfg.tickW ≤ tick then .next (s.returned .errParam)
  else if s.nodeCount = s.cfg.maxNodes then .next (s.returned .errCapacity)
  else
    match s.nodes[s.nodeCount]? with
    | none => .fault .noRecord
    | some n =>
      .next (s.registered
        (acInit s.cfg name pref { node := initNode tick s.freeDraws n, out := [], draws := s.txDraws }))

/-- RESET (70_reset_and_hazards.md R360): no node, nothing emitted, nothing returned; the records, unspecified from
here on, stand at the model's reset values (10_state.md R46, log entry 9). -/
def execReset (s : State) : Host.Outcome State Fault Refusal :=
  .next { s with nodeCount := 0, nodes := List.replicate s.cfg.maxNodes Node.reset, outputs := [], result := none }

end Sys2Proof.Machine
end

