-- ==== Sys2Proof/Machine/Dispatch.lean ====
section
/-! DEFINITION. One arm per row of spec/opcode_table.json, in the table's order. -/

namespace Sys2Proof.Machine

def exec (i : Instr) (s : State) : Host.Outcome State Fault Refusal :=
  match i with
  -- received-frame classes
  | .stdFrame h id data => Sys2Proof.Machine.execStdFrame h id data s
  | .requestAc h r extra => Sys2Proof.Machine.execRequestAc h r extra s
  | .tpCmRts h r len npkt maxPackets pgn => Sys2Proof.Machine.execTpCmRts h r len npkt maxPackets pgn s
  | .tpCmCts h r packets nextSeq res3 res4 pgn => Sys2Proof.Machine.execTpCmCts h r packets nextSeq res3 res4 pgn s
  | .tpCmEoma h r len npkt res4 pgn => Sys2Proof.Machine.execTpCmEoma h r len npkt res4 pgn s
  | .tpCmBam h r len npkt res4 pgn => Sys2Proof.Machine.execTpCmBam h r len npkt res4 pgn s
  | .tpCmAbort h r reason res2 res3 res4 pgn => Sys2Proof.Machine.execTpCmAbort h r reason res2 res3 res4 pgn s
  | .tpCmOther h r control rest => Sys2Proof.Machine.execTpCmOther h r control rest s
  | .tpDt h r seq chunk => Sys2Proof.Machine.execTpDt h r seq chunk s
  | .addressClaimed h r name => Sys2Proof.Machine.execAddressClaimed h r name s
  | .app h prio pgn src dst data => Sys2Proof.Machine.execApp h prio pgn src dst data s
  -- transmitted-frame classes
  | .txAddressClaimed h => Sys2Proof.Machine.execTxAddressClaimed h s
  | .txCannotClaimAddress h => Sys2Proof.Machine.execTxCannotClaimAddress h s
  | .txTpCmBam h => Sys2Proof.Machine.execTxTpCmBam h s
  | .txTpCmRts h => Sys2Proof.Machine.execTxTpCmRts h s
  | .txTpCmCts h => Sys2Proof.Machine.execTxTpCmCts h s
  | .txTpCmEoma h => Sys2Proof.Machine.execTxTpCmEoma h s
  | .txTpCmAbortTimeout h => Sys2Proof.Machine.execTxTpCmAbortTimeout h s
  | .txTpCmAbortBusy h dst pgn => Sys2Proof.Machine.execTxTpCmAbortBusy h dst pgn s
  | .txTpDt h => Sys2Proof.Machine.execTxTpDt h s
  | .txAppSingle h msg => Sys2Proof.Machine.execTxAppSingle h msg s
  -- host operations
  | .reset => Sys2Proof.Machine.execReset s
  | .init name pref tick => Sys2Proof.Machine.execInit name pref tick s
  | .rxframe h f => Sys2Proof.Machine.execRxframe h f s
  | .tick h => Sys2Proof.Machine.execTick h s
  | .send h msg => Sys2Proof.Machine.execSend h msg s

end Sys2Proof.Machine
end

