-- ==== Sys2Proof/Machine/Step.lean ====
section
/-! DEFINITION. One step: the oldest pending operation, processed to completion (00_scope.md R13, 20_memory.md R70).
With none pending the block is idle and "every field survives" (60_exceptions.md R345). -/

namespace Sys2Proof.Machine

/-- One operation of the host, or an idle step. -/
def step (s : State) : Host.Outcome State Fault Refusal :=
  match s.pending with
  | [] => .next s
  | op :: rest =>
    if WellFormed s.cfg op.toInstr then exec op.toInstr { s with pending := rest }
    else .refused .notAnOperation

/-- `s` with the frame of a table word presented to handle 0 as the next operation (log entries 3 and 4). -/
def State.withFetchWord (s : State) (nbits w : Nat) : State :=
  { s with pending := .rxframe 0 (tableFrame (w % 2 ^ nbits)) :: s.pending }

end Sys2Proof.Machine
end

