-- ==== Sys2Proof/Safety.lean ====
section
/-! DEFINITION. What claims are stated in: the node an instruction acts on, a node in use, the state an operation
leaves behind, what the transmit gate lets out, and the invariants of 10_state.md R43. -/

namespace Sys2Proof.Machine

/-! ### Nodes in use -/

/-- The handle an instruction acts on; RESET and INIT take none (30_encoding.md R130). -/
def actingNode : Instr → Option Nat
  | .stdFrame h _ _ => some h
  | .requestAc h _ _ => some h
  | .tpCmRts h _ _ _ _ _ => some h
  | .tpCmCts h _ _ _ _ _ _ => some h
  | .tpCmEoma h _ _ _ _ _ => some h
  | .tpCmBam h _ _ _ _ _ => some h
  | .tpCmAbort h _ _ _ _ _ _ => some h
  | .tpCmOther h _ _ _ => some h
  | .tpDt h _ _ _ => some h
  | .addressClaimed h _ _ => some h
  | .app h _ _ _ _ _ => some h
  | .txAddressClaimed h => some h
  | .txCannotClaimAddress h => some h
  | .txTpCmBam h => some h
  | .txTpCmRts h => some h
  | .txTpCmCts h => some h
  | .txTpCmEoma h => some h
  | .txTpCmAbortTimeout h => some h
  | .txTpCmAbortBusy h _ _ => some h
  | .txTpDt h => some h
  | .txAppSingle h _ => some h
  | .reset => none
  | .init _ _ _ => none
  | .rxframe h _ => some h
  | .tick h => some h
  | .send h _ => some h

/-- `n` is the initialised record of handle `h` (10_state.md R20, R22). -/
def Live (s : State) (h : Nat) (n : Node) : Prop := h < s.nodeCount ∧ s.nodes[h]? = some n

/-- The node listens to frames for `dst`: no listen-only block (41_dispatcher.md R167), and the destination filter
passes (R161). -/
def Hears (s : State) (n : Node) (dst : Byte) : Prop :=
  s.cfg.listenOnly = false ∧ (dst = addrGlobal ∨ dst = n.addr)

/-- The node has a connection open in this kind and role (43_transport_protocol.md R231). -/
def Connected (n : Node) (kind : TpKind) (role : TpRole) : Prop := n.tpKind = kind ∧ n.tpRole = role

/-! ### What an operation leaves -/

/-- The state after an operation on node `h`: its record, its output list, the next draw, its status; nothing else. -/
def State.ends (s : State) (h : Nat) (n : Node) (evs : List OutEvent) (draws : Nat) (st : Status) : State :=
  { s with nodes := s.nodes.set h n, outputs := evs, txDraws := draws,
           result := some { status := st, handle := none } }

/-- The state after an operation that did nothing but return a status. -/
def State.unmoved (s : State) (st : Status) : State :=
  { s with outputs := [], result := some { status := st, handle := none } }

/-- What the gate of R175 lets out of a frame a node transmits. -/
def gatedFrame (c : Config) (n : Node) (t : TxForm) : List OutEvent :=
  if txBarred c n then [] else [.txFrame (encodeTx t)]

/-- How many `tx_ok` draws a gated frame takes. -/
def gatedDraws (c : Config) (n : Node) : Nat := if txBarred c n then 0 else 1

/-- The status of an operation that reports its one frame: draw `k`, or ERR_TX where the gate is shut. -/
def gatedStatus (c : Config) (n : Node) (k : Nat) : Status :=
  if txBarred c n then .errTx else if Config.txOk k then .ok else .errTx

/-- The node after `TP_Close` (43_transport_protocol.md R236). -/
def Node.closed (n : Node) : Node := { n with tpKind := .none, tpCts := false }

/-- The ABORT a node sends to its peer (R237). -/
def abortForm (n : Node) (reason : Byte) : TxForm := .abort n.tpPeer n.addr reason n.tpPgn

/-- The packet a sender is at lies in its buffer (43_transport_protocol.md R282). -/
def PacketFits (n : Node) : Prop := n.tpSeq ≠ 0#8 ∧ (n.tpSeq.toNat - 1) * 7 + min 7 n.tpRem ≤ tpMaxLen

/-- The node after `if S < 254 then Mark(n, S)` (42_address_claim.md R194). -/
def markSource (c : Config) (src : Byte) (n : Node) : Node := if src.toNat < 254 then mark c src.toNat n else n

/-- Whether an event hands a frame to the transport. -/
def isTxEvent : OutEvent → Bool
  | .txFrame _ => true
  | .deliver _ => false
  | .startupDelay _ => false

/-! ### The buffer as claims read it -/

/-- The bytes of `n.tp_buf` at offsets `off .. off + k − 1`. -/
def bufBytes (n : Node) (off k : Nat) : List Byte := (List.range k).map fun j => n.tpBuf.read (off + j)

/-- The Data-Transfer frame of the packet a sender is at: the next bytes of the buffer, padded with 0xFF (R233). -/
def dtForm (n : Node) : TxForm :=
  .dt n.tpPeer n.addr n.tpSeq
    (bufBytes n ((n.tpSeq.toNat - 1) * 7) (min 7 n.tpRem) ++ List.replicate (7 - min 7 n.tpRem) 0xFF#8)

/-- The reassembled message of a receiver (R239). -/
def reassembled (n : Node) : Message :=
  { prio := 7#3, pgn := n.tpPgn, src := n.tpPeer, dst := n.tpDest, data := bufBytes n 0 n.tpLen }

/-- The seven data bytes of packet `k + 1` of a payload: its next bytes, the last packet padded with 0xFF (R103). -/
def packetBytes (data : List Byte) (k : Nat) : List Byte :=
  (data.drop (7 * k)).take 7 ++ List.replicate (7 - ((data.drop (7 * k)).take 7).length) 0xFF#8

/-- The frame of a single-frame send of `msg` (41_dispatcher.md R171). -/
def singleFrame (n : Node) (msg : Message) : Frame := { id := encodeId msg.prio msg.pgn n.addr msg.dst, data := msg.data }

/-! ### The transmitted rows, each with the operation that emits it (30_encoding.md R113)

`n₀` is the record of the operation's node before it, `n` the record it leaves. -/

/-- The frames of RXFRAME of a frame that decodes to `m`. -/
inductive SentOnReceive (c : Config) (n₀ : Node) (m : Message) (n : Node) : Frame → Prop
  /-- SendClaim (42_address_claim.md R193), for a claim or a Request. -/
  | claim : m.pgn = pgnAddressClaimed ∨ isAcRequest c m.pgn m.data = true → n.cannotClaim = false →
      SentOnReceive c n₀ m n (encodeTx (.addressClaimed n.addr n.name))
  /-- EnterCannotClaim (R198), for a claim. -/
  | cannotClaim : m.pgn = pgnAddressClaimed → n.cannotClaim = true → n.addr = 254#8 →
      SentOnReceive c n₀ m n (encodeTx (.cannotClaimAddress n.name))
  /-- TP_BusyAbort (43_transport_protocol.md R238, R276): to the sender of the RTS or BAM, with the PGN it announced. -/
  | busyAbort (ctrl b1 b2 b3 b4 p0 p1 p2 : Byte) : m.pgn = pgnTpCm → m.data = [ctrl, b1, b2, b3, b4, p0, p1, p2] →
      ctrl = 16#8 ∨ ctrl = 32#8 → n₀.tpKind ≠ .none → n = n₀ →
      SentOnReceive c n₀ m n (encodeTx (.abort m.src n₀.addr c.abortReasonBusy (le24 p0 p1 p2)))
  /-- TP_Abort of a peer-to-peer reception on a sequence mismatch (R237, R281). -/
  | mismatchAbort : m.pgn = pgnTpDt → c.dtSeqMismatchAborts = true → Connected n₀ .p2p .receiver → n = n₀.closed →
      SentOnReceive c n₀ m n (encodeTx (abortForm n₀ c.abortReasonTimeout))

/-- The frames of TICK. -/
inductive SentOnTick (c : Config) (n₀ n : Node) : Frame → Prop
  /-- The CTS slot of R254. -/
  | cts : Connected n₀ .p2p .receiver → n₀.tpCts = false → n = { n₀ with tpCts := true, tpTimer := 0 } →
      SentOnTick c n₀ n (encodeTx (.cts n₀.tpPeer n₀.addr n₀.tpNpkt n₀.tpPgn))
  /-- The completion of R254. -/
  | eoma : Connected n₀ .p2p .receiver → n₀.tpCts = true → n₀.tpRem = 0 → n.tpKind = .none →
      SentOnTick c n₀ n (encodeTx (.eoma n₀.tpPeer n₀.addr (BitVec.ofNat 16 n₀.tpLen) n₀.tpNpkt n₀.tpPgn))
  /-- TP_Abort of a connection that timed out (R237, R252 to R254). -/
  | timeoutAbort : n₀.tpKind ≠ .none → n.tpKind = .none →
      SentOnTick c n₀ n (encodeTx (abortForm n₀ c.abortReasonTimeout))
  /-- SendDT (R233): the packet the sender was at. -/
  | data : n₀.tpKind ≠ .none → n₀.tpRole = .sender → 0 < n₀.tpRem → n.tpRem = n₀.tpRem - min 7 n₀.tpRem →
      n.tpSeq = n₀.tpSeq + 1#8 → SentOnTick c n₀ n (encodeTx (dtForm n₀))

/-- The frames of SEND of `msg`. -/
inductive SentOnSend (n₀ : Node) (msg : Message) (n : Node) : Frame → Prop
  /-- TP_Queue, broadcast (R234). -/
  | bam : n₀.tpKind = .none → 8 < msg.len → msg.dst = 255#8 → Connected n .bcast .sender →
      SentOnSend n₀ msg n
        (encodeTx (.bam n₀.addr (BitVec.ofNat 16 msg.len) (BitVec.ofNat 8 (packetCount msg.len)) msg.pgn))
  /-- TP_Queue, peer-to-peer (R234). -/
  | rts : n₀.tpKind = .none → 8 < msg.len → msg.dst ≠ 255#8 → Connected n .p2p .sender →
      SentOnSend n₀ msg n
        (encodeTx (.rts msg.dst n₀.addr (BitVec.ofNat 16 msg.len) (BitVec.ofNat 8 (packetCount msg.len)) msg.pgn))
  /-- The single-frame send (41_dispatcher.md R171). -/
  | single : msg.len ≤ 8 → n = n₀ → SentOnSend n₀ msg n (singleFrame n₀ msg)

/-- `f` is a frame the rules of `op` emit. -/
def SentBy (c : Config) (op : HostOp) (n₀ n : Node) (f : Frame) : Prop :=
  match op with
  | .reset => False
  | .init name pref _ => f = encodeTx (.addressClaimed pref name) ∧ n.addr = pref ∧ n.name = name
  | .rxframe _ rx => SentOnReceive c n₀ (frameToMessage rx) n f
  | .tick _ => SentOnTick c n₀ n f
  | .send _ msg => SentOnSend n₀ msg n f

/-- Instructions one after another, as far as they answer next states. -/
def execAll : List Instr → State → Host.Outcome State Fault Refusal
  | [], s => .next s
  | i :: rest, s =>
    match exec i s with
    | .next t => execAll rest t
    | .fault f => .fault f
    | .refused r => .refused r

/-- No cell lies outside the buffer (20_memory.md R62). -/
def Memory.bounded (m : Memory) : Bool := m.all fun cell => decide (cell.1 < tpMaxLen)

/-! ### Invariants (10_state.md R43) -/

/-- The number of false entries of `ac_table`. -/
def freeSlots (n : Node) : Nat := n.acTable.toList.count false

/-- The address-claim part of R43, with the ranges of R26 and R29. -/
structure AcInv (c : Config) (n : Node) : Prop where
  /-- I1. -/
  addr_le : n.addr.toNat ≤ 254
  /-- I1. -/
  addr_null : n.addr = addrNull ↔ n.cannotClaim = true
  /-- I2. -/
  self_occupied : n.cannotClaim = false → n.occupied n.addr.toNat = true
  /-- I3. -/
  free_count : c.acDecrementGuarded = true → n.acFree = freeSlots n
  /-- R29: `ac_free` is 0..253. -/
  free_le : n.acFree ≤ 253
  /-- R26: `tick_ms` is 1..2^TICK_W − 1. -/
  tick_pos : 0 < n.tickMs
  /-- R26. -/
  tick_lt : n.tickMs < 2 ^ c.tickW

/-- The transport part of R43, with what R42 and the table of 43_transport_protocol.md R231 add. -/
structure TpInv (n : Node) : Prop where
  /-- I4. -/
  cts_p2p : n.tpCts = true → n.tpKind = .p2p
  /-- I5. -/
  rem_le : n.tpKind ≠ .none → n.tpRem ≤ n.tpLen ∧ n.tpLen ≤ tpMaxLen
  /-- I5 with `k = tp_seq − 1`: `7k` bytes have been sent or accepted. -/
  seq_rem : n.tpKind ≠ .none → 0 < n.tpRem → n.tpSeq ≠ 0#8 ∧ n.tpRem + 7 * (n.tpSeq.toNat - 1) = n.tpLen
  /-- I6. -/
  bam_peer : n.tpKind = .bcast → n.tpRole = .sender → n.tpPeer = addrGlobal
  /-- R231: a BAM sender with nothing left does not persist. -/
  bam_left : n.tpKind = .bcast → n.tpRole = .sender → 0 < n.tpRem
  /-- R231: a sender waiting for its CTS has everything left. -/
  wait_left : n.tpKind = .p2p → n.tpRole = .sender → n.tpCts = false → 0 < n.tpRem
  /-- R42: every TICK that finds the timer at 1250 or more closes the connection or resets it. -/
  timer_lt : n.tpKind ≠ .none → n.tpTimer < t1Ms

/-- What holds of every initialised node after every operation (R43). -/
structure NodeInv (c : Config) (n : Node) : Prop where
  ac : AcInv c n
  tp : TpInv n

/-- A buffer in canonical form, within its 1785 offsets. -/
def BufInv (n : Node) : Prop := n.tpBuf.wf = true ∧ n.tpBuf.bounded = true

/-- What every step keeps: MAX_NODES records (10_state.md R20), `node_count` at most MAX_NODES (R22), every buffer
in form, every initialised record as `NodeInv` says. -/
structure StateInv (s : State) : Prop where
  nodes_length : s.nodes.length = s.cfg.maxNodes
  count_le : s.nodeCount ≤ s.cfg.maxNodes
  bufs : ∀ n ∈ s.nodes, BufInv n
  live : ∀ h n, Live s h n → NodeInv s.cfg n

end Sys2Proof.Machine
end

