-- ==== Sys2Proof/Certificates/Slice0/Obligations.lean ====
section
/-! DEFINITION. The statements for the provers. Each docstring names the rule it formalises, and the log entries of
the model's own choices it rests on. A claim holds whatever the free values are. -/

section
open Sys2Proof Sys2Proof.Machine

/-! ### The codec -/

/-- R140, R93: every identifier word's fields, as numbers. -/
def Obligations.DecodeReadsIdFields : Prop :=
  ∀ id : IdWord,
    (decodeId id).prio.toNat = id.toNat / 2 ^ 26 % 8 ∧
    (decodeId id).src.toNat = id.toNat % 256 ∧
    if id.toNat / 65536 % 256 < 240 then
      (decodeId id).pgn.toNat = id.toNat / 2 ^ 24 % 2 * 65536 + id.toNat / 65536 % 256 * 256 ∧
      (decodeId id).dst.toNat = id.toNat / 256 % 256
    else
      (decodeId id).pgn.toNat =
        id.toNat / 2 ^ 24 % 2 * 65536 + id.toNat / 65536 % 256 * 256 + id.toNat / 256 % 256 ∧
      (decodeId id).dst = 255#8

/-- R141: every identifier word Encode writes, as a number; bits 30, 29 and 25 are 0. -/
def Obligations.EncodeWritesIdFields : Prop :=
  ∀ (prio : BitVec 3) (pgn : Pgn) (src dst : Byte),
    (encodeId prio pgn src dst).toNat =
      2 ^ 31 + prio.toNat * 2 ^ 26 + pgn.toNat / 65536 % 2 * 2 ^ 24 + pgn.toNat / 256 % 256 * 65536 +
        (if pgn.toNat / 256 % 256 < 240 then dst.toNat else pgn.toNat % 256) * 256 + src.toNat

/-- R142, its three parts: a valid tuple comes back; a word comes back with bits 30, 29, 25 cleared and bit 31 set;
an invalid tuple comes back with the ignored fields cleared or replaced. -/
def Obligations.CodecRoundTrip : Prop :=
  (∀ (prio : BitVec 3) (pgn : Pgn) (src dst : Byte),
    pgn.toNat < 2 ^ 17 →
    (if pgn.toNat / 256 % 256 < 240 then pgn.toNat % 256 = 0 else dst = 255#8) →
    decodeId (encodeId prio pgn src dst) = { prio := prio, pgn := pgn, src := src, dst := dst }) ∧
  (∀ w : IdWord,
    encodeId (decodeId w).prio (decodeId w).pgn (decodeId w).src (decodeId w).dst =
      (w &&& 0x1DFFFFFF#32) ||| 0x80000000#32) ∧
  (∀ (prio : BitVec 3) (pgn : Pgn) (src dst : Byte),
    decodeId (encodeId prio pgn src dst) =
      if pgn.toNat / 256 % 256 < 240 then { prio := prio, pgn := pgn &&& 0x01FF00#24, src := src, dst := dst }
      else { prio := prio, pgn := pgn &&& 0x01FFFF#24, src := src, dst := 255#8 })

/-! ### Decoder and encoder -/

/-- Encoding loses nothing: a well-formed class is read back from its frame, every field at every value. -/
def Obligations.DecodeOfEncode : Prop :=
  ∀ (c : Config) (i : Instr) (f : Frame), WellFormed c i = true → encode c i = some f →
    ∃ h, actingNode i = some h ∧ decode c h f = .ok i

/-- The other direction: what is decoded is well-formed, acts on the handle given, and is encoded as the same data
under the same identifier, but for the bits Decode does not read (R105); a standard frame keeps its identifier. -/
def Obligations.EncodeOfDecode : Prop :=
  ∀ (c : Config) (h : Nat) (f : Frame) (i : Instr), decode c h f = .ok i →
    WellFormed c i = true ∧ actingNode i = some h ∧
    encode c i = some { id := if f.id.getLsbD 31 then (f.id &&& 0x1DFFFFFF#32) ||| 0x80000000#32 else f.id
                        data := f.data }

/-- R111's match and mask: the classes told apart by identifier bits 31 and 24:16, in the dispatcher's order, for the
default Request PGN; R112 for the sub-class by the first data byte. -/
def Obligations.ClassesByMatchAndMask : Prop :=
  ∀ (c : Config) (h : Nat) (f : Frame), c.pgnRequest = 0x00EA00#24 → f.data.length ≤ 8 →
    let r : Routing := { prio := f.id.extractLsb' 26 3, dst := f.id.extractLsb' 8 8, src := f.id.extractLsb' 0 8 }
    let w := f.id &&& 0x81FF0000#32
    (w = 0x80EA0000#32 → ∀ extra, f.data = [0x00#8, 0xEE#8, 0x00#8] ++ extra →
      decode c h f = .ok (.requestAc h r extra)) ∧
    (w = 0x80EC0000#32 → ∀ b1 b2 b3 b4 b5 b6 b7 : Byte,
      (f.data = [16#8, b1, b2, b3, b4, b5, b6, b7] →
        decode c h f = .ok (.tpCmRts h r (le16 b1 b2) b3 b4 (le24 b5 b6 b7))) ∧
      (f.data = [17#8, b1, b2, b3, b4, b5, b6, b7] →
        decode c h f = .ok (.tpCmCts h r b1 b2 b3 b4 (le24 b5 b6 b7))) ∧
      (f.data = [19#8, b1, b2, b3, b4, b5, b6, b7] →
        decode c h f = .ok (.tpCmEoma h r (le16 b1 b2) b3 b4 (le24 b5 b6 b7))) ∧
      (f.data = [32#8, b1, b2, b3, b4, b5, b6, b7] →
        decode c h f = .ok (.tpCmBam h r (le16 b1 b2) b3 b4 (le24 b5 b6 b7))) ∧
      (f.data = [255#8, b1, b2, b3, b4, b5, b6, b7] →
        decode c h f = .ok (.tpCmAbort h r b1 b2 b3 b4 (le24 b5 b6 b7))) ∧
      (∀ k : Byte, k ≠ 16#8 → k ≠ 17#8 → k ≠ 19#8 → k ≠ 32#8 → k ≠ 255#8 →
        f.data = [k, b1, b2, b3, b4, b5, b6, b7] →
        decode c h f = .ok (.tpCmOther h r k [b1, b2, b3, b4, b5, b6, b7]))) ∧
    (w = 0x80EB0000#32 → ∀ k b1 b2 b3 b4 b5 b6 b7 : Byte, f.data = [k, b1, b2, b3, b4, b5, b6, b7] →
      decode c h f = .ok (.tpDt h r k [b1, b2, b3, b4, b5, b6, b7])) ∧
    (w = 0x80EE0000#32 → ∀ b0 b1 b2 b3 b4 b5 b6 b7 : Byte, f.data = [b0, b1, b2, b3, b4, b5, b6, b7] →
      decode c h f = .ok (.addressClaimed h r (le64 b0 b1 b2 b3 b4 b5 b6 b7))) ∧
    (w ≠ 0x80EA0000#32 ∨ (¬∃ extra, f.data = [0x00#8, 0xEE#8, 0x00#8] ++ extra) →
      w ≠ 0x80EC0000#32 → w ≠ 0x80EB0000#32 → w ≠ 0x80EE0000#32 → f.id.getLsbD 31 = true →
      decode c h f = .ok (.app h (decodeId f.id).prio (decodeId f.id).pgn (decodeId f.id).src (decodeId f.id).dst
        f.data)) ∧
    (f.id.getLsbD 31 = false → decode c h f = .ok (.stdFrame h f.id f.data))

/-- Words of the table's received rows written out from R91 and R95 to R103 are read as their rows. -/
def Obligations.RowWordsDecode : Prop :=
  decode Config.default 0 { id := 0x98EAFF21#32, data := [0x00#8, 0xEE#8, 0x00#8] } =
    .ok (.requestAc 0 { prio := 6#3, dst := 0xFF#8, src := 0x21#8 } []) ∧
  decode Config.default 0
      { id := 0x9CEC9080#32, data := [0x10#8, 0x0A#8, 0x00#8, 0x02#8, 0xFF#8, 0xB0#8, 0xFE#8, 0x00#8] } =
    .ok (.tpCmRts 0 { prio := 7#3, dst := 0x90#8, src := 0x80#8 } 10#16 2#8 0xFF#8 0x00FEB0#24) ∧
  decode Config.default 0
      { id := 0x9CEB9080#32, data := [0x01#8, 0x01#8, 0x02#8, 0x03#8, 0x04#8, 0x05#8, 0x06#8, 0x07#8] } =
    .ok (.tpDt 0 { prio := 7#3, dst := 0x90#8, src := 0x80#8 } 1#8 [1#8, 2#8, 3#8, 4#8, 5#8, 6#8, 7#8]) ∧
  decode Config.default 0
      { id := 0x98EEFF21#32, data := [0x01#8, 0x00#8, 0x00#8, 0x00#8, 0x00#8, 0x00#8, 0x00#8, 0x00#8] } =
    .ok (.addressClaimed 0 { prio := 6#3, dst := 0xFF#8, src := 0x21#8 } 1#64) ∧
  decode Config.default 0 { id := 0x8CF004FE#32, data := [0xAA#8] } =
    .ok (.app 0 3#3 0x00F004#24 0xFE#8 0xFF#8 [0xAA#8]) ∧
  decode Config.default 0 { id := 0x18EBF900#32, data := [] } = .ok (.stdFrame 0 0x18EBF900#32 [])

/-! ### The step -/

/-- One step runs the oldest pending operation, and nothing else happens (R13, R345): a frame that decodes to a row
runs that row; with no operation pending, no change. The pending list is the model's own (log entry 3), that a row
means the whole receive path is log entry 1, the refusal log entry 14. -/
def Obligations.StepRunsThePendingOperation : Prop :=
  (∀ (s : State) (op : HostOp) (rest : List HostOp), s.pending = op :: rest →
    (WellFormed s.cfg op.toInstr = true → step s = exec op.toInstr { s with pending := rest }) ∧
    (WellFormed s.cfg op.toInstr = false → step s = .refused .notAnOperation)) ∧
  (∀ (s : State) (h : Nat) (f : Frame) (i : Instr) (rest : List HostOp),
    s.pending = .rxframe h f :: rest → decode s.cfg h f = .ok i →
    step s = exec i { s with pending := rest }) ∧
  (∀ s : State, s.pending = [] → step s = .next s)

/-- R160 against R111 and R112: routing a received frame is running the row it decodes to, whatever the state
(that a row means the whole receive path is log entry 1). -/
def Obligations.ReceivedFrameRunsItsRow : Prop :=
  ∀ (s : State) (h : Nat) (f : Frame) (i : Instr), decode s.cfg h f = .ok i → exec (.rxframe h f) s = exec i s

/-! ### The receive path -/

/-- R303: an operation on a handle of no node answers ERR_HANDLE and does nothing: RXFRAME, TICK, SEND, and every row
of the table that carries a handle (log entries 1, 2). -/
def Obligations.EveryHandleIsChecked : Prop :=
  ∀ (s : State) (i : Instr) (h : Nat), actingNode i = some h → s.nodeCount ≤ h →
    exec i s = .next (s.unmoved .errHandle)

/-- R107: a frame with bit 31 clear is discarded, listen-only or not, as a frame and as a row. -/
def Obligations.StandardFrameDiscarded : Prop :=
  ∀ (s : State) (h : Nat) (n : Node), Live s h n →
    (∀ f : Frame, f.id.getLsbD 31 = false → exec (.rxframe h f) s = .next (s.unmoved .ok)) ∧
    ∀ (id : IdWord) (data : List Byte), exec (.stdFrame h id data) s = .next (s.unmoved .ok)

/-- R161: outside listen-only a frame passes when its destination is global or the node's address as it is now, and
is then dispatched; any other changes nothing and emits nothing, as a frame and as a row (log entry 1). -/
def Obligations.DestinationFilter : Prop :=
  ∀ (s : State) (h : Nat) (n : Node) (f : Frame), Live s h n → s.cfg.listenOnly = false → f.id.getLsbD 31 = true →
    ((decodeId f.id).dst ≠ 255#8 → (decodeId f.id).dst ≠ n.addr →
      exec (.rxframe h f) s = .next (s.unmoved .ok) ∧
      ∀ i : Instr, WellFormed s.cfg i = true → encode s.cfg i = some f → actingNode i = some h →
        exec i s = .next (s.unmoved .ok)) ∧
    ((decodeId f.id).dst = 255#8 ∨ (decodeId f.id).dst = n.addr →
      exec (.rxframe h f) s = onNode h s fun c r => withStatus .ok (dispatch (frameToMessage f) c r))

/-- R167: a listen-only block delivers every extended frame, as a frame and as a row, and does nothing else; and no
operation of it hands a frame to the transport, in any state. -/
def Obligations.ListenOnlyDeliversAndIsSilent : Prop :=
  (∀ (s : State) (h : Nat) (n : Node) (f : Frame), Live s h n → s.cfg.listenOnly = true → f.id.getLsbD 31 = true →
    exec (.rxframe h f) s = .next (s.ends h n [.deliver (frameToMessage f)] s.txDraws .ok) ∧
    ∀ i : Instr, WellFormed s.cfg i = true → encode s.cfg i = some f → actingNode i = some h →
      exec i s = .next (s.ends h n [.deliver (frameToMessage f)] s.txDraws .ok)) ∧
  ∀ (s t : State) (op : HostOp), s.cfg.listenOnly = true → exec op.toInstr s = .next t →
    (∀ e ∈ t.outputs, isTxEvent e = false) ∧ t.txDraws = s.txDraws

/-- R166: a frame no earlier rule takes is delivered as decoded, by a Cannot-Claim node too (R177). -/
def Obligations.ApplicationFrameDelivered : Prop :=
  ∀ (s : State) (h : Nat) (n : Node), Live s h n →
    (∀ f : Frame, Hears s n (decodeId f.id).dst → f.id.getLsbD 31 = true →
      isAcRequest s.cfg (decodeId f.id).pgn f.data = false → (decodeId f.id).pgn ≠ 0x00EC00#24 →
      (decodeId f.id).pgn ≠ 0x00EB00#24 → (decodeId f.id).pgn ≠ 0x00EE00#24 →
      exec (.rxframe h f) s = .next (s.ends h n
        [.deliver { prio := (decodeId f.id).prio, pgn := (decodeId f.id).pgn, src := (decodeId f.id).src,
                    dst := (decodeId f.id).dst, data := f.data }] s.txDraws .ok)) ∧
    ∀ (prio : BitVec 3) (pgn : Pgn) (src dst : Byte) (data : List Byte), Hears s n dst →
      exec (.app h prio pgn src dst data) s = .next (s.ends h n
        [.deliver { prio := prio, pgn := pgn, src := src, dst := dst, data := data }] s.txDraws .ok)

/-- R108: TP.CM, TP.DT and Address-Claimed frames of another length than 8 change nothing; a Request shorter than
three bytes, and an application frame of any length, is class APP. -/
def Obligations.LengthRules : Prop :=
  ∀ (s : State) (h : Nat) (n : Node) (f : Frame), Live s h n → f.id.getLsbD 31 = true →
    (Hears s n (decodeId f.id).dst → isAcRequest s.cfg (decodeId f.id).pgn f.data = false → f.data.length ≠ 8 →
      ((decodeId f.id).pgn = 0x00EC00#24 ∨ (decodeId f.id).pgn = 0x00EB00#24 ∨ (decodeId f.id).pgn = 0x00EE00#24) →
      exec (.rxframe h f) s = .next (s.unmoved .ok)) ∧
    (f.data.length ≤ 8 → (decodeId f.id).pgn ≠ 0x00EC00#24 → (decodeId f.id).pgn ≠ 0x00EB00#24 →
      (decodeId f.id).pgn ≠ 0x00EE00#24 → (decodeId f.id).pgn ≠ s.cfg.pgnRequest ∨ f.data.length < 3 →
      decode s.cfg h f =
        .ok (.app h (decodeId f.id).prio (decodeId f.id).pgn (decodeId f.id).src (decodeId f.id).dst f.data))

/-! ### The address-claim engine -/

/-- R196: what Mark does to the table and the counter, guarded and not; nothing else changes. That the guarded counter
stays 0 where it is 0 with the slot free is the model's choice (log entry 12). -/
def Obligations.MarkAccounting : Prop :=
  ∀ (c : Config) (n : Node) (a : Nat), a < 254 →
    (∀ b, b < 254 → (mark c a n).occupied b = (decide (a = b) || n.occupied b)) ∧
    (c.acDecrementGuarded = true → (mark c a n).acFree = if n.occupied a then n.acFree else n.acFree - 1) ∧
    (c.acDecrementGuarded = false → (mark c a n).acFree = n.acFree - 1) ∧
    { mark c a n with acTable := n.acTable, acFree := n.acFree } = n

/-- R197: UpdateAddress finds the first free address after the current one, modulo 254, within 253 steps, moves there
and marks it; it fails, moving nothing, exactly when the counter is 0 or every candidate is occupied. -/
def Obligations.UpdateAddressFirstFree : Prop :=
  ∀ (c : Config) (n : Node),
    (updateAddress c n = none ↔ n.acFree = 0 ∨ ∀ i < 253, n.occupied ((n.addr.toNat + 1 + i) % 254) = true) ∧
    ∀ j < 253, n.acFree ≠ 0 → n.occupied ((n.addr.toNat + 1 + j) % 254) = false →
      (∀ i < j, n.occupied ((n.addr.toNat + 1 + i) % 254) = true) →
      updateAddress c n =
        some (mark c ((n.addr.toNat + 1 + j) % 254) { n with addr := BitVec.ofNat 8 ((n.addr.toNat + 1 + j) % 254) })

/-- R194: a claim from another address marks the table, for sources 0..253, and transmits nothing. -/
def Obligations.ClaimFromAnotherAddress : Prop :=
  ∀ (s : State) (h : Nat) (n : Node) (r : Routing) (name : Name64), Live s h n → Hears s n r.dst →
    n.cannotClaim = false → r.src ≠ n.addr →
    exec (.addressClaimed h r name) s = .next (s.ends h (markSource s.cfg r.src n) [] s.txDraws .ok)

/-- R194, R195: our address claimed by a NAME that is not lower: we keep the address and claim it again. -/
def Obligations.ContentionKept : Prop :=
  ∀ (s : State) (h : Nat) (n : Node) (r : Routing) (name : Name64), Live s h n → Hears s n r.dst →
    n.cannotClaim = false → r.src = n.addr → n.name.toNat ≤ name.toNat →
    exec (.addressClaimed h r name) s =
      .next (s.ends h (markSource s.cfg r.src n) [.txFrame (encodeTx (.addressClaimed n.addr n.name))]
        (s.txDraws + 1) .ok)

/-- R194, R197: our address claimed by a lower NAME while an address is free: the connection closes, the node moves
to the first free address and claims it. -/
def Obligations.ContentionLostMoves : Prop :=
  ∀ (s : State) (h : Nat) (n : Node) (r : Routing) (name : Name64) (j : Nat), Live s h n → Hears s n r.dst →
    n.cannotClaim = false → r.src = n.addr → name.toNat < n.name.toNat → n.acFree ≠ 0 → j < 253 →
    n.occupied ((n.addr.toNat + 1 + j) % 254) = false →
    (∀ i < j, n.occupied ((n.addr.toNat + 1 + i) % 254) = true) →
    let a : Byte := BitVec.ofNat 8 ((n.addr.toNat + 1 + j) % 254)
    exec (.addressClaimed h r name) s =
      .next (s.ends h
        (markSource s.cfg r.src
          (mark s.cfg a.toNat { n with tpKind := .none, tpCts := false, addr := a }))
        [.txFrame (encodeTx (.addressClaimed a n.name))] (s.txDraws + 1) .ok)

/-- R194, R198: the same with no address free: the connection closes, the node takes the null address, says so and
stops transmitting. -/
def Obligations.ContentionLostCannotClaim : Prop :=
  ∀ (s : State) (h : Nat) (n : Node) (r : Routing) (name : Name64), Live s h n → Hears s n r.dst →
    n.cannotClaim = false → r.src = n.addr → name.toNat < n.name.toNat →
    (n.acFree = 0 ∨ ∀ i < 253, n.occupied ((n.addr.toNat + 1 + i) % 254) = true) →
    exec (.addressClaimed h r name) s =
      .next (s.ends h
        (markSource s.cfg r.src { n with tpKind := .none, tpCts := false, addr := 254#8, cannotClaim := true })
        [.txFrame (encodeTx (.cannotClaimAddress n.name))] (s.txDraws + 1) .ok)

/-- R195: a Claimed node retains its address if and only if the claimed NAME is not lower, as unsigned numbers, and
then claims it again without a search. It attempts to reclaim, by UpdateAddress on the closed record, if and only if
the claimed NAME is lower: it claims the address found, or, with none found, says that it cannot claim one. -/
def Obligations.ArbitrationLaw : Prop :=
  ∀ (s t : State) (h : Nat) (n n' : Node) (r : Routing) (name : Name64), Live s h n → Hears s n r.dst →
    n.cannotClaim = false → n.addr.toNat ≤ 253 → r.src = n.addr →
    exec (.addressClaimed h r name) s = .next t → Live t h n' →
    (n'.addr = n.addr ↔ n.name.toNat ≤ name.toNat) ∧
    (n.name.toNat ≤ name.toNat →
      n' = markSource s.cfg r.src n ∧ t.outputs = [.txFrame (encodeTx (.addressClaimed n.addr n.name))]) ∧
    (name.toNat < n.name.toNat → ∀ m, updateAddress s.cfg n.closed = some m →
      n' = markSource s.cfg r.src m ∧ t.outputs = [.txFrame (encodeTx (.addressClaimed m.addr n.name))]) ∧
    (name.toNat < n.name.toNat → updateAddress s.cfg n.closed = none →
      n' = markSource s.cfg r.src { n.closed with addr := 254#8, cannotClaim := true } ∧
      t.outputs = [.txFrame (encodeTx (.cannotClaimAddress n.name))])

/-- R199, R200: a request clears the table but for the node itself and repeats the claim; a Cannot-Claim node ignores
it. The bytes after the third are not read. -/
def Obligations.RequestReannounces : Prop :=
  ∀ (s : State) (h : Nat) (n : Node) (r : Routing) (extra : List Byte), Live s h n → Hears s n r.dst →
    (n.cannotClaim = true → exec (.requestAc h r extra) s = .next (s.unmoved .ok)) ∧
    (n.cannotClaim = false →
      ∃ table : Vector Bool 254, (∀ a (ha : a < 254), table[a] = decide (a = n.addr.toNat)) ∧
        exec (.requestAc h r extra) s =
          .next (s.ends h { n with acTable := table, acFree := 253 }
            [.txFrame (encodeTx (.addressClaimed n.addr n.name))] (s.txDraws + 1) .ok))

/-- R201, R366: a Cannot-Claim node ignores claims and requests; no operation but RESET brings it out of Cannot-Claim
or moves it, and while that lasts none on it hands a frame to the transport. -/
def Obligations.CannotClaimIsTerminal : Prop :=
  (∀ (s : State) (h : Nat) (n : Node) (r : Routing), Live s h n → Hears s n r.dst → n.cannotClaim = true →
    (∀ name, exec (.addressClaimed h r name) s = .next (s.unmoved .ok)) ∧
    ∀ extra, exec (.requestAc h r extra) s = .next (s.unmoved .ok)) ∧
  ∀ (s t : State) (h : Nat) (n : Node) (op : HostOp), Live s h n → n.cannotClaim = true → op ≠ .reset →
    exec op.toInstr s = .next t →
    (∃ n', Live t h n' ∧ n'.cannotClaim = true ∧ n'.addr = n.addr ∧ n'.acTable = n.acTable ∧ n'.acFree = n.acFree) ∧
    (actingNode op.toInstr = some h → ∀ e ∈ t.outputs, isTxEvent e = false)

/-- TX.ADDRESS_CLAIMED is SendClaim (R193), behind the transmit gate of R175, and changes nothing else.
TX.CANNOT_CLAIM_ADDRESS is EnterCannotClaim (R198): its frame passes the gate, the flag is set after it. That the rows
stand for these branches, and their status, are log entry 2. -/
def Obligations.TxClaimRowsSend : Prop :=
  ∀ (s : State) (h : Nat) (n : Node), Live s h n →
    exec (.txAddressClaimed h) s =
      .next (s.ends h n (gatedFrame s.cfg n (.addressClaimed n.addr n.name)) (s.txDraws + gatedDraws s.cfg n) .ok) ∧
    exec (.txCannotClaimAddress h) s =
      .next (s.ends h { n with addr := 254#8, cannotClaim := true }
        [.txFrame { id := 0x98EEFFFE#32, data := nameBytes n.name }] (s.txDraws + 1) .ok)

/-! ### Opening a connection -/

/-- R272, R276: an RTS at a node with a connection is answered with ABORT(Busy) carrying the announced PGN; else one
over 1785 bytes is discarded; else it opens a peer-to-peer reception. -/
def Obligations.RtsReceived : Prop :=
  ∀ (s : State) (h : Nat) (n : Node) (r : Routing) (len : BitVec 16) (npkt maxPackets : Byte) (pgn : Pgn),
    Live s h n → Hears s n r.dst →
    exec (.tpCmRts h r len npkt maxPackets pgn) s =
      if n.tpKind ≠ .none then
        .next (s.ends h n (gatedFrame s.cfg n (.abort r.src n.addr s.cfg.abortReasonBusy pgn))
          (s.txDraws + gatedDraws s.cfg n) .ok)
      else if 1785 < len.toNat then .next (s.unmoved .ok)
      else
        .next (s.ends h
          { n with tpKind := .p2p, tpRole := .receiver, tpCts := false, tpPgn := pgn, tpLen := len.toNat,
                   tpRem := len.toNat, tpNpkt := npkt, tpPeer := r.src, tpDest := r.dst, tpSeq := 1#8, tpTimer := 0 }
          [] s.txDraws .ok)

/-- R274, R276: the same of a BAM, whose connection is a broadcast for the global address whatever address the frame
was sent to. -/
def Obligations.BamReceived : Prop :=
  ∀ (s : State) (h : Nat) (n : Node) (r : Routing) (len : BitVec 16) (npkt res4 : Byte) (pgn : Pgn),
    Live s h n → Hears s n r.dst →
    exec (.tpCmBam h r len npkt res4 pgn) s =
      if n.tpKind ≠ .none then
        .next (s.ends h n (gatedFrame s.cfg n (.abort r.src n.addr s.cfg.abortReasonBusy pgn))
          (s.txDraws + gatedDraws s.cfg n) .ok)
      else if 1785 < len.toNat then .next (s.unmoved .ok)
      else
        .next (s.ends h
          { n with tpKind := .bcast, tpRole := .receiver, tpCts := false, tpPgn := pgn, tpLen := len.toNat,
                   tpRem := len.toNat, tpNpkt := npkt, tpPeer := r.src, tpDest := 255#8, tpSeq := 1#8, tpTimer := 0 }
          [] s.txDraws .ok)

/-- R271: any CTS is full clearance for a peer-to-peer sender, and starts its timer anew the first time; elsewhere it
is ignored. No byte after the control byte is read. -/
def Obligations.CtsReceived : Prop :=
  ∀ (s : State) (h : Nat) (n : Node) (r : Routing) (packets nextSeq res3 res4 : Byte) (pgn : Pgn),
    Live s h n → Hears s n r.dst →
    exec (.tpCmCts h r packets nextSeq res3 res4 pgn) s =
      if n.tpKind = .p2p ∧ n.tpRole = .sender then
        .next (s.ends h { n with tpCts := true, tpTimer := if n.tpCts then n.tpTimer else 0 } [] s.txDraws .ok)
      else .next (s.unmoved .ok)

/-- R273: an EOMA closes a peer-to-peer sender's connection when its PGN matches and nothing is left to send. -/
def Obligations.EomaReceived : Prop :=
  ∀ (s : State) (h : Nat) (n : Node) (r : Routing) (len : BitVec 16) (npkt res4 : Byte) (pgn : Pgn),
    Live s h n → Hears s n r.dst →
    exec (.tpCmEoma h r len npkt res4 pgn) s =
      if n.tpKind = .p2p ∧ n.tpRole = .sender ∧ pgn = n.tpPgn ∧ n.tpRem = 0 then
        .next (s.ends h { n with tpKind := .none, tpCts := false } [] s.txDraws .ok)
      else .next (s.unmoved .ok)

/-- R275: an ABORT closes the connection of the same PGN, whatever its kind and role; nothing is sent or delivered. -/
def Obligations.AbortReceived : Prop :=
  ∀ (s : State) (h : Nat) (n : Node) (r : Routing) (reason res2 res3 res4 : Byte) (pgn : Pgn),
    Live s h n → Hears s n r.dst →
    exec (.tpCmAbort h r reason res2 res3 res4 pgn) s =
      if n.tpKind ≠ .none ∧ pgn = n.tpPgn then
        .next (s.ends h { n with tpKind := .none, tpCts := false } [] s.txDraws .ok)
      else .next (s.unmoved .ok)

/-- R277, R106: another control byte changes nothing and emits nothing, as a row and as a frame. -/
def Obligations.OtherControlIgnored : Prop :=
  ∀ (s : State) (h : Nat) (n : Node) (r : Routing) (control : Byte) (rest : List Byte),
    Live s h n → Hears s n r.dst → rest.length = 7 → control ≠ 16#8 → control ≠ 17#8 → control ≠ 19#8 →
    control ≠ 32#8 → control ≠ 255#8 →
    exec (.tpCmOther h r control rest) s = .next (s.unmoved .ok) ∧
    (isAcRequest s.cfg 0x00EC00#24 (control :: rest) = false →
      exec (.rxframe h { id := encodeId r.prio 0x00EC00#24 r.src r.dst, data := control :: rest }) s =
        .next (s.unmoved .ok))

/-! ### Data transfer -/

/-- R280, R235: the expected packet of a reception with bytes left is stored at its offset, no byte past the message,
every other byte of the buffer unchanged, and the timer starts anew. -/
def Obligations.DataFrameAccepted : Prop :=
  ∀ (s : State) (h : Nat) (n : Node) (r : Routing) (seq : Byte) (chunk : List Byte), Live s h n → Hears s n r.dst →
    n.tpKind ≠ .none → n.tpRole = .receiver → 0 < n.tpRem → seq = n.tpSeq → chunk.length = 7 → PacketFits n →
    n.tpBuf.wf = true →
    ∃ buf : Memory, buf.wf = true ∧
      (∀ k, buf.read k =
        if (n.tpSeq.toNat - 1) * 7 ≤ k ∧ k < (n.tpSeq.toNat - 1) * 7 + min 7 n.tpRem then
          chunk.getD (k - (n.tpSeq.toNat - 1) * 7) 0#8
        else n.tpBuf.read k) ∧
      exec (.tpDt h r seq chunk) s =
        .next (s.ends h { n with tpBuf := buf, tpRem := n.tpRem - min 7 n.tpRem, tpSeq := n.tpSeq + 1#8, tpTimer := 0 }
          [] s.txDraws .ok)

/-- R280, R281: a data frame with no connection, at a sender, or after the last packet, changes nothing. One out of
sequence is ignored, timer and all; with the parameter true it aborts a peer-to-peer reception and closes a broadcast
one. -/
def Obligations.DataFrameNotAccepted : Prop :=
  ∀ (s : State) (h : Nat) (n : Node) (r : Routing) (seq : Byte) (chunk : List Byte), Live s h n → Hears s n r.dst →
    (n.tpKind = .none ∨ n.tpRole = .sender ∨ n.tpRem = 0 →
      exec (.tpDt h r seq chunk) s = .next (s.unmoved .ok)) ∧
    (n.tpKind ≠ .none → n.tpRole = .receiver → 0 < n.tpRem → seq ≠ n.tpSeq →
      exec (.tpDt h r seq chunk) s =
        if s.cfg.dtSeqMismatchAborts = false then .next (s.unmoved .ok)
        else if n.tpKind = .p2p then
          .next (s.ends h { n with tpKind := .none, tpCts := false }
            (gatedFrame s.cfg n (.abort n.tpPeer n.addr s.cfg.abortReasonTimeout n.tpPgn))
            (s.txDraws + gatedDraws s.cfg n) .ok)
        else .next (s.ends h { n with tpKind := .none, tpCts := false } [] s.txDraws .ok))

/-- R62, R282: in a node in form every packet with bytes left lies within the buffer, and its number has not wrapped. -/
def Obligations.PacketsStayInTheBuffer : Prop :=
  ∀ n : Node, TpInv n → n.tpKind ≠ .none → 0 < n.tpRem →
    PacketFits n ∧ 7 * (n.tpSeq.toNat - 1) < n.tpLen ∧
      (n.tpSeq.toNat - 1) * 7 + min 7 n.tpRem ≤ n.tpLen ∧ (n.tpSeq.toNat - 1) * 7 ≤ 1778

/-- R235's round-trip law, run as Data-Transfer rows: a payload of 1 to 1785 bytes cut into padded packets is rebuilt
exactly, with nothing left. -/
def Obligations.SegmentationRoundTrip : Prop :=
  ∀ (s : State) (h : Nat) (n : Node) (r : Routing) (data : List Byte), Live s h n → Hears s n r.dst →
    n.tpKind ≠ .none → n.tpRole = .receiver → n.tpSeq = 1#8 → n.tpRem = data.length → n.tpLen = data.length →
    1 ≤ data.length → data.length ≤ 1785 → n.tpBuf.wf = true →
    ∃ t n', execAll ((List.range (packetCount data.length)).map fun k =>
        Instr.tpDt h r (BitVec.ofNat 8 (k + 1)) (packetBytes data k)) s = .next t ∧
      Live t h n' ∧ n'.tpRem = 0 ∧ bufBytes n' 0 data.length = data

/-! ### The periodic update -/

/-- R250, R42: TICK of a node without a connection does nothing, the timer is left alone. With a connection TICK moves
the timer by the node's own tick, and sets it to 0 exactly where it has a Data-Transfer frame or its CTS to send after
50 ms. Where the sum fits TIMER_W bits it is exact, and no sum leaves them (what one that does not fit leaves is the
model's free value, log entry 11). -/
def Obligations.TimerRunsInAConnection : Prop :=
  (∀ (s : State) (h : Nat) (n : Node), Live s h n → n.tpKind = .none → exec (.tick h) s = .next (s.unmoved .ok)) ∧
  (∀ (s t : State) (h : Nat) (n : Node), Live s h n → n.tpKind ≠ .none → exec (.tick h) s = .next t →
    ∃ n', Live t h n' ∧
      n'.tpTimer =
        if 50 ≤ timerSum s.cfg n.tpTimer n.tickMs ∧
            ((n.tpRole = .sender ∧ 0 < n.tpRem ∧ (n.tpKind = .bcast ∨ n.tpCts = true)) ∨
              (n.tpRole = .receiver ∧ n.tpKind = .p2p ∧ n.tpCts = false)) then 0
        else timerSum s.cfg n.tpTimer n.tickMs) ∧
  ∀ (c : Config) (timer tick : Nat),
    (timer + tick < 2 ^ c.timerW → timerSum c timer tick = timer + tick) ∧ timerSum c timer tick < 2 ^ c.timerW

/-- R250, R251, R233: TICK of a broadcast sender. -/
def Obligations.TickBroadcastSender : Prop :=
  ∀ (s : State) (h : Nat) (n : Node), Live s h n → Connected n .bcast .sender → (0 < n.tpRem → PacketFits n) →
    let t := timerSum s.cfg n.tpTimer n.tickMs
    exec (.tick h) s =
      if n.tpRem = 0 then .next (s.ends h { n with tpKind := .none, tpCts := false, tpTimer := t } [] s.txDraws .ok)
      else if t < 50 then .next (s.ends h { n with tpTimer := t } [] s.txDraws .ok)
      else
        .next (s.ends h
          { n with tpKind := if n.tpRem ≤ 7 then .none else .bcast, tpCts := if n.tpRem ≤ 7 then false else n.tpCts,
                   tpRem := n.tpRem - min 7 n.tpRem, tpSeq := n.tpSeq + 1#8, tpTimer := 0 }
          (gatedFrame s.cfg n (dtForm n)) (s.txDraws + gatedDraws s.cfg n) .ok)

/-- R250, R252, R239: TICK of a broadcast receiver. -/
def Obligations.TickBroadcastReceiver : Prop :=
  ∀ (s : State) (h : Nat) (n : Node), Live s h n → Connected n .bcast .receiver → n.tpLen ≤ 1785 →
    let t := timerSum s.cfg n.tpTimer n.tickMs
    let closed := { n with tpKind := .none, tpCts := false, tpTimer := t }
    exec (.tick h) s =
      if n.tpRem = 0 then .next (s.ends h closed [.deliver (reassembled n)] s.txDraws .ok)
      else if t < 1250 then .next (s.ends h { n with tpTimer := t } [] s.txDraws .ok)
      else if s.cfg.bamRxTimeoutSendsAbort = false then .next (s.ends h closed [] s.txDraws .ok)
      else
        .next (s.ends h closed (gatedFrame s.cfg n (.abort n.tpPeer n.addr s.cfg.abortReasonTimeout n.tpPgn))
          (s.txDraws + gatedDraws s.cfg n) .ok)

/-- R250, R253, R233, R237: TICK of a peer-to-peer sender. -/
def Obligations.TickPeerSender : Prop :=
  ∀ (s : State) (h : Nat) (n : Node), Live s h n → Connected n .p2p .sender → (0 < n.tpRem → PacketFits n) →
    let t := timerSum s.cfg n.tpTimer n.tickMs
    let waits : Host.Outcome State Fault Refusal := .next (s.ends h { n with tpTimer := t } [] s.txDraws .ok)
    let aborts : Host.Outcome State Fault Refusal :=
      .next (s.ends h { n with tpKind := .none, tpCts := false, tpTimer := t }
        (gatedFrame s.cfg n (.abort n.tpPeer n.addr s.cfg.abortReasonTimeout n.tpPgn))
        (s.txDraws + gatedDraws s.cfg n) .ok)
    exec (.tick h) s =
      if n.tpCts = false then (if t < 200 then waits else aborts)
      else if n.tpRem = 0 then (if t < 1250 then waits else aborts)
      else if t < 50 then waits
      else
        .next (s.ends h { n with tpRem := n.tpRem - min 7 n.tpRem, tpSeq := n.tpSeq + 1#8, tpTimer := 0 }
          (gatedFrame s.cfg n (dtForm n)) (s.txDraws + gatedDraws s.cfg n) .ok)

/-- R250, R254, R237, R239: TICK of a peer-to-peer receiver. -/
def Obligations.TickPeerReceiver : Prop :=
  ∀ (s : State) (h : Nat) (n : Node), Live s h n → Connected n .p2p .receiver → n.tpLen ≤ 1785 →
    let t := timerSum s.cfg n.tpTimer n.tickMs
    let closed := { n with tpKind := .none, tpCts := false, tpTimer := t }
    exec (.tick h) s =
      if n.tpCts = false then
        if t < 50 then .next (s.ends h { n with tpTimer := t } [] s.txDraws .ok)
        else
          .next (s.ends h { n with tpCts := true, tpTimer := 0 }
            (gatedFrame s.cfg n (.cts n.tpPeer n.addr n.tpNpkt n.tpPgn)) (s.txDraws + gatedDraws s.cfg n) .ok)
      else if n.tpRem = 0 then
        .next (s.ends h closed
          (gatedFrame s.cfg n (.eoma n.tpPeer n.addr (BitVec.ofNat 16 n.tpLen) n.tpNpkt n.tpPgn) ++
            [.deliver (reassembled n)]) (s.txDraws + gatedDraws s.cfg n) .ok)
      else if t < 1250 then .next (s.ends h { n with tpTimer := t } [] s.txDraws .ok)
      else
        .next (s.ends h closed (gatedFrame s.cfg n (.abort n.tpPeer n.addr s.cfg.abortReasonTimeout n.tpPgn))
          (s.txDraws + gatedDraws s.cfg n) .ok)

/-- R253, R255: an RTS that is never answered is aborted in the first TICK with 200 ms elapsed, not before, not after. -/
def Obligations.UnansweredRtsAbortsAtTr : Prop :=
  ∀ (s : State) (h : Nat) (n : Node) (m : Nat), Live s h n → Connected n .p2p .sender → n.tpCts = false →
    n.tpTimer = 0 → 0 < n.tickMs → 199 + n.tickMs < 2 ^ s.cfg.timerW → 0 < m →
    (m * n.tickMs < 200 →
      execAll (List.replicate m (.tick h)) s = .next (s.ends h { n with tpTimer := m * n.tickMs } [] s.txDraws .ok)) ∧
    ((m - 1) * n.tickMs < 200 → 200 ≤ m * n.tickMs →
      execAll (List.replicate m (.tick h)) s =
        .next (s.ends h { n with tpKind := .none, tpTimer := m * n.tickMs }
          (gatedFrame s.cfg n (.abort n.tpPeer n.addr s.cfg.abortReasonTimeout n.tpPgn))
          (s.txDraws + gatedDraws s.cfg n) .ok))

/-! ### Sending -/

/-- R170: what SEND refuses, in the order of its tests, changing nothing. -/
def Obligations.SendRefusals : Prop :=
  ∀ (s : State) (h : Nat) (n : Node) (msg : Message), Live s h n →
    (s.cfg.listenOnly = true → exec (.send h msg) s = .next (s.unmoved .errListenOnly)) ∧
    (s.cfg.listenOnly = false → n.cannotClaim = true → exec (.send h msg) s = .next (s.unmoved .errCannotClaim)) ∧
    (s.cfg.listenOnly = false → n.cannotClaim = false → 1785 < msg.data.length →
      exec (.send h msg) s = .next (s.unmoved .errParam)) ∧
    (s.cfg.listenOnly = false → n.cannotClaim = false → 8 < msg.data.length → msg.data.length ≤ 1785 →
      n.tpKind ≠ .none → exec (.send h msg) s = .next (s.unmoved .errBusy))

/-- R171: a message of at most 8 bytes is one frame from the node's own address, connection or not; the status is what
the transport answers. -/
def Obligations.SendShort : Prop :=
  ∀ (s : State) (h : Nat) (n : Node) (msg : Message), Live s h n → s.cfg.listenOnly = false →
    n.cannotClaim = false → msg.data.length ≤ 8 →
    exec (.send h msg) s =
      .next (s.ends h n [.txFrame (singleFrame n msg)]
        (s.txDraws + 1) (if Config.txOk s.txDraws then .ok else .errTx))

/-- R234: a message of 9 to 1785 bytes on an idle node: the payload in the buffer, every other byte of it unchanged, a
connection open, a BAM or an RTS sent, whatever the transport answers. -/
def Obligations.SendLongOpensConnection : Prop :=
  ∀ (s : State) (h : Nat) (n : Node) (msg : Message), Live s h n → s.cfg.listenOnly = false →
    n.cannotClaim = false → n.tpKind = .none → 8 < msg.data.length → msg.data.length ≤ 1785 → n.tpBuf.wf = true →
    let len : BitVec 16 := BitVec.ofNat 16 msg.data.length
    let npkt : Byte := BitVec.ofNat 8 ((msg.data.length + 6) / 7)
    ∃ buf : Memory, buf.wf = true ∧
      (∀ k, buf.read k = if k < msg.data.length then msg.data.getD k 0#8 else n.tpBuf.read k) ∧
      exec (.send h msg) s =
        .next (s.ends h
          { n with tpBuf := buf, tpLen := msg.data.length, tpRem := msg.data.length, tpNpkt := npkt,
                   tpRole := .sender, tpSeq := 1#8, tpTimer := 0, tpPgn := msg.pgn, tpPeer := msg.dst,
                   tpDest := msg.dst, tpCts := false, tpKind := if msg.dst = 255#8 then .bcast else .p2p }
          [.txFrame (encodeTx (if msg.dst = 255#8 then .bam n.addr len npkt msg.pgn
                               else .rts msg.dst n.addr len npkt msg.pgn))]
          (s.txDraws + 1) (if Config.txOk s.txDraws then .ok else .errTx))

/-! ### The transmitted rows: the branch of the rule that emits the frame (log entry 2) -/

/-- TX.TP_CM.BAM and TX.TP_CM.RTS are the two branches of TP_Queue (R234). -/
def Obligations.TxOpenersSend : Prop :=
  ∀ (s : State) (h : Nat) (n : Node), Live s h n →
    exec (.txTpCmBam h) s =
      .next (s.ends h { n with tpKind := .bcast }
        (gatedFrame s.cfg n (.bam n.addr (BitVec.ofNat 16 n.tpLen) n.tpNpkt n.tpPgn))
        (s.txDraws + gatedDraws s.cfg n) (gatedStatus s.cfg n s.txDraws)) ∧
    exec (.txTpCmRts h) s =
      .next (s.ends h { n with tpKind := .p2p }
        (gatedFrame s.cfg n (.rts n.tpPeer n.addr (BitVec.ofNat 16 n.tpLen) n.tpNpkt n.tpPgn))
        (s.txDraws + gatedDraws s.cfg n) (gatedStatus s.cfg n s.txDraws))

/-- TX.TP_CM.CTS and TX.TP_CM.EOMA are the two sending branches of R254. The EOMA delivers the message after it; a
length over the buffer, which no run has (R43), stops by name (log entry 13). -/
def Obligations.TxReceiverAnswersSend : Prop :=
  ∀ (s : State) (h : Nat) (n : Node), Live s h n →
    exec (.txTpCmCts h) s =
      .next (s.ends h { n with tpCts := true, tpTimer := 0 }
        (gatedFrame s.cfg n (.cts n.tpPeer n.addr n.tpNpkt n.tpPgn)) (s.txDraws + gatedDraws s.cfg n) .ok) ∧
    exec (.txTpCmEoma h) s =
      if n.tpLen ≤ 1785 then
        .next (s.ends h { n with tpKind := .none, tpCts := false }
          (gatedFrame s.cfg n (.eoma n.tpPeer n.addr (BitVec.ofNat 16 n.tpLen) n.tpNpkt n.tpPgn) ++
            [.deliver (reassembled n)]) (s.txDraws + gatedDraws s.cfg n) .ok)
      else .fault .bufferRange

/-- TX.TP_CM.ABORT_TIMEOUT is TP_Abort (R237), which closes; TX.TP_CM.ABORT_BUSY is TP_BusyAbort (R238), which leaves
the connection alone and carries the refused PGN to the refused sender. -/
def Obligations.TxAbortsSend : Prop :=
  ∀ (s : State) (h : Nat) (n : Node), Live s h n →
    exec (.txTpCmAbortTimeout h) s =
      .next (s.ends h { n with tpKind := .none, tpCts := false }
        (gatedFrame s.cfg n (.abort n.tpPeer n.addr s.cfg.abortReasonTimeout n.tpPgn))
        (s.txDraws + gatedDraws s.cfg n) .ok) ∧
    ∀ (dst : Byte) (pgn : Pgn), exec (.txTpCmAbortBusy h dst pgn) s =
      .next (s.ends h n (gatedFrame s.cfg n (.abort dst n.addr s.cfg.abortReasonBusy pgn))
        (s.txDraws + gatedDraws s.cfg n) .ok)

/-- TX.TP_DT is SendDT (R233) under its precondition; outside it the row stops by name (log entry 13). -/
def Obligations.TxDataSends : Prop :=
  ∀ (s : State) (h : Nat) (n : Node), Live s h n →
    exec (.txTpDt h) s =
      if n.tpRem = 0 then .fault .sendWithoutData
      else if n.tpSeq = 0#8 then .fault .noOffset
      else if 1785 < (n.tpSeq.toNat - 1) * 7 + min 7 n.tpRem then .fault .bufferRange
      else
        .next (s.ends h { n with tpRem := n.tpRem - min 7 n.tpRem, tpSeq := n.tpSeq + 1#8 }
          (gatedFrame s.cfg n (dtForm n)) (s.txDraws + gatedDraws s.cfg n) .ok)

/-- TX.APP_SINGLE is the single-frame send (R171) behind the gate of R175. -/
def Obligations.TxSingleSends : Prop :=
  ∀ (s : State) (h : Nat) (n : Node) (msg : Message), Live s h n →
    exec (.txAppSingle h msg) s =
      .next (s.ends h n
        (if s.cfg.listenOnly || n.cannotClaim then []
         else [.txFrame (singleFrame n msg)])
        (s.txDraws + gatedDraws s.cfg n) (gatedStatus s.cfg n s.txDraws))

/-! ### The registry and reset -/

/-- R301, R47, R192: what INIT refuses, in the order of its tests, changing nothing and emitting nothing; and a
successful INIT, field by field; the fields R47 leaves unspecified are not spoken of. -/
def Obligations.InitCreatesNode : Prop :=
  ∀ (s : State) (name : Name64) (pref : Byte) (tick : Nat),
    (253 < pref.toNat ∨ tick = 0 ∨ 2 ^ s.cfg.tickW ≤ tick →
      exec (.init name pref tick) s = .next (s.unmoved .errParam)) ∧
    (pref.toNat ≤ 253 → 0 < tick → tick < 2 ^ s.cfg.tickW → s.nodeCount = s.cfg.maxNodes →
      exec (.init name pref tick) s = .next (s.unmoved .errCapacity)) ∧
    ∀ old : Node, pref.toNat ≤ 253 → 0 < tick → tick < 2 ^ s.cfg.tickW → s.nodeCount ≠ s.cfg.maxNodes →
      s.nodes[s.nodeCount]? = some old →
      ∃ t n, exec (.init name pref tick) s = .next t ∧
        t.nodeCount = s.nodeCount + 1 ∧ t.nodes = s.nodes.set s.nodeCount n ∧
        t.result = some { status := .ok, handle := some s.nodeCount } ∧
        t.outputs = (if s.cfg.listenOnly then [] else [.txFrame (encodeTx (.addressClaimed pref name))]) ++
          (if 128 ≤ pref.toNat ∧ pref.toNat ≤ 247 then [.startupDelay 250] else []) ∧
        t.cfg = s.cfg ∧ t.pending = s.pending ∧
        n.addr = pref ∧ n.name = name ∧ n.tickMs = tick ∧
        (∀ a (ha : a < 254), n.acTable[a] = decide (a = pref.toNat)) ∧
        n.acFree = 253 ∧ n.cannotClaim = false ∧ n.tpKind = .none ∧ n.tpCts = false ∧ n.tpTimer = 0

/-- R360: RESET leaves no node and emits nothing, and RXFRAME, TICK and SEND then answer ERR_HANDLE. That the received
and transmitted rows do too is log entries 1 and 2; the pending operations and the count of draws are the model's own
fields (log entries 3, 7). -/
def Obligations.ResetDropsEveryNode : Prop :=
  ∀ s : State, ∃ t, exec .reset s = .next t ∧ t.nodeCount = 0 ∧ t.outputs = [] ∧ t.result = none ∧ t.cfg = s.cfg ∧
    t.pending = s.pending ∧ t.txDraws = s.txDraws ∧
    ∀ (i : Instr) (h : Nat), actingNode i = some h → exec i t = .next (t.unmoved .errHandle)

/-! ### The whole block -/

/-- The state after reset is in form, and it is the state RESET leaves of itself (R46; the records' values are the
model's, log entry 9). -/
def Obligations.ResetMeetsInvariant : Prop :=
  StateInv State.reset ∧ State.reset.nodeCount = 0 ∧ exec .reset State.reset = .next State.reset

/-- R43, with R20, R22, R26, R29 and R42: every step keeps every node in form. -/
def Obligations.StepKeepsInvariant : Prop :=
  ∀ s s' : State, StateInv s → step s = .next s' → StateInv s'

/-- R282, R320: in form, every operation of the host runs to its end; the model's faults are never met, and only a frame
that is no CAN frame is refused (log entries 13, 14). -/
def Obligations.EveryOperationCompletes : Prop :=
  ∀ s : State, StateInv s →
    (∀ op : HostOp, ∃ t, exec op.toInstr s = .next t) ∧
    (∀ why, step s ≠ .fault why) ∧
    (∀ why, step s = .refused why →
      ∃ (h : Nat) (f : Frame) (rest : List HostOp), s.pending = .rxframe h f :: rest ∧ 8 < f.data.length)

/-- R305, R74: an instruction on one node leaves every other record and the registry alone, and INIT every record but
the new one; no instruction writes the parameters or the pending operations. -/
def Obligations.OtherNodesUntouched : Prop :=
  ∀ (i : Instr) (s t : State), exec i s = .next t →
    t.cfg = s.cfg ∧ t.pending = s.pending ∧
    (∀ h k, actingNode i = some h → k ≠ h →
      t.nodes[k]? = s.nodes[k]? ∧ t.nodeCount = s.nodeCount ∧ t.freeDraws = s.freeDraws) ∧
    (∀ name pref tick k, i = .init name pref tick → k ≠ s.nodeCount → t.nodes[k]? = s.nodes[k]?)

/-- R305, R73, R74: what an instruction does on its node depends on that node's record, the parameters, the node count
and the draws alone; the rest of the state, the other nodes among it, can differ. -/
def Obligations.NodesAreIndependent : Prop :=
  ∀ (i : Instr) (h : Nat) (s₁ s₂ t₁ : State), actingNode i = some h → s₁.cfg = s₂.cfg →
    s₁.nodeCount = s₂.nodeCount → s₁.txDraws = s₂.txDraws → s₁.nodes[h]? = s₂.nodes[h]? → exec i s₁ = .next t₁ →
    ∃ t₂, exec i s₂ = .next t₂ ∧ t₂.nodes[h]? = t₁.nodes[h]? ∧ t₂.outputs = t₁.outputs ∧ t₂.result = t₁.result ∧
      t₂.txDraws = t₁.txDraws

/-- R202, R25, R26: no operation but RESET changes the NAME or the tick period of an initialised node. -/
def Obligations.NameIsImmutable : Prop :=
  ∀ (s t : State) (h : Nat) (n : Node) (op : HostOp), Live s h n → op ≠ .reset → exec op.toInstr s = .next t →
    ∃ n', Live t h n' ∧ n'.name = n.name ∧ n'.tickMs = n.tickMs

/-- R171, R176, R193, R194, R198, R199, R234, R250, R276, R301: an operation of the host hands at most one frame to
the transport, and takes exactly one draw for it (the count of draws is the model's own, log entry 7). -/
def Obligations.AtMostOneFramePerOperation : Prop :=
  ∀ (s t : State) (op : HostOp), exec op.toInstr s = .next t →
    (t.outputs.filter isTxEvent).length ≤ 1 ∧ t.txDraws = s.txDraws + (t.outputs.filter isTxEvent).length

/-- R113, R175: every frame an operation of the host hands to the transport is one of the table's transmit rows,
emitted by the rule that row names, on the node of the operation (for INIT the node it creates): with that node's
address as source, the fields of its record, and in a busy abort the sender and PGN of the refused frame. -/
def Obligations.TransmittedFramesAreTableRows : Prop :=
  ∀ (s t : State) (op : HostOp) (f : Frame), exec op.toInstr s = .next t → OutEvent.txFrame f ∈ t.outputs →
    ∃ (h : Nat) (n₀ n : Node),
      ((actingNode op.toInstr = some h ∧ Live s h n₀) ∨
        ((∃ name pref tick, op = .init name pref tick) ∧ h = s.nodeCount ∧ s.nodes[h]? = some n₀)) ∧
      Live t h n ∧ f.data.length ≤ 8 ∧ SentBy s.cfg op n₀ n f

end
end

