-- ==== Sys2Proof/Laws/State.lean ====
section
/-! SUPPORT. One lemma per field per update of the state and of an operation in progress, so that no later proof
unfolds a record update. -/

namespace Sys2Proof.Machine

/-! ### `State.returned` and `State.unmoved` -/

@[simp] theorem State.returned_cfg (s : State) (st : Status) : (s.returned st).cfg = s.cfg := rfl
@[simp] theorem State.returned_nodeCount (s : State) (st : Status) : (s.returned st).nodeCount = s.nodeCount := rfl
@[simp] theorem State.returned_nodes (s : State) (st : Status) : (s.returned st).nodes = s.nodes := rfl
@[simp] theorem State.returned_pending (s : State) (st : Status) : (s.returned st).pending = s.pending := rfl
@[simp] theorem State.returned_outputs (s : State) (st : Status) : (s.returned st).outputs = [] := rfl
@[simp] theorem State.returned_result (s : State) (st : Status) :
    (s.returned st).result = some { status := st, handle := none } := rfl
@[simp] theorem State.returned_txDraws (s : State) (st : Status) : (s.returned st).txDraws = s.txDraws := rfl
@[simp] theorem State.returned_freeDraws (s : State) (st : Status) : (s.returned st).freeDraws = s.freeDraws := rfl

/-- The claims' name for the same state. -/
theorem State.unmoved_eq (s : State) (st : Status) : s.unmoved st = s.returned st := rfl

/-! ### `State.finish` and `State.ends` -/

section Finish
variable (s : State) (h : Nat) (r : NodeRun) (st : Status)

@[simp] theorem State.finish_cfg : (s.finish h r st).cfg = s.cfg := rfl
@[simp] theorem State.finish_nodeCount : (s.finish h r st).nodeCount = s.nodeCount := rfl
@[simp] theorem State.finish_nodes : (s.finish h r st).nodes = s.nodes.set h r.node := rfl
@[simp] theorem State.finish_pending : (s.finish h r st).pending = s.pending := rfl
@[simp] theorem State.finish_outputs : (s.finish h r st).outputs = r.out := rfl
@[simp] theorem State.finish_result : (s.finish h r st).result = some { status := st, handle := none } := rfl
@[simp] theorem State.finish_txDraws : (s.finish h r st).txDraws = r.draws := rfl
@[simp] theorem State.finish_freeDraws : (s.finish h r st).freeDraws = s.freeDraws := rfl

/-- The claims' name for the same state. -/
theorem State.ends_eq (n : Node) (evs : List OutEvent) (draws : Nat) :
    s.ends h n evs draws st = s.finish h { node := n, out := evs, draws := draws } st := rfl

end Finish

/-! ### `State.registered` -/

section Registered
variable (s : State) (r : NodeRun)

@[simp] theorem State.registered_cfg : (s.registered r).cfg = s.cfg := rfl
@[simp] theorem State.registered_nodeCount : (s.registered r).nodeCount = s.nodeCount + 1 := rfl
@[simp] theorem State.registered_nodes : (s.registered r).nodes = s.nodes.set s.nodeCount r.node := rfl
@[simp] theorem State.registered_pending : (s.registered r).pending = s.pending := rfl
@[simp] theorem State.registered_outputs : (s.registered r).outputs = r.out := rfl
@[simp] theorem State.registered_result :
    (s.registered r).result = some { status := .ok, handle := some s.nodeCount } := rfl
@[simp] theorem State.registered_txDraws : (s.registered r).txDraws = r.draws := rfl
@[simp] theorem State.registered_freeDraws : (s.registered r).freeDraws = s.freeDraws + 4 := rfl

end Registered

/-! ### An operation in progress -/

section Run
variable (r : NodeRun) (n : Node) (e : OutEvent) (t : Nat)

@[simp] theorem NodeRun.setNode_node : (r.setNode n).node = n := rfl
@[simp] theorem NodeRun.setNode_out : (r.setNode n).out = r.out := rfl
@[simp] theorem NodeRun.setNode_draws : (r.setNode n).draws = r.draws := rfl
@[simp] theorem NodeRun.emit_node : (r.emit e).node = r.node := rfl
@[simp] theorem NodeRun.emit_out : (r.emit e).out = r.out ++ [e] := rfl
@[simp] theorem NodeRun.emit_draws : (r.emit e).draws = r.draws := rfl
@[simp] theorem NodeRun.close_node : r.close.node = r.node.closed := rfl
@[simp] theorem NodeRun.close_out : r.close.out = r.out := rfl
@[simp] theorem NodeRun.close_draws : r.close.draws = r.draws := rfl
@[simp] theorem NodeRun.setTimer_node : (r.setTimer t).node = { r.node with tpTimer := t } := rfl
@[simp] theorem NodeRun.setTimer_out : (r.setTimer t).out = r.out := rfl
@[simp] theorem NodeRun.setTimer_draws : (r.setTimer t).draws = r.draws := rfl
@[simp] theorem deliver_node (m : Message) : (deliver m r).node = r.node := rfl
@[simp] theorem deliver_out (m : Message) : (deliver m r).out = r.out ++ [.deliver m] := rfl
@[simp] theorem deliver_draws (m : Message) : (deliver m r).draws = r.draws := rfl
@[simp] theorem emitFrame_node (f : Frame) : (emitFrame f r).1.node = r.node := rfl
@[simp] theorem emitFrame_out (f : Frame) : (emitFrame f r).1.out = r.out ++ [.txFrame f] := rfl
@[simp] theorem emitFrame_draws (f : Frame) : (emitFrame f r).1.draws = r.draws + 1 := rfl
@[simp] theorem emitFrame_ok (f : Frame) : (emitFrame f r).2 = Config.txOk r.draws := rfl

end Run

/-! ### `TP_Close` (43_transport_protocol.md R236) -/

section Closed
variable (n : Node)

@[simp] theorem Node.closed_addr : n.closed.addr = n.addr := rfl
@[simp] theorem Node.closed_name : n.closed.name = n.name := rfl
@[simp] theorem Node.closed_tickMs : n.closed.tickMs = n.tickMs := rfl
@[simp] theorem Node.closed_acTable : n.closed.acTable = n.acTable := rfl
@[simp] theorem Node.closed_acFree : n.closed.acFree = n.acFree := rfl
@[simp] theorem Node.closed_cannotClaim : n.closed.cannotClaim = n.cannotClaim := rfl
@[simp] theorem Node.closed_tpKind : n.closed.tpKind = .none := rfl
@[simp] theorem Node.closed_tpRole : n.closed.tpRole = n.tpRole := rfl
@[simp] theorem Node.closed_tpCts : n.closed.tpCts = false := rfl
@[simp] theorem Node.closed_tpBuf : n.closed.tpBuf = n.tpBuf := rfl
@[simp] theorem Node.closed_tpSeq : n.closed.tpSeq = n.tpSeq := rfl
@[simp] theorem Node.closed_tpRem : n.closed.tpRem = n.tpRem := rfl
@[simp] theorem Node.closed_tpLen : n.closed.tpLen = n.tpLen := rfl
@[simp] theorem Node.closed_tpNpkt : n.closed.tpNpkt = n.tpNpkt := rfl
@[simp] theorem Node.closed_tpPgn : n.closed.tpPgn = n.tpPgn := rfl
@[simp] theorem Node.closed_tpPeer : n.closed.tpPeer = n.tpPeer := rfl
@[simp] theorem Node.closed_tpDest : n.closed.tpDest = n.tpDest := rfl
@[simp] theorem Node.closed_tpTimer : n.closed.tpTimer = n.tpTimer := rfl

end Closed

end Sys2Proof.Machine
end

