-- ==== Sys2Proof/Laws/Codec.lean ====
section
/-! SUPPORT. The little-endian fields and the identifier codec, field by field (00_scope.md R11, 40_codec.md R140,
R141), and the identifier words of 30_encoding.md R113. -/

namespace Sys2Proof

/-! ### Little-endian fields -/

@[simp] theorem byteOf_le16_0 (a b : Byte) : byteOf (le16 a b) 0 = a := by
  unfold byteOf le16; simp only [BitVec.extractLsb'_append_eq_ite]; simp
@[simp] theorem byteOf_le16_1 (a b : Byte) : byteOf (le16 a b) 1 = b := by
  unfold byteOf le16; simp only [BitVec.extractLsb'_append_eq_ite]; simp
@[simp] theorem byteOf_le24_0 (a b c : Byte) : byteOf (le24 a b c) 0 = a := by
  unfold byteOf le24; simp only [BitVec.extractLsb'_append_eq_ite]; simp
@[simp] theorem byteOf_le24_1 (a b c : Byte) : byteOf (le24 a b c) 1 = b := by
  unfold byteOf le24; simp only [BitVec.extractLsb'_append_eq_ite]; simp
@[simp] theorem byteOf_le24_2 (a b c : Byte) : byteOf (le24 a b c) 2 = c := by
  unfold byteOf le24; simp only [BitVec.extractLsb'_append_eq_ite]; simp

@[simp] theorem le16_byteOf (v : BitVec 16) : le16 (byteOf v 0) (byteOf v 1) = v := by
  unfold byteOf le16
  rw [BitVec.extractLsb'_append_extractLsb'_eq_extractLsb' (by rfl)]
  simp

@[simp] theorem le24_byteOf (v : BitVec 24) : le24 (byteOf v 0) (byteOf v 1) (byteOf v 2) = v := by
  unfold byteOf le24
  iterate 2 rw [BitVec.extractLsb'_append_extractLsb'_eq_extractLsb' (by rfl)]
  simp

@[simp] theorem le64_byteOf (v : BitVec 64) :
    le64 (byteOf v 0) (byteOf v 1) (byteOf v 2) (byteOf v 3) (byteOf v 4) (byteOf v 5) (byteOf v 6) (byteOf v 7) =
      v := by
  unfold byteOf le64
  iterate 7 rw [BitVec.extractLsb'_append_extractLsb'_eq_extractLsb' (by rfl)]
  simp

/-- The bytes of an assembled NAME. -/
@[simp] theorem nameBytes_le64 (a b c d e f g h : Byte) : nameBytes (le64 a b c d e f g h) = [a, b, c, d, e, f, g, h] := by
  unfold nameBytes byteOf le64; simp only [BitVec.extractLsb'_append_eq_ite]; simp

@[simp] theorem nameBytes_length (name : Name64) : (nameBytes name).length = 8 := rfl
@[simp] theorem cmBytes_length (a b c d e : Byte) (pgn : Pgn) : (cmBytes a b c d e pgn).length = 8 := rfl
@[simp] theorem cmLenBytes_length (a : Byte) (len : BitVec 16) (b c : Byte) (pgn : Pgn) :
    (cmLenBytes a len b c pgn).length = 8 := rfl

/-! ### Fields of an encoded identifier -/

section Encoded
variable (prio : BitVec 3) (pgn : Pgn) (src dst : Byte)

theorem encodeId_prio : (encodeId prio pgn src dst).extractLsb' 26 3 = prio := by
  unfold encodeId; simp only [BitVec.extractLsb'_append_eq_ite]; simp
theorem encodeId_dp : (encodeId prio pgn src dst).extractLsb' 24 1 = pgn.extractLsb' 16 1 := by
  unfold encodeId; simp only [BitVec.extractLsb'_append_eq_ite]; simp
theorem encodeId_pf : (encodeId prio pgn src dst).extractLsb' 16 8 = byteOf pgn 1 := by
  unfold encodeId; simp only [BitVec.extractLsb'_append_eq_ite]; simp
theorem encodeId_ps : (encodeId prio pgn src dst).extractLsb' 8 8 = psOf pgn dst := by
  unfold encodeId; simp only [BitVec.extractLsb'_append_eq_ite]; simp
theorem encodeId_src : (encodeId prio pgn src dst).extractLsb' 0 8 = src := by
  unfold encodeId; simp only [BitVec.extractLsb'_append_eq_ite]; simp

/-- "Top bit of the identifier is always set" (R141). -/
theorem encodeId_eff : (encodeId prio pgn src dst).getLsbD 31 = true := by
  have h : (encodeId prio pgn src dst).extractLsb' 31 1 = 1#1 := by
    unfold encodeId; simp only [BitVec.extractLsb'_append_eq_ite]; simp
  simpa using congrArg (fun v => v.getLsbD 0) h

end Encoded

/-! ### Fields of a decoded PGN -/

theorem pgn_pf (dp : BitVec 1) (pf ps : Byte) : byteOf (0#7 ++ dp ++ pf ++ ps : Pgn) 1 = pf := by
  unfold byteOf; simp only [BitVec.extractLsb'_append_eq_ite]; simp
theorem pgn_ps (dp : BitVec 1) (pf ps : Byte) : byteOf (0#7 ++ dp ++ pf ++ ps : Pgn) 0 = ps := by
  unfold byteOf; simp only [BitVec.extractLsb'_append_eq_ite]; simp
theorem pgn_dp (dp : BitVec 1) (pf ps : Byte) : (0#7 ++ dp ++ pf ++ ps : Pgn).extractLsb' 16 1 = dp := by
  simp only [BitVec.extractLsb'_append_eq_ite]; simp
theorem pgn_high (dp : BitVec 1) (pf ps : Byte) : (0#7 ++ dp ++ pf ++ ps : Pgn).extractLsb' 17 7 = 0#7 := by
  simp only [BitVec.extractLsb'_append_eq_ite]; simp

/-- A PGN put together from its own fields. -/
theorem pgn_assembled (pgn : Pgn) :
    ((pgn.extractLsb' 17 7 : BitVec 7) ++ (pgn.extractLsb' 16 1 : BitVec 1) ++ byteOf pgn 1 ++ byteOf pgn 0 : Pgn) =
      pgn := by
  unfold byteOf
  iterate 3 rw [BitVec.extractLsb'_append_extractLsb'_eq_extractLsb' (by rfl)]
  simp

/-! ### Fields as numbers -/

theorem byteOf_toNat (pgn : Pgn) (k : Nat) : (byteOf pgn k).toNat = pgn.toNat / 2 ^ (8 * k) % 256 := by
  simp [byteOf, Nat.shiftRight_eq_div_pow]

/-- A destination-specific PGN, by its number (R92). -/
theorem pgnIsPdu1_eq (pgn : Pgn) : pgnIsPdu1 pgn = decide (pgn.toNat / 256 % 256 < 240) := by
  simp only [pgnIsPdu1, pfIsPdu1, byteOf_toNat]; rfl

/-! ### Identifier words of the transmitted rows (R113) -/

theorem encodeId_cm (a p : Byte) : encodeId prioTp pgnTpCm a p = txCmWord p a := rfl
theorem encodeId_dt (a p : Byte) : encodeId prioTp pgnTpDt a p = (0x9CEB#16 ++ p ++ a : IdWord) := rfl

theorem encodeId_claim (a : Byte) : encodeId prioAc pgnAddressClaimed a addrGlobal = (0x98EEFF#24 ++ a : IdWord) := rfl
theorem encodeId_bam (a : Byte) : encodeId prioTp pgnTpCm a addrGlobal = (0x9CECFF#24 ++ a : IdWord) := rfl

end Sys2Proof
end

