-- ==== Sys2Proof/Laws/Memory.lean ====
section
/-! SUPPORT. The laws of the TP buffer (20_memory.md R62, R73): a read after a write, the canonical form, and what
MemRead, MemWrite and the packet offset can answer. -/

namespace Sys2Proof.Machine

@[simp] theorem Memory.read_nil (a : Nat) : Memory.read [] a = unlistedByte := rfl

/-- A read below every listed offset finds nothing. -/
theorem Memory.read_of_lt {m : Memory} {lo a : Nat} (hw : m.wfFrom lo = true) (h : a < lo) :
    m.read a = unlistedByte := by
  induction m generalizing lo with
  | nil => rfl
  | cons cell rest ih =>
    obtain ⟨k, v⟩ := cell
    simp only [Memory.wfFrom, Bool.and_eq_true, decide_eq_true_eq] at hw
    rw [Memory.read, if_neg (by omega)]
    exact ih hw.2 (by omega)

/-- A weaker lower bound. -/
theorem Memory.wfFrom_mono {m : Memory} {lo lo' : Nat} (hw : m.wfFrom lo = true) (h : lo' ≤ lo) :
    m.wfFrom lo' = true := by
  cases m with
  | nil => rfl
  | cons cell rest =>
    obtain ⟨k, v⟩ := cell
    simp only [Memory.wfFrom, Bool.and_eq_true, decide_eq_true_eq] at hw ⊢
    exact ⟨⟨by omega, hw.1.2⟩, hw.2⟩

theorem Memory.write_wfFrom {m : Memory} {lo a : Nat} (b : Byte) (hw : m.wfFrom lo = true) (h : lo ≤ a) :
    (m.write a b).wfFrom lo = true := by
  induction m generalizing lo with
  | nil => by_cases hb : b = unlistedByte <;> simp [Memory.write, Memory.wfFrom, hb, h]
  | cons cell rest ih =>
    obtain ⟨k, v⟩ := cell
    simp only [Memory.wfFrom, Bool.and_eq_true, decide_eq_true_eq] at hw
    obtain ⟨⟨hk, hv⟩, hr⟩ := hw
    unfold Memory.write
    split
    · split <;> simp [Memory.wfFrom, *]
    · split
      · split
        · exact Memory.wfFrom_mono hr (by omega)
        · subst_vars; simp [Memory.wfFrom, *]
      · simp [Memory.wfFrom, hk, hv, ih hr (by omega)]

/-- Every write keeps the canonical form. -/
theorem Memory.write_wf {m : Memory} (a : Nat) (b : Byte) (hw : m.wf = true) : (m.write a b).wf = true :=
  Memory.write_wfFrom b hw (Nat.zero_le a)

theorem Memory.read_write_from {m : Memory} {lo : Nat} (hw : m.wfFrom lo = true) (a : Nat) (b : Byte) (a' : Nat) :
    (m.write a b).read a' = if a = a' then b else m.read a' := by
  induction m generalizing lo with
  | nil => by_cases hb : b = unlistedByte <;> simp [Memory.write, Memory.read, hb]
  | cons cell rest ih =>
    obtain ⟨k, v⟩ := cell
    simp only [Memory.wfFrom, Bool.and_eq_true, decide_eq_true_eq] at hw
    obtain ⟨⟨hk, hv⟩, hr⟩ := hw
    unfold Memory.write
    split
    · split
      · subst_vars
        by_cases ha : a = a'
        · subst ha
          rw [if_pos rfl, Memory.read, if_neg (by omega)]
          exact Memory.read_of_lt hr (by omega)
        · rw [if_neg ha]
      · simp [Memory.read]
    · split
      · rename_i hak
        subst hak
        by_cases ha : a = a'
        · subst ha
          split
          · subst_vars; simpa using Memory.read_of_lt hr (Nat.lt_succ_self a)
          · simp [Memory.read]
        · split <;> simp [Memory.read, ha]
      · by_cases hka : k = a'
        · subst hka; simp [Memory.read]; omega
        · simp [Memory.read, hka, ih hr]

/-- A byte read after a write: the byte written at its own offset, what stood there before at every other. -/
theorem Memory.read_write {m : Memory} (hw : m.wf = true) (a : Nat) (b : Byte) (a' : Nat) :
    (m.write a b).read a' = if a = a' then b else m.read a' := Memory.read_write_from hw a b a'

theorem Memory.writeAll_wf {m : Memory} (a : Nat) (bs : List Byte) (hw : m.wf = true) : (m.writeAll a bs).wf = true := by
  induction bs generalizing m a with
  | nil => exact hw
  | cons b bs ih => exact ih (a + 1) (Memory.write_wf a b hw)

/-- A byte read after a write of several. -/
theorem Memory.read_writeAll {m : Memory} (hw : m.wf = true) (a : Nat) (bs : List Byte) (a' : Nat) :
    (m.writeAll a bs).read a' =
      if a ≤ a' ∧ a' < a + bs.length then bs.getD (a' - a) unlistedByte else m.read a' := by
  induction bs generalizing m a with
  | nil =>
    rw [if_neg (by simp only [List.length_nil]; omega)]
    rfl
  | cons b bs ih =>
    simp only [Memory.writeAll, List.length_cons]
    rw [ih (Memory.write_wf a b hw), Memory.read_write hw]
    by_cases h0 : a = a'
    · subst h0; simp
    · by_cases h1 : a + 1 ≤ a' ∧ a' < a + 1 + bs.length
      · rw [if_pos h1, if_pos (by omega), show a' - a = (a' - (a + 1)) + 1 from by omega]
        simp
      · rw [if_neg h1, if_neg h0, if_neg (by omega)]

theorem Memory.bounded_iff {m : Memory} : m.bounded = true ↔ ∀ cell ∈ m, cell.1 < tpMaxLen := by
  simp [Memory.bounded]

/-- A write lists no offset but its own. -/
theorem Memory.mem_write {m : Memory} {a : Nat} {b : Byte} {cell : Host.Cell} (h : cell ∈ m.write a b) :
    cell.1 = a ∨ cell ∈ m := by
  induction m with
  | nil =>
    by_cases hb : b = unlistedByte <;> simp [Memory.write, hb] at h
    exact .inl (by rw [h])
  | cons c rest ih =>
    obtain ⟨k, v⟩ := c
    unfold Memory.write at h
    split at h
    · split at h
      · exact .inr h
      · rcases List.mem_cons.1 h with rfl | h
        · exact .inl rfl
        · exact .inr h
    · split at h
      · split at h
        · exact .inr (List.mem_cons_of_mem _ h)
        · rcases List.mem_cons.1 h with rfl | h
          · exact .inl rfl
          · exact .inr (List.mem_cons_of_mem _ h)
      · rcases List.mem_cons.1 h with rfl | h
        · exact .inr List.mem_cons_self
        · rcases ih h with h | h
          · exact .inl h
          · exact .inr (List.mem_cons_of_mem _ h)

theorem Memory.write_bounded {m : Memory} {a : Nat} (b : Byte) (hm : m.bounded = true) (h : a < tpMaxLen) :
    (m.write a b).bounded = true := by
  rw [Memory.bounded_iff] at hm ⊢
  intro cell hc
  rcases Memory.mem_write hc with hc | hc
  · rw [hc]; exact h
  · exact hm cell hc

theorem Memory.writeAll_bounded {m : Memory} {a : Nat} {bs : List Byte} (hm : m.bounded = true)
    (h : a + bs.length ≤ tpMaxLen) : (m.writeAll a bs).bounded = true := by
  induction bs generalizing m a with
  | nil => exact hm
  | cons b bs ih =>
    simp only [List.length_cons] at h
    exact ih (Memory.write_bounded b hm (by omega)) (by omega)

/-- What MemRead answers. -/
theorem memRead_ok {m : Memory} {a k : Nat} (h : a + k ≤ tpMaxLen) :
    memRead m a k = .ok ((List.range k).map fun j => m.read (a + j)) := by
  simp [memRead, h]

/-- What MemWrite answers. -/
theorem memWrite_ok {m : Memory} {a : Nat} {v : List Byte} (h : a + v.length ≤ tpMaxLen) :
    memWrite m a v = .ok (m.writeAll a v) := by
  simp [memWrite, h]

/-- The offset of a packet. -/
theorem packetOffset_ok {q : Byte} (h : q ≠ 0#8) : packetOffset q = .ok ((q.toNat - 1) * tpChunk) := by
  simp [packetOffset, h]

/-- Equal reads make equal buffers: the form is canonical. -/
theorem Memory.ext_from {m m' : Memory} {lo lo' : Nat} (hm : m.wfFrom lo = true) (hm' : m'.wfFrom lo' = true)
    (h : ∀ a, m.read a = m'.read a) : m = m' := by
  induction m generalizing m' lo lo' with
  | nil =>
    cases m' with
    | nil => rfl
    | cons cell rest =>
      obtain ⟨k, v⟩ := cell
      simp only [Memory.wfFrom, Bool.and_eq_true, decide_eq_true_eq] at hm'
      have := h k
      simp [Memory.read] at this
      exact absurd this.symm hm'.1.2
  | cons cell rest ih =>
    obtain ⟨k, v⟩ := cell
    simp only [Memory.wfFrom, Bool.and_eq_true, decide_eq_true_eq] at hm
    cases m' with
    | nil =>
      have := h k
      simp [Memory.read] at this
      exact absurd this hm.1.2
    | cons cell' rest' =>
      obtain ⟨k', v'⟩ := cell'
      simp only [Memory.wfFrom, Bool.and_eq_true, decide_eq_true_eq] at hm'
      have hlow : ∀ a, a ≤ k → Memory.read rest a = unlistedByte := fun a ha => Memory.read_of_lt hm.2 (by omega)
      have hlow' : ∀ a, a ≤ k' → Memory.read rest' a = unlistedByte := fun a ha => Memory.read_of_lt hm'.2 (by omega)
      have hk : k = k' := by
        rcases Nat.lt_trichotomy k k' with hlt | heq | hgt
        · have := h k
          rw [Memory.read, if_pos rfl, Memory.read, if_neg (by omega), hlow' k (by omega)] at this
          exact absurd this hm.1.2
        · exact heq
        · have := h k'
          rw [Memory.read, if_neg (by omega), hlow k' (by omega), Memory.read, if_pos rfl] at this
          exact absurd this.symm hm'.1.2
      subst hk
      have hv : v = v' := by simpa [Memory.read] using h k
      subst hv
      rw [ih hm.2 hm'.2]
      intro a
      by_cases ha : k = a
      · subst ha; rw [hlow _ (Nat.le_refl _), hlow' _ (Nat.le_refl _)]
      · simpa [Memory.read, ha] using h a

theorem Memory.ext {m m' : Memory} (hm : m.wf = true) (hm' : m'.wf = true) (h : ∀ a, m.read a = m'.read a) : m = m' :=
  Memory.ext_from hm hm' h

end Sys2Proof.Machine
end

