-- ==== Sys2Proof/Laws/Ops.lean ====
section
/-! SUPPORT. Everything the shared operations can do, said once: beginning and ending an operation on a node, the
receive path, Transmit and the frames it lets out. -/

namespace Sys2Proof.Machine

/-! ### `onNode` -/

/-- A handle of no node: ERR_HANDLE and nothing else (44_node_registry.md R303). -/
theorem onNode_unknown {h : Nat} {s : State} (op : NodeOp) (hh : s.nodeCount ≤ h) :
    onNode h s op = .next (s.returned .errHandle) := by
  simp [onNode, hh]

/-- An operation on a node in use that runs to its end. -/
theorem onNode_ok {h : Nat} {s : State} {n : Node} {op : NodeOp} {r : NodeRun} {st : Status} (hl : Live s h n)
    (ho : op s.cfg { node := n, out := [], draws := s.txDraws } = .ok (r, st)) :
    onNode h s op = .next (s.finish h r st) := by
  simp [onNode, Nat.not_le.2 hl.1, hl.2, ho]

/-- An operation that ends in a Discard changes nothing and returns OK (60_exceptions.md R321). -/
theorem onNode_discard {h : Nat} {s : State} {n : Node} {op : NodeOp} {why : Discard} (hl : Live s h n)
    (ho : op s.cfg { node := n, out := [], draws := s.txDraws } = .error (.discard why)) :
    onNode h s op = .next (s.returned .ok) := by
  simp [onNode, Nat.not_le.2 hl.1, hl.2, ho]

/-- An operation whose node-level run faults. -/
theorem onNode_fault {h : Nat} {s : State} {n : Node} {op : NodeOp} {why : Fault} (hl : Live s h n)
    (ho : op s.cfg { node := n, out := [], draws := s.txDraws } = .error (.fault why)) :
    onNode h s op = .fault why := by
  simp [onNode, Nat.not_le.2 hl.1, hl.2, ho]

/-- Everything an operation on a node can answer with a next state. -/
theorem onNode_cases {h : Nat} {s t : State} {op : NodeOp} (ho : onNode h s op = .next t) :
    (s.nodeCount ≤ h ∧ t = s.returned .errHandle) ∨
    ∃ n, Live s h n ∧
      ((∃ r st, op s.cfg { node := n, out := [], draws := s.txDraws } = .ok (r, st) ∧ t = s.finish h r st) ∨
       (∃ why, op s.cfg { node := n, out := [], draws := s.txDraws } = .error (.discard why) ∧
         t = s.returned .ok)) := by
  unfold onNode at ho
  split at ho
  · exact .inl ⟨‹_›, by cases ho; rfl⟩
  · rename_i hlt
    split at ho
    · cases ho
    · rename_i n hn
      refine .inr ⟨n, ⟨Nat.not_le.1 hlt, hn⟩, ?_⟩
      split at ho
      · rename_i r st hr
        exact .inl ⟨r, st, hr, by cases ho; rfl⟩
      · rename_i why hr
        exact .inr ⟨why, hr, by cases ho; rfl⟩
      · cases ho

/-- When an operation on a node can fault. -/
theorem onNode_fault_cases {h : Nat} {s : State} {op : NodeOp} {why : Fault} (ho : onNode h s op = .fault why) :
    (h < s.nodeCount ∧ s.nodes[h]? = none ∧ why = .noRecord) ∨
    ∃ n, Live s h n ∧ op s.cfg { node := n, out := [], draws := s.txDraws } = .error (.fault why) := by
  unfold onNode at ho
  split at ho
  · cases ho
  · rename_i hlt
    split at ho
    · exact .inl ⟨Nat.not_le.1 hlt, ‹_›, by cases ho; rfl⟩
    · rename_i n hn
      refine .inr ⟨n, ⟨Nat.not_le.1 hlt, hn⟩, ?_⟩
      split at ho
      · cases ho
      · cases ho
      · rename_i w hr
        cases ho; exact hr

/-- No operation on a node is refused. -/
theorem onNode_not_refused {h : Nat} {s : State} {op : NodeOp} {why : Refusal} : onNode h s op ≠ .refused why := by
  unfold onNode
  split
  · simp
  · split
    · simp
    · split <;> simp

/-- A node in use lies within the array. -/
theorem Live.lt {s : State} {h : Nat} {n : Node} (hl : Live s h n) : h < s.nodes.length :=
  (List.getElem?_eq_some_iff.1 hl.2).1

/-- Writing back the record that stands there changes nothing. -/
theorem Live.set_self {s : State} {h : Nat} {n : Node} (hl : Live s h n) : s.nodes.set h n = s.nodes := by
  obtain ⟨hlt, he⟩ := List.getElem?_eq_some_iff.1 hl.2
  subst he
  exact List.set_getElem_self hlt

/-! ### The receive path (41_dispatcher.md R160) -/

section Receive
variable {h : Nat} {s : State} {n : Node} {m : Message} {k : Config → NodeRun → Except Stop NodeRun}

theorem receive_unknown (hh : s.nodeCount ≤ h) : receive h m k s = .next (s.returned .errHandle) :=
  onNode_unknown _ hh

/-- Listen-only: the frame goes to the application as it stands (R167). -/
theorem receive_listenOnly (hl : Live s h n) (hc : s.cfg.listenOnly = true) :
    receive h m k s = .next (s.ends h n [.deliver m] s.txDraws .ok) := by
  rw [receive, State.ends_eq]
  exact onNode_ok hl (by simp [hc, deliver, NodeRun.emit])

/-- A frame for another address (R161). -/
theorem receive_notAddressed (hl : Live s h n) (hc : s.cfg.listenOnly = false) (hg : m.dst ≠ addrGlobal)
    (hd : m.dst ≠ n.addr) : receive h m k s = .next (s.returned .ok) := by
  rw [receive]
  exact onNode_discard (why := .notAddressed) hl (by simp [hc, hg, hd])

/-- A frame the node hears goes to its handler. -/
theorem receive_heard (hl : Live s h n) (hd : Hears s n m.dst) :
    receive h m k s = onNode h s fun c r => withStatus .ok (k c r) := by
  have hf : ¬(m.dst ≠ addrGlobal ∧ m.dst ≠ n.addr) := by
    rcases hd.2 with hd | hd <;> simp [hd]
  simp [receive, onNode, Nat.not_le.2 hl.1, hl.2, hd.1, hf]

/-- A handler that runs to its end. -/
theorem receive_ok {r : NodeRun} (hl : Live s h n) (hd : Hears s n m.dst)
    (hk : k s.cfg { node := n, out := [], draws := s.txDraws } = .ok r) :
    receive h m k s = .next (s.finish h r .ok) := by
  rw [receive_heard hl hd]
  exact onNode_ok hl (by simp [hk, withStatus])

/-- A handler that discards its frame. -/
theorem receive_discard {why : Discard} (hl : Live s h n) (hd : Hears s n m.dst)
    (hk : k s.cfg { node := n, out := [], draws := s.txDraws } = .error (.discard why)) :
    receive h m k s = .next (s.returned .ok) := by
  rw [receive_heard hl hd]
  exact onNode_discard (why := why) hl (by simp [hk, withStatus])

/-- The receive path uses its handler only at the node's record: equal there, equal everywhere. -/
theorem receive_congr {k' : Config → NodeRun → Except Stop NodeRun} (hk : ∀ r, k s.cfg r = k' s.cfg r) :
    receive h m k s = receive h m k' s := by
  simp only [receive, onNode, hk]

end Receive

/-! ### Transmit (41_dispatcher.md R175, R176) -/

section Transmit
variable (c : Config) (m : Message) (r : NodeRun)

@[simp] theorem transmit_node : (transmit c m r).1.node = r.node := by
  unfold transmit; split <;> rfl

theorem transmit_out : (transmit c m r).1.out =
    r.out ++ (if txBarred c r.node then [] else [.txFrame (messageToFrame { m with src := r.node.addr })]) := by
  unfold transmit; split <;> simp

theorem transmit_draws : (transmit c m r).1.draws = r.draws + gatedDraws c r.node := by
  unfold transmit gatedDraws; split <;> simp

theorem transmit_status : txStatus (transmit c m r).2 = gatedStatus c r.node r.draws := by
  unfold transmit gatedStatus
  split
  · rfl
  · rfl

/-- Transmit on a run, whole, for a message whose frame is that of a transmitted form. -/
theorem transmit_form (t : TxForm) (ht : messageToFrame { m with src := r.node.addr } = encodeTx t) :
    (transmit c m r).1 =
      { node := r.node, out := r.out ++ gatedFrame c r.node t, draws := r.draws + gatedDraws c r.node } := by
  unfold transmit gatedFrame gatedDraws
  split <;> simp [emitFrame, ht]

end Transmit

/-! ### The frames of the engine's messages are those of the table's transmit rows (30_encoding.md R113) -/

theorem frame_claim (n : Node) : messageToFrame (claimMessage n) = encodeTx (.addressClaimed n.addr n.name) :=
  congrArg (Frame.mk · (nameBytes n.name)) (encodeId_claim n.addr)

theorem frame_cannotClaim (n : Node) (hn : n.addr = addrNull) :
    messageToFrame (claimMessage n) = encodeTx (.cannotClaimAddress n.name) := by
  rw [frame_claim, hn]; exact congrArg (Frame.mk · (nameBytes n.name)) (by decide)

/-- A connection-management frame of any kind. -/
theorem frame_cm (n : Node) (p : Byte) (data : List Byte) :
    messageToFrame (cmMessage n p data) = { id := txCmWord p n.addr, data := data } :=
  congrArg (Frame.mk · data) (encodeId_cm n.addr p)

theorem frame_cm_rts (n : Node) (p : Byte) (len : BitVec 16) (k : Byte) (pgn : Pgn) :
    messageToFrame (cmMessage n p (cmLenBytes ctrlRts len k rtsMaxPackets pgn)) =
      encodeTx (.rts p n.addr len k pgn) := frame_cm n p _

theorem frame_cm_bam (n : Node) (len : BitVec 16) (k : Byte) (pgn : Pgn) :
    messageToFrame (cmMessage n addrGlobal (cmLenBytes ctrlBam len k reservedByte pgn)) =
      encodeTx (.bam n.addr len k pgn) :=
  congrArg (Frame.mk · (cmLenBytes ctrlBam len k reservedByte pgn)) (encodeId_bam n.addr)

theorem frame_cm_cts (n : Node) (p k : Byte) (pgn : Pgn) :
    messageToFrame (cmMessage n p (cmBytes ctrlCts k 1#8 reservedByte reservedByte pgn)) =
      encodeTx (.cts p n.addr k pgn) := frame_cm n p _

theorem frame_cm_eoma (n : Node) (p : Byte) (len : BitVec 16) (k : Byte) (pgn : Pgn) :
    messageToFrame (cmMessage n p (cmLenBytes ctrlEoma len k reservedByte pgn)) =
      encodeTx (.eoma p n.addr len k pgn) := frame_cm n p _

theorem frame_cm_abort (n : Node) (p reason : Byte) (pgn : Pgn) :
    messageToFrame (cmMessage n p (cmBytes ctrlAbort reason reservedByte reservedByte reservedByte pgn)) =
      encodeTx (.abort p n.addr reason pgn) := frame_cm n p _

theorem frame_dt (n : Node) (q : Byte) (chunk : List Byte) :
    messageToFrame (dtMessage n (q :: chunk)) = encodeTx (.dt n.tpPeer n.addr q chunk) :=
  congrArg (Frame.mk · (q :: chunk)) (encodeId_dt n.addr n.tpPeer)

/-- A single application frame: the PDU-specific byte is the destination or the PGN's low byte (40_codec.md R141). -/
theorem frame_single (m : Message) (a : Byte) :
    messageToFrame { m with src := a } = encodeTx (.appSingle m.prio m.pgn (psOf m.pgn m.dst) a m.data) := by
  have h : (1#1 ++ 0#2 : BitVec 3) = 4#3 := by decide
  simp only [messageToFrame, encodeId, encodeTx, h]

end Sys2Proof.Machine
end

