-- ==== Sys2Proof/Laws/AddressClaim.lean ====
section
/-! SUPPORT. What the procedures of the address-claim engine can do (42_address_claim.md), each said once, and that
they keep the invariants of 10_state.md R43. -/

namespace Sys2Proof.Machine

/-! ### The availability table -/

theorem Node.occupied_eq {n : Node} {a : Nat} (h : a < 254) : n.occupied a = n.acTable[a] := by
  simp [Node.occupied, List.getD_eq_getElem?_getD, h]

theorem Node.occupied_of_not_lt {n : Node} {a : Nat} (h : ¬a < 254) : n.occupied a = true := by
  simp [Node.occupied, List.getD_eq_getElem?_getD, h]

/-- An entry after a write of another or the same. -/
theorem occupied_set (n : Node) (t : Vector Bool acTableSize) (a b : Nat) (hn : n.acTable = t.setIfInBounds a true)
    (hb : b < 254) : n.occupied b = if a = b then true else t[b] := by
  rw [Node.occupied_eq hb]
  simp only [hn, Vector.getElem_setIfInBounds hb]

section Mark
variable (c : Config) (a : Nat) (n : Node)

@[simp] theorem mark_addr : (mark c a n).addr = n.addr := by unfold mark; split <;> [split; skip] <;> rfl
@[simp] theorem mark_name : (mark c a n).name = n.name := by unfold mark; split <;> [split; skip] <;> rfl
@[simp] theorem mark_cannotClaim : (mark c a n).cannotClaim = n.cannotClaim := by
  unfold mark; split <;> [split; skip] <;> rfl
@[simp] theorem mark_tickMs : (mark c a n).tickMs = n.tickMs := by unfold mark; split <;> [split; skip] <;> rfl
@[simp] theorem mark_tpBuf : (mark c a n).tpBuf = n.tpBuf := by unfold mark; split <;> [split; skip] <;> rfl
@[simp] theorem mark_tpKind : (mark c a n).tpKind = n.tpKind := by unfold mark; split <;> [split; skip] <;> rfl

/-- Mark writes the table and the counter, nothing else. -/
theorem mark_eq : mark c a n = { n with acTable := (mark c a n).acTable, acFree := (mark c a n).acFree } := by
  unfold mark; split <;> [split; skip] <;> rfl

/-- After Mark the slot is occupied and every other slot is as before. -/
theorem mark_occupied {b : Nat} (hb : b < 254) : (mark c a n).occupied b = if a = b then true else n.occupied b := by
  unfold mark
  split
  · split
    · by_cases hab : a = b
      · subst hab; simp [*]
      · simp [hab]
    · rw [occupied_set _ n.acTable a b rfl hb, Node.occupied_eq hb]
  · rw [occupied_set _ n.acTable a b rfl hb, Node.occupied_eq hb]

theorem mark_free_le : (mark c a n).acFree ≤ n.acFree := by
  unfold mark; split <;> [split; skip] <;> simp

/-- Counting free slots after one is taken. -/
theorem count_setTrue (t : Vector Bool acTableSize) (ha : a < 254) :
    (t.setIfInBounds a true).toList.count false = t.toList.count false - (if t[a] = false then 1 else 0) := by
  have h : (t.setIfInBounds a true).toList = t.toList.set a true := by simp
  rw [h, List.count_set (by simpa using ha)]
  simp

/-- With the guarded counter, Mark keeps it equal to the number of free slots (I3). -/
theorem mark_freeSlots (hg : c.acDecrementGuarded = true) (ha : a < 254) (hf : n.acFree = freeSlots n) :
    (mark c a n).acFree = freeSlots (mark c a n) := by
  unfold mark
  rw [if_pos hg]
  split
  · exact hf
  · rename_i ho
    rw [Node.occupied_eq ha] at ho
    simp only [freeSlots, count_setTrue a n.acTable ha]
    rw [if_pos (by simpa using ho), hf, freeSlots]

end Mark

/-- The table with one entry. -/
theorem selfOnly_occupied {n : Node} {a : Byte} {b : Nat} (hn : n.acTable = selfOnlyTable a) (hb : b < 254) :
    n.occupied b = decide (a.toNat = b) := by
  rw [occupied_set n (Vector.replicate acTableSize false) a.toNat b hn hb]
  by_cases h : a.toNat = b <;> simp [h]

theorem selfOnly_count {a : Byte} (ha : a.toNat < 254) : (selfOnlyTable a).toList.count false = 253 := by
  rw [selfOnlyTable, count_setTrue a.toNat (Vector.replicate acTableSize false) ha]
  simp

/-! ### The address search (R197) -/

/-- What the search finds is free, lies `j < fuel` candidates on, and every candidate before it is occupied. -/
theorem scanFree_some {n : Node} {fuel s a : Nat} (hs : s < 254) (h : scanFree n fuel s = some a) :
    ∃ j < fuel, a = (s + j) % 254 ∧ n.occupied a = false ∧ ∀ i < j, n.occupied ((s + i) % 254) = true := by
  induction fuel generalizing s with
  | zero => simp [scanFree] at h
  | succ fuel ih =>
    unfold scanFree at h
    split at h
    · rename_i ho
      obtain ⟨j, hj, ha, hf, hb⟩ := ih (Nat.mod_lt _ (by decide)) h
      refine ⟨j + 1, by omega, ?_, hf, ?_⟩
      · omega
      · intro i hi
        rcases i with _ | i
        · rw [Nat.add_zero, Nat.mod_eq_of_lt hs]; exact ho
        · have := hb i (by omega)
          rwa [show (s + (i + 1)) % 254 = ((s + 1) % 254 + i) % 254 from by omega]
    · rename_i ho
      cases h
      exact ⟨0, by omega, by rw [Nat.add_zero, Nat.mod_eq_of_lt hs], by simpa using ho, by simp⟩

/-- A search that finds nothing has met only occupied candidates. -/
theorem scanFree_none {n : Node} {fuel s : Nat} (hs : s < 254) (h : scanFree n fuel s = none) :
    ∀ i < fuel, n.occupied ((s + i) % 254) = true := by
  induction fuel generalizing s with
  | zero => simp
  | succ fuel ih =>
    unfold scanFree at h
    split at h
    · rename_i ho
      intro i hi
      rcases i with _ | i
      · rw [Nat.add_zero, Nat.mod_eq_of_lt hs]; exact ho
      · have := ih (Nat.mod_lt _ (by decide)) h i (by omega)
        rwa [show (s + (i + 1)) % 254 = ((s + 1) % 254 + i) % 254 from by omega]
    · cases h

/-- The scan finds the first free candidate within its fuel. -/
theorem scanFree_first {n : Node} (fuel s j : Nat) (hs : s < 254) (hj : j < fuel)
    (hf : n.occupied ((s + j) % 254) = false) (hb : ∀ i < j, n.occupied ((s + i) % 254) = true) :
    scanFree n fuel s = some ((s + j) % 254) := by
  induction fuel generalizing s j with
  | zero => omega
  | succ fuel ih =>
    unfold scanFree
    rcases j with _ | j
    · rw [Nat.add_zero, Nat.mod_eq_of_lt hs] at hf
      simp [hf, Nat.mod_eq_of_lt hs]
    · have h0 := hb 0 (by omega)
      rw [Nat.add_zero, Nat.mod_eq_of_lt hs] at h0
      rw [h0, if_pos rfl]
      have e : ∀ i, ((s + 1) % 254 + i) % 254 = (s + (i + 1)) % 254 := fun i => by omega
      rw [ih ((s + 1) % 254) j (Nat.mod_lt _ (by decide)) (by omega) (by rw [e]; exact hf)
        (fun i hi => by rw [e]; exact hb _ (by omega)), e]

/-- Everything UpdateAddress can answer with an address. -/
theorem updateAddress_some {c : Config} {n n' : Node} (h : updateAddress c n = some n') :
    n.acFree ≠ 0 ∧ ∃ j < 253, ∃ a, a = (n.addr.toNat + 1 + j) % 254 ∧ n.occupied a = false ∧
      (∀ i < j, n.occupied ((n.addr.toNat + 1 + i) % 254) = true) ∧
      n' = mark c a { n with addr := BitVec.ofNat 8 a } := by
  unfold updateAddress at h
  split at h
  · cases h
  · rename_i hf
    refine ⟨hf, ?_⟩
    split at h
    · cases h
    · rename_i a ha
      obtain ⟨j, hj, haj, hfree, hb⟩ := scanFree_some (Nat.mod_lt _ (by decide)) ha
      refine ⟨j, hj, a, ?_, hfree, ?_, by cases h; rfl⟩
      · omega
      · intro i hi
        have := hb i hi
        rwa [show ((n.addr.toNat + 1) % 254 + i) % 254 = (n.addr.toNat + 1 + i) % 254 from by omega] at this

/-- UpdateAddress fails when the counter is 0 or every candidate is occupied. -/
theorem updateAddress_none {c : Config} {n : Node} (h : updateAddress c n = none) :
    n.acFree = 0 ∨ ∀ i < 253, n.occupied ((n.addr.toNat + 1 + i) % 254) = true := by
  unfold updateAddress at h
  split at h
  · exact .inl ‹_›
  · split at h
    · rename_i ha
      refine .inr fun i hi => ?_
      have := scanFree_none (Nat.mod_lt _ (by decide)) ha i hi
      rwa [show ((n.addr.toNat + 1) % 254 + i) % 254 = (n.addr.toNat + 1 + i) % 254 from by omega] at this
    · cases h

/-! ### The engine's actions on a run -/

/-- `SendClaim` (R193). -/
theorem sendClaim_eq (c : Config) (r : NodeRun) : sendClaim c r =
    { node := r.node, out := r.out ++ gatedFrame c r.node (.addressClaimed r.node.addr r.node.name),
      draws := r.draws + gatedDraws c r.node } :=
  transmit_form c _ r _ (frame_claim r.node)

/-- `EnterCannotClaim` (R198): its frame passes the gate whatever the flags say. -/
theorem enterCannotClaim_eq (r : NodeRun) : enterCannotClaim r =
    { node := { r.node with addr := addrNull, cannotClaim := true },
      out := r.out ++ [.txFrame (encodeTx (.cannotClaimAddress r.node.name))], draws := r.draws + 1 } := by
  simp only [enterCannotClaim, frame_cannotClaim { r.node with addr := addrNull } rfl]
  rfl

/-! ### Invariants -/

/-- The address-claim invariant looks only at its own fields. -/
theorem AcInv.congr {c : Config} {n n' : Node} (hi : AcInv c n) (h1 : n'.addr = n.addr) (h2 : n'.acTable = n.acTable)
    (h3 : n'.acFree = n.acFree) (h4 : n'.cannotClaim = n.cannotClaim) (h5 : n'.tickMs = n.tickMs) : AcInv c n' := by
  obtain ⟨a, b, d, e, f, g, i⟩ := hi
  have ho : ∀ x, n'.occupied x = n.occupied x := fun x => by simp [Node.occupied, h2]
  exact ⟨by rwa [h1], by rwa [h1, h4], by rw [h4, ho, h1]; exact d,
    by simpa [freeSlots, h2, h3] using e, by rwa [h3], by rwa [h5], by rwa [h5]⟩

/-- The transport invariant holds of a node without a connection. -/
theorem TpInv.of_none {n : Node} (hk : n.tpKind = .none) (hc : n.tpCts = false) : TpInv n where
  cts_p2p h := by simp [hc] at h
  rem_le h := absurd hk h
  seq_rem h := absurd hk h
  bam_peer h := by simp [hk] at h
  bam_left h := by simp [hk] at h
  wait_left h := by simp [hk] at h
  timer_lt h := absurd hk h

theorem TpInv.closed (n : Node) : TpInv n.closed := TpInv.of_none rfl rfl

/-- Mark keeps the node's invariant. -/
theorem mark_acInv {c : Config} {n : Node} {a : Nat} (hi : AcInv c n) (ha : a < 254) : AcInv c (mark c a n) where
  addr_le := by simpa using hi.addr_le
  addr_null := by simpa using hi.addr_null
  self_occupied h := by
    have hs := hi.self_occupied (by simpa using h)
    by_cases hlt : n.addr.toNat < 254
    · rw [mark_addr, mark_occupied c a n hlt, hs]; simp
    · exact Node.occupied_of_not_lt (by simpa using hlt)
  free_count hg := mark_freeSlots c a n hg ha (hi.free_count hg)
  free_le := Nat.le_trans (mark_free_le c a n) hi.free_le
  tick_pos := by simpa using hi.tick_pos
  tick_lt := by simpa using hi.tick_lt

/-- The transport fields of a marked node are those it had. -/
theorem mark_tpInv {c : Config} {n : Node} {a : Nat} (hi : TpInv n) : TpInv (mark c a n) := by
  rw [mark_eq]; exact ⟨hi.1, hi.2, hi.3, hi.4, hi.5, hi.6, hi.7⟩

/-- A move to a free address keeps the invariant of a node that has not given up. -/
theorem updateAddress_acInv {c : Config} {n n' : Node} (hi : AcInv c n) (hc : n.cannotClaim = false)
    (h : updateAddress c n = some n') : AcInv c n' := by
  obtain ⟨-, j, -, a, ha, -, -, rfl⟩ := updateAddress_some h
  have hlt : a < 254 := by omega
  have hm : (BitVec.ofNat 8 a).toNat = a := by simp; omega
  refine ⟨by simp; omega, ?_, fun _ => ?_, fun hg => ?_, ?_, by simpa using hi.tick_pos, by simpa using hi.tick_lt⟩
  · simp only [mark_addr, mark_cannotClaim, hc, Bool.false_eq_true, iff_false]
    intro hn
    have : a = 254 := by rw [← hm, hn]; rfl
    omega
  · rw [mark_addr, hm, mark_occupied _ _ _ hlt]; simp
  · exact mark_freeSlots c a _ hg hlt (hi.free_count hg)
  · exact Nat.le_trans (mark_free_le _ _ _) hi.free_le

/-- A node that has given up keeps its table, its counter and the invariant. -/
theorem enterCannotClaim_acInv {c : Config} {n : Node} (hi : AcInv c n) :
    AcInv c { n with addr := addrNull, cannotClaim := true } :=
  ⟨Nat.le_refl 254, by simp, by simp, hi.free_count, hi.free_le, hi.tick_pos, hi.tick_lt⟩

/-- The table of a node that knows only itself (R191, R200). -/
theorem selfOnly_acInv {c : Config} {n : Node} (ht : n.acTable = selfOnlyTable n.addr) (hf : n.acFree = 253)
    (hc : n.cannotClaim = false) (ha : n.addr.toNat ≤ 253) (hp : 0 < n.tickMs) (hw : n.tickMs < 2 ^ c.tickW) :
    AcInv c n where
  addr_le := by omega
  addr_null := by
    simp only [hc, Bool.false_eq_true, iff_false]
    intro hn
    rw [hn] at ha
    exact absurd ha (by decide)
  self_occupied _ := by rw [selfOnly_occupied ht (by omega)]; simp
  free_count _ := by rw [hf, freeSlots, ht, selfOnly_count (by omega)]
  free_le := by omega
  tick_pos := hp
  tick_lt := hw

/-- A Claimed node is not at the null address. -/
theorem AcInv.addr_lt {c : Config} {n : Node} (hi : AcInv c n) (hc : n.cannotClaim = false) : n.addr.toNat ≤ 253 := by
  have h := hi.addr_le
  rcases Nat.lt_or_ge n.addr.toNat 254 with h' | h'
  · omega
  · have he : n.addr = addrNull := by apply BitVec.eq_of_toNat_eq; simp [addrNull]; omega
    rw [hi.addr_null.1 he] at hc
    cases hc

/-- What the claim handler leaves of a node's other fields, case by case (R194). -/
theorem contend_cases (c : Config) (their : Name64) (r : NodeRun) :
    (¬their.toNat < r.node.name.toNat ∧ contend c their r = sendClaim c r) ∨
    (their.toNat < r.node.name.toNat ∧ ∃ n, updateAddress c r.node.closed = some n ∧
      contend c their r = sendClaim c (r.setNode n)) ∨
    (their.toNat < r.node.name.toNat ∧ updateAddress c r.node.closed = none ∧
      contend c their r = enterCannotClaim r.close) := by
  unfold contend
  split
  · refine .inr ?_
    rename_i hlt
    cases hu : updateAddress c r.node.closed with
    | none => exact .inr ⟨hlt, rfl, by simp [hu]⟩
    | some n => exact .inl ⟨hlt, n, rfl, by simp [hu]; rfl⟩
  · exact .inl ⟨‹_›, rfl⟩

/-- The contention branch keeps the invariant and the buffer. -/
theorem contend_inv {c : Config} {their : Name64} {r : NodeRun} (hi : NodeInv c r.node)
    (hc : r.node.cannotClaim = false) :
    NodeInv c (contend c their r).node ∧ (contend c their r).node.tpBuf = r.node.tpBuf := by
  have hcl : AcInv c r.node.closed := hi.ac.congr rfl rfl rfl rfl rfl
  rcases contend_cases c their r with ⟨-, h⟩ | ⟨-, n, hu, h⟩ | ⟨-, -, h⟩
  · rw [h, sendClaim_eq]; exact ⟨hi, rfl⟩
  · rw [h, sendClaim_eq]
    have ha := updateAddress_acInv hcl hc hu
    obtain ⟨-, j, -, a, -, -, -, hn⟩ := updateAddress_some hu
    refine ⟨⟨ha, ?_⟩, ?_⟩
    · simp only [NodeRun.setNode_node, hn]
      exact mark_tpInv (TpInv.of_none rfl rfl)
    · simp [hn]
  · rw [h, enterCannotClaim_eq]
    exact ⟨⟨enterCannotClaim_acInv hcl, TpInv.of_none rfl rfl⟩, rfl⟩

/-- The claim handler keeps the invariant and the buffer (R194). -/
theorem acOnClaim_inv {c : Config} {src : Byte} {their : Name64} {r : NodeRun} (hi : NodeInv c r.node) :
    NodeInv c (acOnClaim c src their r).node ∧ (acOnClaim c src their r).node.tpBuf = r.node.tpBuf := by
  unfold acOnClaim
  split
  · exact ⟨hi, rfl⟩
  · rename_i hc
    have hr : NodeInv c (if src = r.node.addr then contend c their r else r).node ∧
        (if src = r.node.addr then contend c their r else r).node.tpBuf = r.node.tpBuf := by
      split
      · exact contend_inv hi (by simpa using hc)
      · exact ⟨hi, rfl⟩
    simp only
    split
    · rename_i hs
      exact ⟨⟨mark_acInv hr.1.ac hs, mark_tpInv hr.1.tp⟩, by simpa using hr.2⟩
    · exact hr

/-- The request handler keeps the invariant and the buffer (R199). -/
theorem acOnRequest_inv {c : Config} {r : NodeRun} (hi : NodeInv c r.node) :
    NodeInv c (acOnRequest c r).node ∧ (acOnRequest c r).node.tpBuf = r.node.tpBuf := by
  unfold acOnRequest
  split
  · exact ⟨hi, rfl⟩
  · rename_i hc
    rw [sendClaim_eq]
    have hc : r.node.cannotClaim = false := by simpa using hc
    have ha : AcInv c (clearTable r.node) :=
      selfOnly_acInv (by simp [clearTable]) (by simp [clearTable]) (by simpa [clearTable] using hc)
        (by simpa [clearTable] using hi.ac.addr_lt hc) (by simpa [clearTable] using hi.ac.tick_pos)
        (by simpa [clearTable] using hi.ac.tick_lt)
    have ht : TpInv (clearTable r.node) := by
      unfold clearTable; exact ⟨hi.tp.1, hi.tp.2, hi.tp.3, hi.tp.4, hi.tp.5, hi.tp.6, hi.tp.7⟩
    exact ⟨⟨ha, ht⟩, by simp [clearTable]⟩

/-- `AC_Init` on a run (R191, R192). -/
theorem acInit_eq (c : Config) (name : Name64) (pref : Byte) (r : NodeRun) : acInit c name pref r =
    { node := { r.node with addr := pref, acTable := selfOnlyTable pref, acFree := 253, name := name,
                            cannotClaim := false },
      out := r.out ++ (if c.listenOnly then [] else [.txFrame (encodeTx (.addressClaimed pref name))]) ++
        (if 128 ≤ pref.toNat ∧ pref.toNat ≤ 247 then [.startupDelay 250] else []),
      draws := r.draws + (if c.listenOnly then 0 else 1) } := by
  simp only [acInit, sendClaim_eq, NodeRun.setNode_node, NodeRun.setNode_out, NodeRun.setNode_draws, gatedFrame,
    gatedDraws, txBarred, Bool.or_false, startupDelayLo, startupDelayHi, startupDelayMs, NodeRun.emit]
  split <;> simp

end Sys2Proof.Machine
end

