-- ==== Sys2Proof/Laws/Decode.lean ====
section
/-! SUPPORT. What the decoder can answer, said once (30_encoding.md R111, R112): its inversion lemmas, routing rule 1's
test, and the identifier under the table's mask. -/

namespace Sys2Proof

/-! ### Routing rule 1's test (41_dispatcher.md R162) -/

/-- A Request for Address-Claimed has the Request PGN and begins with the three bytes of R95. -/
theorem isAcRequest_inv {c : Config} {pgn : Pgn} {data : List Byte} (h : isAcRequest c pgn data = true) :
    pgn = c.pgnRequest ∧ ∃ extra, data = requestAcBytes ++ extra := by
  unfold isAcRequest at h
  split at h
  · rename_i b0 b1 b2 rest
    simp only [Bool.and_eq_true, decide_eq_true_eq] at h
    refine ⟨h.1, rest, ?_⟩
    have h0 := congrArg (fun v => byteOf v 0) h.2
    have h1 := congrArg (fun v => byteOf v 1) h.2
    have h2 := congrArg (fun v => byteOf v 2) h.2
    simp only [byteOf_le24_0, byteOf_le24_1, byteOf_le24_2] at h0 h1 h2
    rw [h0, h1, h2]
    rfl
  · cases h

/-- The converse. -/
theorem isAcRequest_requestAc (c : Config) (extra : List Byte) : isAcRequest c c.pgnRequest (requestAcBytes ++ extra) = true := by
  simp only [requestAcBytes, isAcRequest, List.cons_append, decide_true, Bool.true_and, le24_byteOf]

/-- A first byte that is not 0x00 makes it none. -/
theorem isAcRequest_of_ne {c : Config} {pgn : Pgn} {x : Byte} {l : List Byte} (h : x ≠ 0#8) : isAcRequest c pgn (x :: l) = false := by
  cases hh : isAcRequest c pgn (x :: l) with
  | false => rfl
  | true =>
    obtain ⟨-, e, he⟩ := isAcRequest_inv hh
    simp [requestAcBytes] at he
    exact absurd (he.1.trans (by decide)) h

/-! ### Valid tuples (40_codec.md R142) -/

/-- What Decode gives is a valid tuple. -/
theorem decodeId_valid (id : IdWord) : validTuple (decodeId id).pgn (decodeId id).dst = true := by
  by_cases h : pfIsPdu1 (id.extractLsb' 16 8) = true
  · simp only [decodeId, h, if_true]
    simp only [validTuple, pgn_high, pgnIsPdu1, pgn_pf, h, pgn_ps, if_true, decide_true, Bool.and_self]
  · have h' := Bool.eq_false_iff.2 h
    simp only [decodeId, h', Bool.false_eq_true, if_false]
    simp only [validTuple, pgn_high, pgnIsPdu1, pgn_pf, h', Bool.false_eq_true, if_false, decide_true, Bool.and_self]

/-- The block's own PGNs are valid with every destination. -/
theorem validTuple_own (d : Byte) :
    validTuple pgnTpCm d = true ∧ validTuple pgnTpDt d = true ∧ validTuple pgnAddressClaimed d = true := by
  have a : pgnIsPdu1 pgnTpCm = true := by decide
  have b : pgnIsPdu1 pgnTpDt = true := by decide
  have e : pgnIsPdu1 pgnAddressClaimed = true := by decide
  simp only [validTuple, a, b, e, if_true]
  decide

/-! ### Inversion -/

/-- Seven bytes, written out. -/
theorem sevenBytes_eq {l : List Byte} (h : l.length = 7) : ∃ a b c d e f g, l = [a, b, c, d, e, f, g] := by
  match l, h with
  | [a, b, c, d, e, f, g], _ => exact ⟨a, b, c, d, e, f, g, rfl⟩

/-- Everything `decode` can answer. -/
theorem decode_cases {c : Config} {h : Nat} {f : Frame} {i : Instr} (hd : decode c h f = .ok i) :
   f.data.length ≤ 8 ∧
   ((f.id.getLsbD 31 = false ∧ i = .stdFrame h f.id f.data) ∨
    (f.id.getLsbD 31 = true ∧
      let d := decodeId f.id
      let r : Routing := { prio := d.prio, dst := d.dst, src := d.src }
      ((isAcRequest c d.pgn f.data = true ∧ i = .requestAc h r (f.data.drop 3)) ∨
       (isAcRequest c d.pgn f.data = false ∧
         ((d.pgn = pgnTpCm ∧ decodeCm h r f.data = .ok i) ∨
          (d.pgn ≠ pgnTpCm ∧ d.pgn = pgnTpDt ∧ decodeDt h r f.data = .ok i) ∨
          (d.pgn ≠ pgnTpCm ∧ d.pgn ≠ pgnTpDt ∧ d.pgn = pgnAddressClaimed ∧ decodeClaim h r f.data = .ok i) ∨
          (d.pgn ≠ pgnTpCm ∧ d.pgn ≠ pgnTpDt ∧ d.pgn ≠ pgnAddressClaimed ∧ i = .app h d.prio d.pgn d.src d.dst f.data)))))) := by
  unfold decode at hd
  split at hd
  · cases hd
  · rename_i hl
    refine ⟨Nat.not_lt.1 hl, ?_⟩
    split at hd
    · rename_i hb
      cases hd
      exact .inl ⟨hb, rfl⟩
    · rename_i hb
      refine .inr ⟨by simpa using hb, ?_⟩
      simp only at hd
      split at hd
      · rename_i hr
        cases hd
        exact .inl ⟨hr, rfl⟩
      · rename_i hr
        refine .inr ⟨by simpa using hr, ?_⟩
        split at hd
        · rename_i h1
          exact .inl ⟨h1, hd⟩
        · rename_i h1
          refine .inr ?_
          split at hd
          · rename_i h2
            exact .inl ⟨h1, h2, hd⟩
          · rename_i h2
            refine .inr ?_
            split at hd
            · rename_i h3
              exact .inl ⟨h1, h2, h3, hd⟩
            · rename_i h3
              cases hd
              exact .inr ⟨h1, h2, h3, rfl⟩

/-- Everything `decodeCm` can answer, with the data it read. -/
theorem decodeCm_cases {h : Nat} {r : Routing} {data : List Byte} {i : Instr} (hd : decodeCm h r data = .ok i) :
  (∃ len np mp pgn, i = .tpCmRts h r len np mp pgn ∧ data = cmLenBytes ctrlRts len np mp pgn) ∨
  (∃ a b d e pgn, i = .tpCmCts h r a b d e pgn ∧ data = cmBytes ctrlCts a b d e pgn) ∨
  (∃ len np mp pgn, i = .tpCmEoma h r len np mp pgn ∧ data = cmLenBytes ctrlEoma len np mp pgn) ∨
  (∃ len np mp pgn, i = .tpCmBam h r len np mp pgn ∧ data = cmLenBytes ctrlBam len np mp pgn) ∨
  (∃ a b d e pgn, i = .tpCmAbort h r a b d e pgn ∧ data = cmBytes ctrlAbort a b d e pgn) ∨
  (∃ k rest, i = .tpCmOther h r k rest ∧ data = k :: rest ∧ rest.length = 7 ∧ isCmControl k = false) := by
  unfold decodeCm at hd
  split at hd
  · rename_i d0 d1 d2 d3 d4 d5 d6 d7
    injection hd with hd
    split at hd
    · rename_i h0
      subst h0 hd
      exact .inl ⟨_, _, _, _, rfl, by simp [cmLenBytes, cmBytes]⟩
    · rename_i h1
      split at hd
      · rename_i h0
        subst h0 hd
        exact .inr (.inl ⟨_, _, _, _, _, rfl, by simp [cmBytes]⟩)
      · rename_i h2
        split at hd
        · rename_i h0
          subst h0 hd
          exact .inr (.inr (.inl ⟨_, _, _, _, rfl, by simp [cmLenBytes, cmBytes]⟩))
        · rename_i h3
          split at hd
          · rename_i h0
            subst h0 hd
            exact .inr (.inr (.inr (.inl ⟨_, _, _, _, rfl, by simp [cmLenBytes, cmBytes]⟩)))
          · rename_i h4
            split at hd
            · rename_i h0
              subst h0 hd
              exact .inr (.inr (.inr (.inr (.inl ⟨_, _, _, _, _, rfl, by simp [cmBytes]⟩))))
            · rename_i h5
              subst hd
              exact .inr (.inr (.inr (.inr (.inr ⟨_, _, rfl, rfl, rfl, by simp [isCmControl, *]⟩))))
  · cases hd

/-! ### The identifier under the mask of R111 -/

theorem mask_bits (id : IdWord) :
    id &&& 0x81FF0000#32 = id.extractLsb' 31 1 ++ 0#6 ++ id.extractLsb' 24 1 ++ id.extractLsb' 16 8 ++
      0#16 := by
  have key : ∀ (a : BitVec 1) (b : BitVec 6) (d : BitVec 1) (pf : Byte) (x : BitVec 16),
      id = a ++ b ++ d ++ pf ++ x → id &&& 0x81FF0000#32 = a ++ 0#6 ++ d ++ pf ++ 0#16 := by
    intro a b d pf x hw
    rw [hw]
    apply BitVec.eq_of_getLsbD_eq
    intro i hi
    simp only [BitVec.getLsbD_and, BitVec.getLsbD_append]
    interval_cases i <;> simp
  refine key _ (id.extractLsb' 25 6) _ _ (id.extractLsb' 0 16) ?_
  iterate 4 rw [BitVec.extractLsb'_append_extractLsb'_eq_extractLsb' (by rfl)]
  simp

theorem mask_iff (id : IdWord) (d : BitVec 1) (pf : Byte) :
    id &&& 0x81FF0000#32 = 1#1 ++ 0#6 ++ d ++ pf ++ 0#16 ↔
   id.getLsbD 31 = true ∧ id.extractLsb' 24 1 = d ∧ id.extractLsb' 16 8 = pf := by
  rw [mask_bits]
  constructor
  · intro h
    have h31 := congrArg (fun v : BitVec 32 => v.extractLsb' 31 1) h
    have h24 := congrArg (fun v : BitVec 32 => v.extractLsb' 24 1) h
    have h16 := congrArg (fun v : BitVec 32 => v.extractLsb' 16 8) h
    simp only [BitVec.extractLsb'_append_eq_ite] at h31 h24 h16
    simp at h31 h24 h16
    refine ⟨?_, h24, h16⟩
    have := congrArg (fun v : BitVec 1 => v.getLsbD 0) h31
    simpa using this
  · rintro ⟨h1, rfl, rfl⟩
    have : id.extractLsb' 31 1 = 1#1 := by
      apply BitVec.eq_of_getLsbD_eq
      intro i hi
      interval_cases i
      simpa using h1
    rw [this]

end Sys2Proof
end

