-- ==== Sys2Proof/Laws/Transport.lean ====
section
/-! SUPPORT. What the procedures of the transport-protocol engine can do (43_transport_protocol.md), each said once,
and that they keep the invariants of 10_state.md R43 without leaving the buffer (R282). -/

namespace Sys2Proof.Machine

/-! ### The frames of a connection -/

/-- The node after `SendDT` (R233). -/
def Node.sentDt (n : Node) : Node := { n with tpRem := n.tpRem - min 7 n.tpRem, tpSeq := n.tpSeq + 1#8 }

/-- The node after an accepted packet (R235). -/
def Node.accepted (n : Node) (s : Byte) (chunk : List Byte) : Node :=
  { n with tpBuf := n.tpBuf.writeAll ((s.toNat - 1) * 7) (chunk.take (min 7 n.tpRem)),
           tpRem := n.tpRem - min 7 n.tpRem, tpSeq := n.tpSeq + 1#8, tpTimer := 0 }

theorem txBarred_setNode (c : Config) {n n' : Node} (h : n'.cannotClaim = n.cannotClaim) :
    txBarred c n' = txBarred c n := by simp [txBarred, h]

section Frames
variable (c : Config) (r : NodeRun)

theorem cm_form (t : TxForm) (p : Byte) (data : List Byte) (ht : messageToFrame (cmMessage r.node p data) = encodeTx t) :
    (cm c p data r).1 =
      { node := r.node, out := r.out ++ gatedFrame c r.node t, draws := r.draws + gatedDraws c r.node } :=
  transmit_form c _ r t ht

theorem cm_status (p : Byte) (data : List Byte) :
    txStatus (cm c p data r).2 = gatedStatus c r.node r.draws := transmit_status c _ r

/-- `TP_Abort` (R237). -/
theorem tpAbort_eq (reason : Byte) : tpAbort c reason r =
    { node := r.node.closed, out := r.out ++ gatedFrame c r.node (abortForm r.node reason),
      draws := r.draws + gatedDraws c r.node } := by
  rw [tpAbort, cm_form c r _ _ _ (frame_cm_abort r.node r.node.tpPeer reason r.node.tpPgn)]; rfl

/-- `TP_BusyAbort` (R238). -/
theorem tpBusyAbort_eq (p : Byte) (pgn : Pgn) : tpBusyAbort c p pgn r =
    { node := r.node, out := r.out ++ gatedFrame c r.node (.abort p r.node.addr c.abortReasonBusy pgn),
      draws := r.draws + gatedDraws c r.node } :=
  cm_form c r _ _ _ (frame_cm_abort r.node p c.abortReasonBusy pgn)

/-- The broadcast branch of `TP_Queue` (R234). -/
theorem openBam_eq : (openBam c r).1 =
    { node := { r.node with tpKind := .bcast },
      out := r.out ++ gatedFrame c r.node (.bam r.node.addr r.node.lenField r.node.tpNpkt r.node.tpPgn),
      draws := r.draws + gatedDraws c r.node } :=
  cm_form c (r.setNode { r.node with tpKind := .bcast }) _ _ _
    (frame_cm_bam { r.node with tpKind := .bcast } r.node.lenField r.node.tpNpkt r.node.tpPgn)

theorem openBam_status : txStatus (openBam c r).2 = gatedStatus c r.node r.draws := cm_status c _ _ _

/-- The peer-to-peer branch of `TP_Queue` (R234). -/
theorem openRts_eq : (openRts c r).1 =
    { node := { r.node with tpKind := .p2p },
      out := r.out ++ gatedFrame c r.node (.rts r.node.tpPeer r.node.addr r.node.lenField r.node.tpNpkt r.node.tpPgn),
      draws := r.draws + gatedDraws c r.node } :=
  cm_form c (r.setNode { r.node with tpKind := .p2p }) _ _ _
    (frame_cm_rts { r.node with tpKind := .p2p } r.node.tpPeer r.node.lenField r.node.tpNpkt r.node.tpPgn)

theorem openRts_status : txStatus (openRts c r).2 = gatedStatus c r.node r.draws := cm_status c _ _ _

/-- The CTS branch of R254. -/
theorem sendCts_eq : sendCts c r =
    { node := { r.node with tpCts := true, tpTimer := 0 },
      out := r.out ++ gatedFrame c r.node (.cts r.node.tpPeer r.node.addr r.node.tpNpkt r.node.tpPgn),
      draws := r.draws + gatedDraws c r.node } := by
  simp only [sendCts, cm_form c r _ _ _ (frame_cm_cts r.node r.node.tpPeer r.node.tpNpkt r.node.tpPgn)]; rfl

/-- `TP_DeliverReassembled` (R239) within the buffer. -/
theorem deliverReassembled_ok (h : r.node.tpLen ≤ tpMaxLen) :
    deliverReassembled r = .ok (deliver (reassembledMessage r.node (bufBytes r.node 0 r.node.tpLen)) r) := by
  rw [deliverReassembled, memRead_ok (by omega)]; rfl

/-- The completion branch of R254. -/
theorem sendEoma_ok (h : r.node.tpLen ≤ tpMaxLen) : sendEoma c r =
    .ok { node := r.node.closed
          out := r.out ++
            gatedFrame c r.node (.eoma r.node.tpPeer r.node.addr r.node.lenField r.node.tpNpkt r.node.tpPgn) ++
            [.deliver (reassembledMessage r.node (bufBytes r.node 0 r.node.tpLen))]
          draws := r.draws + gatedDraws c r.node } := by
  rw [sendEoma, cm_form c r _ _ _ (frame_cm_eoma r.node r.node.tpPeer r.node.lenField r.node.tpNpkt r.node.tpPgn)]
  simp only [deliverReassembled_ok { r with
    out := r.out ++ gatedFrame c r.node (.eoma r.node.tpPeer r.node.addr r.node.lenField r.node.tpNpkt r.node.tpPgn),
    draws := r.draws + gatedDraws c r.node } h]
  rfl

/-- `SendDT` within its precondition and the buffer (R233). -/
theorem sendDt_ok (hr : 0 < r.node.tpRem) (hq : r.node.tpSeq ≠ 0#8)
    (hb : (r.node.tpSeq.toNat - 1) * 7 + min 7 r.node.tpRem ≤ tpMaxLen) : sendDt c r =
    .ok { node := r.node.sentDt, out := r.out ++ gatedFrame c r.node (dtForm r.node),
          draws := r.draws + gatedDraws c r.node } := by
  have ht : (transmit c (dtMessage r.node (r.node.tpSeq ::
      (bufBytes r.node ((r.node.tpSeq.toNat - 1) * 7) (min 7 r.node.tpRem) ++
        List.replicate (7 - min 7 r.node.tpRem) 0xFF#8))) r).1 = _ :=
    transmit_form c _ r (dtForm r.node) (frame_dt r.node r.node.tpSeq _)
  simp only [sendDt, if_neg (Nat.ne_of_gt hr), packetOffset_ok hq, memRead_ok hb, tpChunk] at *
  rw [show (List.range (min 7 r.node.tpRem)).map (fun j => r.node.tpBuf.read ((r.node.tpSeq.toNat - 1) * 7 + j)) =
    bufBytes r.node ((r.node.tpSeq.toNat - 1) * 7) (min 7 r.node.tpRem) from rfl, padByte, ht]
  rfl

/-- `Accept` within the buffer (R235). -/
theorem accept_ok {n : Node} {s : Byte} {chunk : List Byte} (hq : s ≠ 0#8)
    (hb : (s.toNat - 1) * 7 + (chunk.take (min 7 n.tpRem)).length ≤ tpMaxLen) :
    accept s chunk n = .ok (n.accepted s chunk) := by
  simp only [accept, packetOffset_ok hq, tpChunk] at *
  rw [memWrite_ok hb]
  rfl

end Frames

/-! ### Packets stay within the buffer (R282) -/

/-- While bytes remain, the packet's offset and its bytes lie within the message. -/
theorem TpInv.packet {n : Node} (hi : TpInv n) (hk : n.tpKind ≠ .none) (hr : 0 < n.tpRem) :
    n.tpSeq ≠ 0#8 ∧ (n.tpSeq.toNat - 1) * 7 + min 7 n.tpRem ≤ tpMaxLen := by
  obtain ⟨hq, he⟩ := hi.seq_rem hk hr
  have hl := (hi.rem_le hk).2
  exact ⟨hq, by omega⟩

/-- The next sequence number: while bytes remain after a packet it has not wrapped. -/
theorem TpInv.next_seq {n : Node} (hi : TpInv n) (hk : n.tpKind ≠ .none) (hr : 0 < n.tpRem)
    (hr' : 0 < n.tpRem - min 7 n.tpRem) :
    n.tpSeq + 1#8 ≠ 0#8 ∧ n.tpRem - min 7 n.tpRem + 7 * ((n.tpSeq + 1#8).toNat - 1) = n.tpLen := by
  obtain ⟨hq, he⟩ := hi.seq_rem hk hr
  have hl := (hi.rem_le hk).2
  have hq0 : n.tpSeq.toNat ≠ 0 := fun h => hq (BitVec.eq_of_toNat_eq (by simpa using h))
  have hlen : tpMaxLen = 1785 := rfl
  have hs : (n.tpSeq + 1#8).toNat = n.tpSeq.toNat + 1 := by
    rw [BitVec.toNat_add]; simp; omega
  refine ⟨fun h => ?_, by omega⟩
  rw [h] at hs
  simp at hs

/-! ### Ends of a node-level run -/

/-- What an operation on a node in form may end in: a node in form, or a Discard; never a fault. -/
def EndsWell (c : Config) : Except Stop NodeRun → Prop
  | .ok r => NodeInv c r.node ∧ BufInv r.node
  | .error (.discard _) => True
  | .error (.fault _) => False

/-- A change of transport fields only keeps the address-claim part. -/
theorem NodeInv.of_tp {c : Config} {n n' : Node} (hi : NodeInv c n) (h1 : n'.addr = n.addr)
    (h2 : n'.acTable = n.acTable) (h3 : n'.acFree = n.acFree) (h4 : n'.cannotClaim = n.cannotClaim)
    (h5 : n'.tickMs = n.tickMs) (ht : TpInv n') : NodeInv c n' := ⟨hi.ac.congr h1 h2 h3 h4 h5, ht⟩

theorem NodeInv.closed {c : Config} {n : Node} (hi : NodeInv c n) : NodeInv c n.closed :=
  hi.of_tp rfl rfl rfl rfl rfl (TpInv.closed n)

/-- A sent packet keeps the invariant when the connection still has bytes, or is one that may be at its end. -/
theorem NodeInv.sentDt {c : Config} {n : Node} (hi : NodeInv c n) (hk : n.tpKind = .p2p) (hc : n.tpCts = true)
    (hr : 0 < n.tpRem) : NodeInv c { n.sentDt with tpTimer := 0 } :=
  hi.of_tp rfl rfl rfl rfl rfl
    { cts_p2p := fun _ => hk
      rem_le := fun _ => ⟨Nat.le_trans (Nat.sub_le _ _) (hi.tp.rem_le (by simp [hk])).1, (hi.tp.rem_le (by simp [hk])).2⟩
      seq_rem := fun _ hr' => hi.tp.next_seq (by simp [hk]) hr hr'
      bam_peer := fun h => by simp [Node.sentDt, hk] at h
      bam_left := fun h => by simp [Node.sentDt, hk] at h
      wait_left := fun _ _ h => by simp [Node.sentDt, hc] at h
      timer_lt := fun _ => by simp [t1Ms] }

/-- A broadcast sender that goes on. -/
theorem NodeInv.sentDt_bam {c : Config} {n : Node} (hi : NodeInv c n) (hk : n.tpKind = .bcast)
    (hr : 0 < n.tpRem) (hr' : n.sentDt.tpRem ≠ 0) : NodeInv c { n.sentDt with tpTimer := 0 } :=
  hi.of_tp rfl rfl rfl rfl rfl
    { cts_p2p := fun h => hi.tp.cts_p2p h
      rem_le := fun _ => ⟨Nat.le_trans (Nat.sub_le _ _) (hi.tp.rem_le (by simp [hk])).1, (hi.tp.rem_le (by simp [hk])).2⟩
      seq_rem := fun _ h => hi.tp.next_seq (by simp [hk]) hr h
      bam_peer := fun h h' => hi.tp.bam_peer h h'
      bam_left := fun _ _ => Nat.pos_of_ne_zero hr'
      wait_left := fun h => by simp [Node.sentDt, hk] at h
      timer_lt := fun _ => by simp [t1Ms] }

/-- Only the timer moved, and it is below T1. -/
theorem NodeInv.setTimer {c : Config} {n : Node} {t : Nat} (hi : NodeInv c n) (ht : t < t1Ms) :
    NodeInv c { n with tpTimer := t } :=
  hi.of_tp rfl rfl rfl rfl rfl
    ⟨hi.tp.1, hi.tp.2, hi.tp.3, hi.tp.4, hi.tp.5, hi.tp.6, fun _ => ht⟩

/-! ### TICK -/

section Tick
variable {c : Config} {r : NodeRun}

/-- A node in form but for its timer. -/
theorem NodeInv.retimed {n : Node} (h0 : NodeInv c { n with tpTimer := 0 }) (ht : n.tpTimer < t1Ms) : NodeInv c n :=
  h0.setTimer ht

theorem NodeInv.closed_retimed {n : Node} (h0 : NodeInv c { n with tpTimer := 0 }) : NodeInv c n.closed :=
  h0.of_tp rfl rfl rfl rfl rfl (TpInv.closed n)

/-- `SendDT` on a node in form but for its timer. -/
theorem sendDt_retimed (h0 : NodeInv c { r.node with tpTimer := 0 }) (hk : r.node.tpKind ≠ .none)
    (hr : 0 < r.node.tpRem) : sendDt c r =
    .ok { node := r.node.sentDt, out := r.out ++ gatedFrame c r.node (dtForm r.node),
          draws := r.draws + gatedDraws c r.node } :=
  sendDt_ok c r hr (h0.tp.packet hk hr).1 (h0.tp.packet hk hr).2

/-- The broadcast sender's update ends well (R251). -/
theorem tickBamTx_endsWell (h0 : NodeInv c { r.node with tpTimer := 0 }) (hb : BufInv r.node)
    (hk : r.node.tpKind = .bcast) (hs : r.node.tpRole = .sender) : EndsWell c (tickBamTx c r) := by
  have hr : 0 < r.node.tpRem := h0.tp.bam_left hk hs
  unfold tickBamTx
  split
  · rw [sendDt_retimed h0 (by simp [hk]) hr]
    simp only
    split
    · exact ⟨h0.of_tp rfl rfl rfl rfl rfl (TpInv.closed _), hb⟩
    · exact ⟨h0.sentDt_bam hk hr ‹_›, hb⟩
  · rename_i hp
    rw [if_neg (Nat.ne_of_gt hr)]
    exact ⟨h0.retimed (by simp only [tPeriodMs, t1Ms] at *; omega), hb⟩

/-- The broadcast receiver's update ends well (R252). -/
theorem tickBamRx_endsWell (h0 : NodeInv c { r.node with tpTimer := 0 }) (hb : BufInv r.node)
    (hk : r.node.tpKind = .bcast) : EndsWell c (tickBamRx c r) := by
  have hlen : r.node.tpLen ≤ tpMaxLen := (h0.tp.rem_le (by simp [hk])).2
  unfold tickBamRx
  split
  · rw [deliverReassembled_ok r hlen]
    exact ⟨h0.closed_retimed, hb⟩
  · split
    · split
      · rw [tpAbort_eq]; exact ⟨h0.closed_retimed, hb⟩
      · exact ⟨h0.closed_retimed, hb⟩
    · exact ⟨h0.retimed (by omega), hb⟩

/-- The peer-to-peer sender's update ends well (R253). -/
theorem tickP2pTx_endsWell (h0 : NodeInv c { r.node with tpTimer := 0 }) (hb : BufInv r.node)
    (hk : r.node.tpKind = .p2p) : EndsWell c (tickP2pTx c r) := by
  unfold tickP2pTx
  split
  · split
    · rw [tpAbort_eq]; exact ⟨h0.closed_retimed, hb⟩
    · exact ⟨h0.retimed (by simp only [trMs, t1Ms] at *; omega), hb⟩
  · rename_i hc
    split
    · rename_i hr
      split
      · rw [sendDt_retimed h0 (by simp [hk]) hr]
        exact ⟨h0.sentDt hk (by simpa using hc) hr, hb⟩
      · exact ⟨h0.retimed (by simp only [tPeriodMs, t1Ms] at *; omega), hb⟩
    · split
      · rw [tpAbort_eq]; exact ⟨h0.closed_retimed, hb⟩
      · exact ⟨h0.retimed (by simp only [t3Ms, t1Ms] at *; omega), hb⟩

/-- The peer-to-peer receiver's update ends well (R254). -/
theorem tickP2pRx_endsWell (h0 : NodeInv c { r.node with tpTimer := 0 }) (hb : BufInv r.node)
    (hk : r.node.tpKind = .p2p) (hs : r.node.tpRole = .receiver) : EndsWell c (tickP2pRx c r) := by
  unfold tickP2pRx
  split
  · split
    · rw [sendCts_eq]
      exact ⟨h0.of_tp rfl rfl rfl rfl rfl
        ⟨fun _ => hk, h0.tp.2, h0.tp.3, h0.tp.4, h0.tp.5, fun _ h => by simp [hs] at h, fun _ => by simp [t1Ms]⟩, hb⟩
    · exact ⟨h0.retimed (by simp only [tPeriodMs, t1Ms] at *; omega), hb⟩
  · split
    · rw [sendEoma_ok c r (h0.tp.rem_le (by simp [hk])).2]
      exact ⟨h0.closed_retimed, hb⟩
    · split
      · rw [tpAbort_eq]; exact ⟨h0.closed_retimed, hb⟩
      · exact ⟨h0.retimed (by omega), hb⟩

/-- Every TICK of a node in form ends well (R250 to R254). -/
theorem tickNode_endsWell (hi : NodeInv c r.node) (hb : BufInv r.node) : EndsWell c (tickNode c r) := by
  unfold tickNode
  split
  · exact ⟨hi, hb⟩
  · have h0 : NodeInv c { (r.setTimer (timerSum c r.node.tpTimer r.node.tickMs)).node with tpTimer := 0 } :=
      hi.setTimer (by simp [t1Ms])
    have hb' : BufInv (r.setTimer (timerSum c r.node.tpTimer r.node.tickMs)).node := hb
    simp only
    split
    · exact tickBamTx_endsWell h0 hb' ‹_› ‹_›
    · exact tickBamRx_endsWell h0 hb' ‹_›
    · exact tickP2pTx_endsWell h0 hb' ‹_›
    · exact tickP2pRx_endsWell h0 hb' ‹_› ‹_›
    · exact absurd ‹_› ‹_›

/-- TICK's dispatch by kind and role (R250), after the timer has moved. -/
theorem tickNode_bamTx (hc : Connected r.node .bcast .sender) :
    tickNode c r = tickBamTx c (r.setTimer (timerSum c r.node.tpTimer r.node.tickMs)) := by
  obtain ⟨h1, h2⟩ := hc
  simp [tickNode, h1, h2]

theorem tickNode_bamRx (hc : Connected r.node .bcast .receiver) :
    tickNode c r = tickBamRx c (r.setTimer (timerSum c r.node.tpTimer r.node.tickMs)) := by
  obtain ⟨h1, h2⟩ := hc
  simp [tickNode, h1, h2]

theorem tickNode_p2pTx (hc : Connected r.node .p2p .sender) :
    tickNode c r = tickP2pTx c (r.setTimer (timerSum c r.node.tpTimer r.node.tickMs)) := by
  obtain ⟨h1, h2⟩ := hc
  simp [tickNode, h1, h2]

theorem tickNode_p2pRx (hc : Connected r.node .p2p .receiver) :
    tickNode c r = tickP2pRx c (r.setTimer (timerSum c r.node.tpTimer r.node.tickMs)) := by
  obtain ⟨h1, h2⟩ := hc
  simp [tickNode, h1, h2]

end Tick

/-! ### Received frames -/

section Received
variable {c : Config} {r : NodeRun}

/-- RTS and BAM end well (R272, R274, R276). -/
theorem onOpen_endsWell {kind : TpKind} (src dst : Byte) (len : BitVec 16) (npkt : Byte) (pgn : Pgn)
    (hi : NodeInv c r.node) (hb : BufInv r.node) : EndsWell c (onOpen kind src dst len npkt pgn c r) := by
  unfold onOpen
  split
  · rw [tpBusyAbort_eq]; exact ⟨hi, hb⟩
  · split
    · trivial
    · rename_i hl
      refine ⟨hi.of_tp rfl rfl rfl rfl rfl ?_, hb⟩
      exact
        { cts_p2p := fun h => by simp [openedNode] at h
          rem_le := fun _ => ⟨Nat.le_refl _, Nat.not_lt.1 hl⟩
          seq_rem := fun _ _ => ⟨by simp [openedNode], by simp [openedNode]⟩
          bam_peer := fun _ h => by simp [openedNode] at h
          bam_left := fun _ h => by simp [openedNode] at h
          wait_left := fun _ h => by simp [openedNode] at h
          timer_lt := fun _ => by simp [openedNode, t1Ms] }

theorem onCts_endsWell (hi : NodeInv c r.node) (hb : BufInv r.node) :
    EndsWell c (.ok (r.setNode (onCts r.node))) := by
  unfold onCts
  split
  · rename_i h
    refine ⟨hi.of_tp rfl rfl rfl rfl rfl ?_, hb⟩
    refine ⟨fun _ => h.1, hi.tp.2, hi.tp.3, hi.tp.4, hi.tp.5, fun _ _ h => by simp at h, fun _ => ?_⟩
    show (if r.node.tpCts = true then r.node.tpTimer else 0) < t1Ms
    split
    · exact hi.tp.timer_lt (by simp [h.1])
    · simp [t1Ms]
  · exact ⟨hi, hb⟩

theorem onEoma_endsWell (pgn : Pgn) (hi : NodeInv c r.node) (hb : BufInv r.node) : EndsWell c (.ok (onEoma pgn r)) := by
  unfold onEoma
  split
  · exact ⟨hi.closed, hb⟩
  · exact ⟨hi, hb⟩

theorem onAbort_endsWell (pgn : Pgn) (hi : NodeInv c r.node) (hb : BufInv r.node) :
    EndsWell c (.ok (onAbort pgn r)) := by
  unfold onAbort
  split
  · exact ⟨hi.closed, hb⟩
  · exact ⟨hi, hb⟩

theorem tpOnCm_endsWell (m : Message) (hi : NodeInv c r.node) (hb : BufInv r.node) : EndsWell c (tpOnCm m c r) := by
  unfold tpOnCm
  split
  · split
    · exact onOpen_endsWell _ _ _ _ _ hi hb
    · split
      · exact onCts_endsWell hi hb
      · split
        · exact onEoma_endsWell _ hi hb
        · split
          · exact onOpen_endsWell _ _ _ _ _ hi hb
          · split
            · exact onAbort_endsWell _ hi hb
            · exact ⟨hi, hb⟩
  · trivial

/-- Data frames end well (R280, R281): an accepted packet stays within the buffer. -/
theorem onDt_endsWell (s : Byte) (chunk : List Byte) (hi : NodeInv c r.node) (hb : BufInv r.node) :
    EndsWell c (onDt s chunk c r) := by
  unfold onDt
  split
  · trivial
  · rename_i hk
    split
    · trivial
    · rename_i hrole
      split
      · trivial
      · rename_i hz
        have hr : 0 < r.node.tpRem := Nat.pos_of_ne_zero hz
        split
        · unfold onSeqMismatch
          split
          · split
            · rw [tpAbort_eq]; exact ⟨hi.closed, hb⟩
            · exact ⟨hi.closed, hb⟩
          · trivial
        · rename_i hq
          have hq : s = r.node.tpSeq := by simpa using hq
          subst hq
          obtain ⟨hq, hlen⟩ := hi.tp.packet hk hr
          have hlen' : (r.node.tpSeq.toNat - 1) * 7 + (chunk.take (min 7 r.node.tpRem)).length ≤ tpMaxLen := by
            have := List.length_take_le (min 7 r.node.tpRem) chunk
            omega
          rw [accept_ok hq hlen']
          refine ⟨hi.of_tp rfl rfl rfl rfl rfl ?_, Memory.writeAll_wf _ _ hb.1, Memory.writeAll_bounded hb.2 hlen'⟩
          have hrole : r.node.tpRole = .receiver := by simpa using hrole
          exact
            { cts_p2p := hi.tp.cts_p2p
              rem_le := fun _ => ⟨Nat.le_trans (Nat.sub_le _ _) (hi.tp.rem_le hk).1, (hi.tp.rem_le hk).2⟩
              seq_rem := fun _ hr' => hi.tp.next_seq hk hr hr'
              bam_peer := fun _ h => by simp [Node.accepted, hrole] at h
              bam_left := fun _ h => by simp [Node.accepted, hrole] at h
              wait_left := fun _ h => by simp [Node.accepted, hrole] at h
              timer_lt := fun _ => by simp [Node.accepted, t1Ms] }

theorem tpOnDt_endsWell (m : Message) (hi : NodeInv c r.node) (hb : BufInv r.node) : EndsWell c (tpOnDt m c r) := by
  unfold tpOnDt
  split
  · exact onDt_endsWell _ _ hi hb
  · trivial

end Received

/-! ### Queue (R234) -/

/-- `TP_Queue` on an idle node: the payload stored, the connection opened, its first frame sent. -/
theorem tpQueue_ok {c : Config} {m : Message} {r : NodeRun} (hk : r.node.tpKind = .none) (hl : m.len ≤ tpMaxLen) :
    tpQueue m c r =
      .ok ({ node := { queuedNode r.node m (r.node.tpBuf.writeAll 0 m.data) with
                         tpKind := if m.dst = addrGlobal then .bcast else .p2p }
             out := r.out ++ gatedFrame c r.node
               (if m.dst = addrGlobal then
                  .bam r.node.addr (BitVec.ofNat 16 m.len) (BitVec.ofNat 8 (packetCount m.len)) m.pgn
                else .rts m.dst r.node.addr (BitVec.ofNat 16 m.len) (BitVec.ofNat 8 (packetCount m.len)) m.pgn)
             draws := r.draws + gatedDraws c r.node }, gatedStatus c r.node r.draws) := by
  unfold tpQueue
  rw [if_neg (by simp [hk]), memWrite_ok (by simpa using hl)]
  simp only
  split
  · refine congrArg _ (Prod.ext ?_ ?_)
    · rw [openBam_eq]; rfl
    · exact openBam_status c _
  · refine congrArg _ (Prod.ext ?_ ?_)
    · rw [openRts_eq]; rfl
    · exact openRts_status c _

/-- The queued node is in form. -/
theorem queued_inv {c : Config} {n : Node} {m : Message} (hi : NodeInv c n) (hb : BufInv n) (h9 : 0 < m.len)
    (hl : m.len ≤ tpMaxLen) :
    NodeInv c { queuedNode n m (n.tpBuf.writeAll 0 m.data) with tpKind := if m.dst = addrGlobal then .bcast else .p2p } ∧
    BufInv { queuedNode n m (n.tpBuf.writeAll 0 m.data) with tpKind := if m.dst = addrGlobal then .bcast else .p2p } := by
  refine ⟨hi.of_tp rfl rfl rfl rfl rfl ?_, Memory.writeAll_wf _ _ hb.1,
    Memory.writeAll_bounded hb.2 (by simpa using hl)⟩
  exact
    { cts_p2p := fun h => by simp [queuedNode] at h
      rem_le := fun _ => ⟨Nat.le_refl _, hl⟩
      seq_rem := fun _ _ => ⟨by simp [queuedNode], by simp [queuedNode]⟩
      bam_peer := fun h _ => by
        by_cases hd : m.dst = addrGlobal
        · simp [queuedNode, hd]
        · simp [hd] at h
      bam_left := fun _ _ => h9
      wait_left := fun _ _ _ => h9
      timer_lt := fun _ => by simp [queuedNode, t1Ms] }

/-- `TP_OnCM` of a data field laid out as R97 says. -/
theorem tpOnCm_bytes (m : Message) (c : Config) (r : NodeRun) (a b d e g : Byte) (pgn : Pgn)
    (hm : m.data = cmBytes a b d e g pgn) :
    tpOnCm m c r = if a = ctrlRts then onRts m.src m.dst (le16 b d) e pgn c r
      else if a = ctrlCts then .ok (r.setNode (onCts r.node))
      else if a = ctrlEoma then .ok (onEoma pgn r)
      else if a = ctrlBam then onBam m.src (le16 b d) e pgn c r
      else if a = ctrlAbort then .ok (onAbort pgn r)
      else .ok r := by
  unfold tpOnCm
  rw [hm, cmBytes]
  simp only [le24_byteOf]

end Sys2Proof.Machine
end

