-- ==== Sys2Proof/Laws/Dispatcher.lean ====
section
/-! SUPPORT. What routing, sending and registering can do, each said once (41_dispatcher.md, 44_node_registry.md),
and that an operation on a node keeps the invariants of 10_state.md R43. -/

namespace Sys2Proof.Machine

/-! ### Routing (41_dispatcher.md R162) -/

/-- The claim handler ends well, whatever the frame's length. -/
theorem acOnClaimMessage_endsWell {c : Config} {r : NodeRun} (m : Message) (hi : NodeInv c r.node)
    (hb : BufInv r.node) : EndsWell c (acOnClaimMessage m c r) := by
  unfold acOnClaimMessage
  split
  · exact ⟨hi, hb⟩
  · split
    · obtain ⟨hn, hbuf⟩ := acOnClaim_inv (src := m.src) (their := le64 _ _ _ _ _ _ _ _) hi
      exact ⟨hn, by unfold BufInv; rw [hbuf]; exact hb⟩
    · trivial

/-- Every routed frame ends well. -/
theorem dispatch_endsWell {c : Config} {r : NodeRun} (m : Message) (hi : NodeInv c r.node) (hb : BufInv r.node) :
    EndsWell c (dispatch m c r) := by
  unfold dispatch
  split
  · obtain ⟨hn, hbuf⟩ := acOnRequest_inv hi
    exact ⟨hn, by unfold BufInv; rw [hbuf]; exact hb⟩
  · split
    · exact tpOnCm_endsWell m hi hb
    · split
      · exact tpOnDt_endsWell m hi hb
      · split
        · exact acOnClaimMessage_endsWell m hi hb
        · exact ⟨hi, hb⟩

/-! ### Operations on a node and the invariant of the state -/

/-- `EndsWell`, for an operation that reports a status. -/
def OpEndsWell (c : Config) : Except Stop (NodeRun × Status) → Prop
  | .ok (r, _) => NodeInv c r.node ∧ BufInv r.node
  | .error (.discard _) => True
  | .error (.fault _) => False

theorem EndsWell.withStatus {c : Config} {st : Status} {e : Except Stop NodeRun} (h : EndsWell c e) :
    OpEndsWell c (withStatus st e) := by
  cases e with
  | ok r => exact h
  | error e => cases e <;> exact h

/-- A record of the array is in form. -/
theorem StateInv.buf {s : State} {h : Nat} {n : Node} (hi : StateInv s) (hl : Live s h n) : BufInv n :=
  hi.bufs n (List.mem_of_getElem? hl.2)

/-- An operation that returns a status and does nothing else. -/
theorem StateInv.returned {s : State} (hi : StateInv s) (st : Status) : StateInv (s.returned st) :=
  ⟨hi.1, hi.2, hi.3, hi.4⟩

/-- The invariant does not look at the pending operations. -/
theorem StateInv.withPending {s : State} (hi : StateInv s) (ops : List HostOp) : StateInv { s with pending := ops } :=
  ⟨hi.1, hi.2, hi.3, hi.4⟩

/-- The node of a handle after one record is written. -/
theorem getElem?_set_cases {ns : List Node} {h k : Nat} {n n' : Node} (hn : (ns.set h n)[k]? = some n') :
    (h = k ∧ n' = n) ∨ (h ≠ k ∧ ns[k]? = some n') := by
  by_cases hk : h = k
  · subst hk
    rw [List.getElem?_set_self'] at hn
    cases hs : ns[h]? with
    | none => simp [hs] at hn
    | some x => simp [hs] at hn; exact .inl ⟨rfl, hn.symm⟩
  · rw [List.getElem?_set_ne hk] at hn
    exact .inr ⟨hk, hn⟩

/-- Writing back a record in form. -/
theorem StateInv.finish {s : State} (hi : StateInv s) (h : Nat) (r : NodeRun) (st : Status)
    (hn : NodeInv s.cfg r.node) (hb : BufInv r.node) : StateInv (s.finish h r st) where
  nodes_length := by simpa using hi.nodes_length
  count_le := hi.count_le
  bufs n hm := by
    rcases List.mem_or_eq_of_mem_set hm with hm | rfl
    · exact hi.bufs n hm
    · exact hb
  live k n hl := by
    obtain ⟨hlt, hg⟩ := hl
    rcases getElem?_set_cases hg with ⟨-, rfl⟩ | ⟨-, hg⟩
    · exact hn
    · exact hi.live k n ⟨hlt, hg⟩

/-- An operation on a node in form answers a next state in form: no fault, no refusal. -/
theorem onNode_stateInv {h : Nat} {s : State} {op : NodeOp} (hi : StateInv s)
    (hop : ∀ n, NodeInv s.cfg n → BufInv n → OpEndsWell s.cfg (op s.cfg { node := n, out := [], draws := s.txDraws })) :
    ∃ t, onNode h s op = .next t ∧ StateInv t := by
  by_cases hh : s.nodeCount ≤ h
  · exact ⟨_, onNode_unknown op hh, hi.returned _⟩
  · have hlt : h < s.nodes.length := by have := hi.count_le; have := hi.nodes_length; omega
    have hl : Live s h s.nodes[h] := ⟨by omega, List.getElem?_eq_getElem hlt⟩
    have he := hop _ (hi.live h _ hl) (hi.buf hl)
    cases ho : op s.cfg { node := s.nodes[h], out := [], draws := s.txDraws } with
    | ok p =>
      rw [ho] at he
      exact ⟨_, onNode_ok hl ho, hi.finish h p.1 p.2 he.1 he.2⟩
    | error e =>
      rw [ho] at he
      cases e with
      | discard why => exact ⟨_, onNode_discard hl ho, hi.returned _⟩
      | fault why => exact he.elim

/-- The receive path with a handler that ends well. -/
theorem receive_stateInv {h : Nat} {s : State} {m : Message} {k : Config → NodeRun → Except Stop NodeRun}
    (hi : StateInv s) (hk : ∀ r : NodeRun, NodeInv s.cfg r.node → BufInv r.node → EndsWell s.cfg (k s.cfg r)) :
    ∃ t, receive h m k s = .next t ∧ StateInv t := by
  refine onNode_stateInv hi fun n hn hb => ?_
  split
  · exact ⟨hn, hb⟩
  · split
    · trivial
    · exact (hk _ hn hb).withStatus

/-! ### SEND (41_dispatcher.md R170) -/

/-- A single-frame send (R171). -/
theorem sendSingle_eq (m : Message) (c : Config) (r : NodeRun) : sendSingle m c r =
    .ok ({ node := r.node
           out := r.out ++ gatedFrame c r.node (.appSingle m.prio m.pgn (psOf m.pgn m.dst) r.node.addr m.data)
           draws := r.draws + gatedDraws c r.node }, gatedStatus c r.node r.draws) := by
  refine congrArg _ (Prod.ext ?_ ?_)
  · exact transmit_form c m r _ (frame_single m r.node.addr)
  · exact transmit_status c m r

/-- SEND ends well. -/
theorem sendNode_endsWell {c : Config} {r : NodeRun} (m : Message) (hi : NodeInv c r.node) (hb : BufInv r.node) :
    OpEndsWell c (sendNode m c r) := by
  unfold sendNode
  split
  · exact ⟨hi, hb⟩
  · split
    · exact ⟨hi, hb⟩
    · split
      · exact ⟨hi, hb⟩
      · rename_i hl
        split
        · rw [sendSingle_eq]; exact ⟨hi, hb⟩
        · by_cases hk : r.node.tpKind = .none
          · rw [tpQueue_ok hk (by simpa using hl)]
            exact queued_inv hi hb (Nat.lt_of_lt_of_le (by decide) (Nat.not_le.1 ‹¬_ ≤ 8›)) (by simpa using hl)
          · unfold tpQueue
            rw [if_pos hk]
            exact ⟨hi, hb⟩

/-! ### INIT (44_node_registry.md R301) -/

/-- The record of a successful INIT, its buffer untouched. -/
theorem acInit_nodeInv {c : Config} {name : Name64} {pref : Byte} {tick k : Nat} {n : Node} (out : List OutEvent)
    (d : Nat) (hp : pref.toNat ≤ 253) (ht : 0 < tick) (hw : tick < 2 ^ c.tickW) :
    NodeInv c (acInit c name pref { node := initNode tick k n, out := out, draws := d }).node := by
  rw [acInit_eq]
  exact ⟨selfOnly_acInv rfl rfl rfl hp ht hw, TpInv.of_none rfl rfl⟩

theorem acInit_tpBuf {c : Config} {name : Name64} {pref : Byte} {tick k : Nat} {n : Node} (out : List OutEvent)
    (d : Nat) : (acInit c name pref { node := initNode tick k n, out := out, draws := d }).node.tpBuf = n.tpBuf := by
  rw [acInit_eq]; rfl

/-- Registering a record in form. -/
theorem StateInv.registered {s : State} (hi : StateInv s) (r : NodeRun) (hlt : s.nodeCount < s.cfg.maxNodes)
    (hn : NodeInv s.cfg r.node) (hb : BufInv r.node) : StateInv (s.registered r) where
  nodes_length := by simpa using hi.nodes_length
  count_le := hlt
  bufs n hm := by
    rcases List.mem_or_eq_of_mem_set hm with hm | rfl
    · exact hi.bufs n hm
    · exact hb
  live k n hl := by
    obtain ⟨hk, hg⟩ := hl
    rcases getElem?_set_cases hg with ⟨-, rfl⟩ | ⟨hne, hg⟩
    · exact hn
    · exact hi.live k n ⟨by simp at hk; omega, hg⟩

/-- A record at reset is in form. -/
theorem Node.reset_bufInv : BufInv Node.reset := ⟨rfl, rfl⟩

end Sys2Proof.Machine
end

