-- ==== Sys2Proof/Laws/Dispatch.lean ====
section
/-! SUPPORT. Every instruction that carries a handle is one operation on its node; what an operation of the host can
answer, said once; and how an operation's state is overwritten by the next. -/

namespace Sys2Proof.Machine

/-- A handle-carrying instruction runs one node-level operation, the same in every state of the same parameters. -/
theorem exec_eq_onNode {i : Instr} {h : Nat} (ha : actingNode i = some h) (c : Config) :
    ∃ op : NodeOp, ∀ s : State, s.cfg = c → exec i s = onNode h s op := by
  cases i <;> simp only [actingNode, Option.some.injEq, reduceCtorEq] at ha <;> subst ha
  case rxframe f =>
    simp only [exec, execRxframe, discardStandard, receive]
    split <;> exact ⟨_, fun s _ => rfl⟩
  case requestAc h r extra =>
    refine ⟨fun c' r' =>
      if c'.listenOnly then .ok (deliver (classMessage c.pgnRequest r (requestAcBytes ++ extra)) r', .ok)
      else if r.dst ≠ addrGlobal ∧ r.dst ≠ r'.node.addr then .error (.discard .notAddressed)
      else withStatus .ok (.ok (acOnRequest c' r')), fun s hs => ?_⟩
    subst hs
    rfl
  all_goals
    simp only [exec, execStdFrame, execTpCmRts, execTpCmCts, execTpCmEoma, execTpCmBam, execTpCmAbort, execTpCmOther,
      execTpDt, execAddressClaimed, execApp, execTxAddressClaimed, execTxCannotClaimAddress, execTxTpCmBam,
      execTxTpCmRts, execTxTpCmCts, execTxTpCmEoma, execTxTpCmAbortTimeout, execTxTpCmAbortBusy, execTxTpDt,
      execTxAppSingle, execTick, execSend, discardStandard, receive]
    exact ⟨_, fun s _ => rfl⟩

/-- RXFRAME of an extended frame. -/
theorem exec_rxframe_extended (s : State) (h : Nat) {f : Frame} (hb : f.id.getLsbD 31 = true) :
    exec (.rxframe h f) s = receive h (frameToMessage f) (dispatch (frameToMessage f)) s := by
  show execRxframe h f s = _
  rw [execRxframe, if_pos hb]

/-- RXFRAME of a standard frame. -/
theorem exec_rxframe_standard (s : State) (h : Nat) {f : Frame} (hb : f.id.getLsbD 31 = false) :
    exec (.rxframe h f) s = discardStandard h s := by
  show execRxframe h f s = _
  rw [execRxframe, if_neg (by rw [hb]; decide)]

/-- TICK of a node whose update runs to its end. -/
theorem exec_tick_ok {s : State} {h : Nat} {n : Node} {r : NodeRun} (hl : Live s h n)
    (ht : tickNode s.cfg { node := n, out := [], draws := s.txDraws } = .ok r) :
    exec (.tick h) s = .next (s.finish h r .ok) := by
  simp only [exec]
  unfold execTick
  exact onNode_ok hl (by rw [ht]; rfl)

/-! ### One operation after another -/

/-- The next operation on the same node overwrites all the last one left. -/
theorem State.ends_ends (s : State) (h : Nat) (n n' : Node) (evs evs' : List OutEvent) (d d' : Nat) (st st' : Status) :
    (s.ends h n evs d st).ends h n' evs' d' st' = s.ends h n' evs' d' st' := by
  simp [State.ends, List.set_set]

/-- An operation that leaves the record as it was only reports. -/
theorem State.ends_self {s : State} {h : Nat} {n : Node} (hl : Live s h n) (st : Status) :
    s.ends h n [] s.txDraws st = s.unmoved st := by
  simp only [State.ends, State.unmoved, hl.set_self]

/-- The record after an operation on its node. -/
theorem Live.ends {s : State} {h : Nat} {n : Node} (hl : Live s h n) (n' : Node) (evs : List OutEvent) (d : Nat)
    (st : Status) : Live (s.ends h n' evs d st) h n' :=
  ⟨hl.1, by simp [State.ends, hl.lt]⟩

/-- The record of any handle after an operation on node `h`. -/
theorem Live.finish {s : State} {h k : Nat} {n n' : Node} (hl : Live s h n) (hk : Live s k n') (r : NodeRun)
    (st : Status) : Live (s.finish h r st) k (if k = h then r.node else n') := by
  refine ⟨hk.1, ?_⟩
  simp only [State.finish_nodes]
  by_cases e : k = h
  · subst e; simp [hl.lt]
  · rw [if_neg e, List.getElem?_set_ne (Ne.symm e)]; exact hk.2

theorem Live.unique {s : State} {h : Nat} {n n' : Node} (hl : Live s h n) (hl' : Live s h n') : n = n' := by
  have h1 := hl.2
  rw [hl'.2] at h1
  injection h1 with h1
  exact h1.symm

/-- Sequences of instructions, one part after the other. -/
theorem execAll_append {a b : List Instr} {s t : State} (h : execAll a s = .next t) :
    execAll (a ++ b) s = execAll b t := by
  induction a generalizing s with
  | nil => cases h; rfl
  | cons i a ih =>
    simp only [execAll, List.cons_append] at h ⊢
    cases hi : exec i s with
    | next u => rw [hi] at h; exact ih h
    | fault _ => rw [hi] at h; cases h
    | refused _ => rw [hi] at h; cases h

end Sys2Proof.Machine
end

