-- ==== Sys2Proof/Laws/Emission.lean ====
section
/-! SUPPORT. What an operation of the host can hand out and leave behind, said once: at most one frame, one of the
table's transmit rows, and nothing from a node whose gate is shut (41_dispatcher.md R175, 30_encoding.md R113). -/

namespace Sys2Proof.Machine

/-- A run that began on `n` with no output and draw `d`, and whose frames are as `P` says of the record it leaves. -/
structure Emission (c : Config) (n : Node) (d : Nat) (P : Node → Frame → Prop) (r : NodeRun) : Prop where
  /-- At most one frame. -/
  one : (r.out.filter isTxEvent).length ≤ 1
  /-- One draw for each frame (R176). -/
  draws : r.draws = d + (r.out.filter isTxEvent).length
  /-- Which frames. -/
  row : ∀ f, OutEvent.txFrame f ∈ r.out → P r.node f ∧ f.data.length ≤ 8
  /-- The NAME and the tick period stay (42_address_claim.md R202). -/
  ident : r.node.name = n.name ∧ r.node.tickMs = n.tickMs
  /-- A shut gate lets nothing out, and a node in Cannot-Claim stays as it is (R201). -/
  barred : txBarred c n = true → (∀ e ∈ r.out, isTxEvent e = false) ∧ r.node.cannotClaim = n.cannotClaim ∧
    (n.cannotClaim = true → r.node.addr = n.addr ∧ r.node.acTable = n.acTable ∧ r.node.acFree = n.acFree)

/-- The address-claim fields of one record are those of another. -/
def SameClaim (n' n : Node) : Prop :=
  n'.name = n.name ∧ n'.tickMs = n.tickMs ∧ n'.cannotClaim = n.cannotClaim ∧ n'.addr = n.addr ∧
    n'.acTable = n.acTable ∧ n'.acFree = n.acFree

theorem SameClaim.refl (n : Node) : SameClaim n n := ⟨rfl, rfl, rfl, rfl, rfl, rfl⟩

theorem gatedFrame_filter (c : Config) (n : Node) (t : TxForm) :
    ((gatedFrame c n t).filter isTxEvent).length = gatedDraws c n ∧ gatedDraws c n ≤ 1 := by
  unfold gatedFrame gatedDraws
  split
  · exact ⟨rfl, Nat.zero_le _⟩
  · exact ⟨rfl, Nat.le_refl _⟩

section Rules
variable {c : Config} {n n₀ n' : Node} {d : Nat} {P Q : Node → Frame → Prop} {r : NodeRun}

theorem Emission.mono (h : Emission c n d P r) (hpq : ∀ n f, P n f → Q n f) : Emission c n d Q r :=
  ⟨h.1, h.2, fun f hf => ⟨hpq _ _ (h.3 f hf).1, (h.3 f hf).2⟩, h.4, h.5⟩

/-- No frame, whatever else is handed out. -/
theorem Emission.quiet {out : List OutEvent} (ho : ∀ e ∈ out, isTxEvent e = false) (hs : SameClaim n' n) :
    Emission c n d P { node := n', out := out, draws := d } := by
  have hf : out.filter isTxEvent = [] := by simpa using ho
  refine ⟨by simp [hf], by simp [hf], fun f h => ?_, ⟨hs.1, hs.2.1⟩, fun _ => ⟨ho, hs.2.2.1, fun _ => hs.2.2.2⟩⟩
  exact absurd (ho _ h) (by simp [isTxEvent])

theorem Emission.silent (hs : SameClaim n' n) : Emission c n d P { node := n', out := [], draws := d } :=
  Emission.quiet (by simp) hs

/-- One gated frame, then events that are none; `n₀` is the record it was sent from. -/
theorem Emission.gated {t : TxForm} {tail : List OutEvent} (htail : ∀ e ∈ tail, isTxEvent e = false)
    (hg : txBarred c n₀ = txBarred c n) (h1 : n'.name = n.name ∧ n'.tickMs = n.tickMs)
    (h2 : n'.cannotClaim = n.cannotClaim)
    (h3 : n.cannotClaim = true → n'.addr = n.addr ∧ n'.acTable = n.acTable ∧ n'.acFree = n.acFree)
    (hp : P n' (encodeTx t)) (h8 : (encodeTx t).data.length ≤ 8) :
    Emission c n d P { node := n', out := [] ++ gatedFrame c n₀ t ++ tail, draws := d + gatedDraws c n₀ } := by
  have hf : tail.filter isTxEvent = [] := by simpa using htail
  refine ⟨?_, ?_, fun f h => ?_, h1, fun hb => ⟨fun e he => ?_, h2, h3⟩⟩
  · simp only [List.nil_append, List.filter_append, hf, List.append_nil, (gatedFrame_filter c n₀ t).1]
    exact (gatedFrame_filter c n₀ t).2
  · simp only [List.nil_append, List.filter_append, hf, List.append_nil, gatedFrame_filter]
  · simp only [List.nil_append, List.mem_append] at h
    rcases h with h | h
    · unfold gatedFrame at h
      split at h
      · simp at h
      · simp at h
        subst h
        exact ⟨hp, h8⟩
    · exact absurd (htail _ h) (by simp [isTxEvent])
  · simp only [gatedFrame, hg, hb, if_true, List.append_nil, List.nil_append] at he
    exact htail e he

/-- One gated frame and no more, the claim fields untouched. -/
theorem Emission.frame {t : TxForm} (hs₀ : SameClaim n₀ n) (hs : SameClaim n' n) (hp : P n' (encodeTx t))
    (h8 : (encodeTx t).data.length ≤ 8) :
    Emission c n d P { node := n', out := [] ++ gatedFrame c n₀ t, draws := d + gatedDraws c n₀ } := by
  have h := Emission.gated (c := c) (n := n) (n₀ := n₀) (n' := n') (d := d) (P := P) (t := t) (tail := []) (by simp)
    (by simp [txBarred, hs₀.2.2.1]) ⟨hs.1, hs.2.1⟩ hs.2.2.1 (fun _ => hs.2.2.2) hp h8
  rwa [List.append_nil] at h

end Rules

section Procedures
variable {c : Config} {n n₀ n' : Node} {d : Nat} {r : NodeRun}

/-! ### The address-claim engine -/

/-- A claim sent by a Claimed node whose record changed in its claim fields. -/
theorem emission_claim {P : Node → Frame → Prop} (hn : n.cannotClaim = false)
    (h1 : n'.name = n.name ∧ n'.tickMs = n.tickMs) (h2 : n'.cannotClaim = false)
    (hp : P n' (encodeTx (.addressClaimed n'.addr n'.name))) :
    Emission c n d P
      { node := n', out := [] ++ gatedFrame c n' (.addressClaimed n'.addr n'.name), draws := d + gatedDraws c n' } := by
  have h := Emission.gated (c := c) (n := n) (n₀ := n') (n' := n') (d := d) (P := P)
    (t := .addressClaimed n'.addr n'.name) (tail := []) (by simp) (by simp [txBarred, hn, h2]) h1 (by rw [h2, hn])
    (fun h => by rw [hn] at h; cases h) hp (by simp [encodeTx])
  rwa [List.append_nil] at h

/-- What the contention branch hands out is a claim or a Cannot-Claim message of the record it leaves, whatever is
asked of a frame (42_address_claim.md R194). -/
theorem emission_contend {their : Name64} {P : Node → Frame → Prop} (hn : n.cannotClaim = false)
    (hl : c.listenOnly = false)
    (hc : ∀ n' : Node, n'.cannotClaim = false → P n' (encodeTx (.addressClaimed n'.addr n'.name)))
    (hx : ∀ n' : Node, n'.cannotClaim = true → n'.addr = 254#8 → P n' (encodeTx (.cannotClaimAddress n'.name))) :
    Emission c n d P (contend c their { node := n, out := [], draws := d }) := by
  rcases contend_cases c their { node := n, out := [], draws := d } with ⟨-, h⟩ | ⟨-, n₁, hu, h⟩ | ⟨-, -, h⟩
  · rw [h, sendClaim_eq]
    exact emission_claim hn ⟨rfl, rfl⟩ hn (hc _ hn)
  · rw [h, sendClaim_eq]
    obtain ⟨-, j, -, a, -, -, -, rfl⟩ := updateAddress_some hu
    exact emission_claim hn (by simp) (by simpa using hn) (hc _ (by simpa using hn))
  · rw [h, enterCannotClaim_eq]
    refine ⟨Nat.le_refl 1, rfl, fun f hf => ?_, ⟨rfl, rfl⟩, fun h => by simp [txBarred, hl, hn] at h⟩
    simp at hf
    subst hf
    exact ⟨hx _ rfl rfl, by simp [encodeTx]⟩

/-- The claim handler (R194); the mark that ends it touches no field a frame shows. -/
theorem emission_acOnClaim {m : Message} {their : Name64} (hl : c.listenOnly = false)
    (hm : m.pgn = pgnAddressClaimed) :
    Emission c n d (SentOnReceive c n m) (acOnClaim c m.src their { node := n, out := [], draws := d }) := by
  unfold acOnClaim
  split
  · exact Emission.silent (SameClaim.refl n)
  · rename_i hn
    have hn : n.cannotClaim = false := by simpa using hn
    -- a frame of the contention shows the address, the NAME and the flag of the record, which `mark` keeps
    let P : Node → Frame → Prop := fun n' f => ∀ n₁ : Node, n₁.addr = n'.addr → n₁.name = n'.name →
      n₁.cannotClaim = n'.cannotClaim → SentOnReceive c n m n₁ f
    have h : Emission c n d P
        (if m.src = n.addr then contend c their { node := n, out := [], draws := d }
         else { node := n, out := [], draws := d }) := by
      split
      · refine emission_contend hn hl (fun n' h n₁ h1 h2 h3 => ?_) (fun n' h h' n₁ h1 h2 h3 => ?_)
        · rw [← h1, ← h2]
          exact .claim (.inl hm) (h3.trans h)
        · rw [← h2]
          exact .cannotClaim hm (h3.trans h) (h1.trans h')
      · exact Emission.silent (SameClaim.refl n)
    simp only
    split
    · refine ⟨h.one, h.draws, fun f hf => ⟨(h.row f hf).1 _ (by simp) (by simp) (by simp), (h.row f hf).2⟩,
        by simpa using h.ident, fun hb => by simp [txBarred, hl, hn] at hb⟩
    · exact h.mono fun n' f hp => hp n' rfl rfl rfl

/-- The request handler (R199). -/
theorem emission_acOnRequest {m : Message} (hm : isAcRequest c m.pgn m.data = true) :
    Emission c n d (SentOnReceive c n m) (acOnRequest c { node := n, out := [], draws := d }) := by
  unfold acOnRequest
  split
  · exact Emission.silent (SameClaim.refl n)
  · rename_i hn
    have hn : n.cannotClaim = false := by simpa using hn
    rw [sendClaim_eq]
    exact emission_claim hn (by simp [clearTable]) (by simpa [clearTable] using hn)
      (.claim (.inr hm) (by simpa [clearTable] using hn))

/-! ### The transport-protocol engine -/

theorem emission_abort {P : Node → Frame → Prop} (hs : SameClaim n₀ n)
    (hp : P n₀.closed (encodeTx (abortForm n₀ c.abortReasonTimeout))) :
    Emission c n d P (tpAbort c c.abortReasonTimeout { node := n₀, out := [], draws := d }) := by
  rw [tpAbort_eq]
  exact Emission.frame hs hs hp (by simp [encodeTx, abortForm])

theorem emission_onOpen {kind : TpKind} {src dst : Byte} {len : BitVec 16} {npkt : Byte} {pgn : Pgn}
    {P : Node → Frame → Prop} (hp : n.tpKind ≠ .none → P n (encodeTx (.abort src n.addr c.abortReasonBusy pgn)))
    (h : onOpen kind src dst len npkt pgn c { node := n, out := [], draws := d } = .ok r) : Emission c n d P r := by
  unfold onOpen at h
  split at h
  · rename_i hk
    injection h with h
    subst h
    rw [tpBusyAbort_eq]
    exact Emission.frame (SameClaim.refl n) (SameClaim.refl n) (hp hk) (by simp [encodeTx])
  · split at h
    · cases h
    · injection h with h
      subst h
      exact Emission.silent ⟨rfl, rfl, rfl, rfl, rfl, rfl⟩

theorem emission_tpOnCm {m : Message} (hm : m.pgn = pgnTpCm)
    (h : tpOnCm m c { node := n, out := [], draws := d } = .ok r) : Emission c n d (SentOnReceive c n m) r := by
  unfold tpOnCm at h
  split at h
  · rename_i hd
    split at h
    · rename_i hk
      exact emission_onOpen (fun ha => .busyAbort _ _ _ _ _ _ _ _ hm hd (.inl hk) ha rfl) h
    · split at h
      · injection h with h
        subst h
        unfold onCts
        split <;> exact Emission.silent ⟨rfl, rfl, rfl, rfl, rfl, rfl⟩
      · split at h
        · injection h with h
          subst h
          unfold onEoma
          split <;> exact Emission.silent ⟨rfl, rfl, rfl, rfl, rfl, rfl⟩
        · split at h
          · rename_i hk
            exact emission_onOpen (fun ha => .busyAbort _ _ _ _ _ _ _ _ hm hd (.inr hk) ha rfl) h
          · split at h
            · injection h with h
              subst h
              unfold onAbort
              split <;> exact Emission.silent ⟨rfl, rfl, rfl, rfl, rfl, rfl⟩
            · injection h with h
              subst h
              exact Emission.silent (SameClaim.refl n)
  · cases h

/-- What an accepted packet changes (43_transport_protocol.md R235). -/
theorem accept_claim {s : Byte} {chunk : List Byte} (h : accept s chunk n = .ok n') : SameClaim n' n := by
  unfold accept at h
  split at h
  · cases h
  · split at h
    · cases h
    · injection h with h
      subst h
      exact ⟨rfl, rfl, rfl, rfl, rfl, rfl⟩

theorem emission_tpOnDt {m : Message} (hm : m.pgn = pgnTpDt)
    (h : tpOnDt m c { node := n, out := [], draws := d } = .ok r) : Emission c n d (SentOnReceive c n m) r := by
  unfold tpOnDt onDt onSeqMismatch at h
  split at h
  · split at h
    · cases h
    · split at h
      · cases h
      · rename_i hr
        split at h
        · cases h
        · split at h
          · split at h
            · rename_i hp
              injection h with h
              subst h
              split
              · rename_i hk
                exact emission_abort (SameClaim.refl n) (.mismatchAbort hm hp ⟨hk, not_not.1 hr⟩ rfl)
              · exact Emission.silent ⟨rfl, rfl, rfl, rfl, rfl, rfl⟩
            · cases h
          · split at h
            · cases h
            · rename_i ha
              injection h with h
              subst h
              exact Emission.silent (accept_claim ha)
  · cases h

/-- `SendDT`, when it runs to its end (R233). -/
theorem sendDt_inv {r' : NodeRun} (h : sendDt c r = .ok r') :
    r' = { node := r.node.sentDt, out := r.out ++ gatedFrame c r.node (dtForm r.node),
           draws := r.draws + gatedDraws c r.node } := by
  have hr : 0 < r.node.tpRem := by
    rcases Nat.eq_zero_or_pos r.node.tpRem with hz | hz
    · unfold sendDt at h
      rw [if_pos hz] at h
      cases h
    · exact hz
  have hq : r.node.tpSeq ≠ 0#8 := by
    intro hq
    unfold sendDt packetOffset at h
    rw [if_neg (Nat.ne_of_gt hr), if_pos hq] at h
    cases h
  have hb : (r.node.tpSeq.toNat - 1) * 7 + min 7 r.node.tpRem ≤ tpMaxLen := by
    by_contra hb
    have hm : memRead r.node.tpBuf ((r.node.tpSeq.toNat - 1) * tpChunk) (min tpChunk r.node.tpRem) =
      .error (.fault .bufferRange) := if_neg hb
    unfold sendDt at h
    rw [if_neg (Nat.ne_of_gt hr), packetOffset_ok hq] at h
    simp only [hm] at h
    cases h
  rw [sendDt_ok c r hr hq hb] at h
  injection h with h
  exact h.symm

theorem emission_dt {P : Node → Frame → Prop} (hs₀ : SameClaim n₀ n) (hs : SameClaim n' n)
    (hp : P n' (encodeTx (dtForm n₀))) :
    Emission c n d P
      { node := n', out := [] ++ gatedFrame c n₀ (dtForm n₀), draws := d + gatedDraws c n₀ } :=
  Emission.frame hs₀ hs hp (by simp [encodeTx, dtForm, bufBytes])

/-- `TP_DeliverReassembled`, when it runs to its end (R239): one message, no frame. -/
theorem deliverReassembled_inv {r' : NodeRun} (h : deliverReassembled r = .ok r') : ∃ m, r' = deliver m r := by
  unfold deliverReassembled at h
  split at h
  · cases h
  · injection h with h
    exact ⟨_, h.symm⟩

/-- TICK (R250 to R254). -/
theorem emission_tickNode (h : tickNode c { node := n, out := [], draws := d } = .ok r) :
    Emission c n d (SentOnTick c n) r := by
  have still : ∀ {n' : Node}, SameClaim n' n → Emission c n d (SentOnTick c n) { node := n', out := [], draws := d } :=
    fun hs => Emission.silent hs
  unfold tickNode at h
  split at h
  · injection h with h
    subst h
    exact still (SameClaim.refl n)
  · rename_i hidle
    simp only at h
    generalize timerSum c n.tpTimer n.tickMs = t at h
    have aborts : Emission c n d (SentOnTick c n)
        (tpAbort c c.abortReasonTimeout { node := { n with tpTimer := t }, out := [], draws := d }) :=
      emission_abort ⟨rfl, rfl, rfl, rfl, rfl, rfl⟩ (.timeoutAbort hidle rfl)
    split at h
    · rename_i hk hrole
      unfold tickBamTx at h
      split at h
      · rename_i hr
        split at h
        · cases h
        · rename_i hs
          injection h with h
          subst h
          rw [sendDt_inv hs]
          split <;> exact emission_dt ⟨rfl, rfl, rfl, rfl, rfl, rfl⟩ ⟨rfl, rfl, rfl, rfl, rfl, rfl⟩
            (.data hidle hrole hr.1 rfl rfl)
      · injection h with h
        subst h
        split <;> exact still ⟨rfl, rfl, rfl, rfl, rfl, rfl⟩
    · unfold tickBamRx at h
      split at h
      · split at h
        · cases h
        · rename_i hs
          injection h with h
          subst h
          obtain ⟨m, rfl⟩ := deliverReassembled_inv hs
          exact Emission.quiet (by simp [isTxEvent]) ⟨rfl, rfl, rfl, rfl, rfl, rfl⟩
      · split at h
        · injection h with h
          subst h
          split
          · exact aborts
          · exact still ⟨rfl, rfl, rfl, rfl, rfl, rfl⟩
        · injection h with h
          subst h
          exact still ⟨rfl, rfl, rfl, rfl, rfl, rfl⟩
    · rename_i hk hrole
      unfold tickP2pTx at h
      split at h
      · injection h with h
        subst h
        split
        · exact aborts
        · exact still ⟨rfl, rfl, rfl, rfl, rfl, rfl⟩
      · split at h
        · rename_i hr
          split at h
          · split at h
            · cases h
            · rename_i hs
              injection h with h
              subst h
              rw [sendDt_inv hs]
              exact emission_dt ⟨rfl, rfl, rfl, rfl, rfl, rfl⟩ ⟨rfl, rfl, rfl, rfl, rfl, rfl⟩
                (.data hidle hrole hr rfl rfl)
          · injection h with h
            subst h
            exact still ⟨rfl, rfl, rfl, rfl, rfl, rfl⟩
        · injection h with h
          subst h
          split
          · exact aborts
          · exact still ⟨rfl, rfl, rfl, rfl, rfl, rfl⟩
    · rename_i hk hrole
      unfold tickP2pRx at h
      split at h
      · rename_i hcts
        injection h with h
        subst h
        split
        · rw [sendCts_eq]
          exact Emission.frame ⟨rfl, rfl, rfl, rfl, rfl, rfl⟩ ⟨rfl, rfl, rfl, rfl, rfl, rfl⟩
            (.cts ⟨hk, hrole⟩ hcts rfl) (by simp [encodeTx])
        · exact still ⟨rfl, rfl, rfl, rfl, rfl, rfl⟩
      · rename_i hcts
        split at h
        · rename_i hr
          unfold sendEoma at h
          rw [cm_form _ _ _ _ _ (frame_cm_eoma _ _ _ _ _)] at h
          simp only at h
          split at h
          · cases h
          · rename_i hs
            injection h with h
            subst h
            obtain ⟨m, rfl⟩ := deliverReassembled_inv hs
            exact Emission.gated (by simp [isTxEvent]) rfl ⟨rfl, rfl⟩ rfl (fun _ => ⟨rfl, rfl, rfl⟩)
              (.eoma ⟨hk, hrole⟩ (by simpa using hcts) hr rfl) (by simp [encodeTx])
        · injection h with h
          subst h
          split
          · exact aborts
          · exact still ⟨rfl, rfl, rfl, rfl, rfl, rfl⟩
    · injection h with h
      subst h
      exact still ⟨rfl, rfl, rfl, rfl, rfl, rfl⟩

/-! ### Routing and sending -/

/-- Every routed frame (41_dispatcher.md R162). -/
theorem emission_dispatch {m : Message} (hl : c.listenOnly = false)
    (h : dispatch m c { node := n, out := [], draws := d } = .ok r) : Emission c n d (SentOnReceive c n m) r := by
  unfold dispatch at h
  split at h
  · rename_i hm
    injection h with h
    subst h
    exact emission_acOnRequest hm
  · split at h
    · rename_i hm
      exact emission_tpOnCm hm h
    · split at h
      · rename_i hm
        exact emission_tpOnDt hm h
      · split at h
        · rename_i hm
          unfold acOnClaimMessage at h
          split at h
          · injection h with h
            subst h
            exact Emission.silent (SameClaim.refl n)
          · split at h
            · injection h with h
              subst h
              exact emission_acOnClaim hl hm
            · cases h
        · injection h with h
          subst h
          exact Emission.quiet (by simp [isTxEvent]) (SameClaim.refl n)

/-- SEND (R170): a connection's opening frame, or the message itself. -/
theorem emission_sendNode {msg : Message} {st : Status}
    (h : sendNode msg c { node := n, out := [], draws := d } = .ok (r, st)) :
    Emission c n d (SentOnSend n msg) r := by
  have same : Emission c n d (SentOnSend n msg) { node := n, out := [], draws := d } :=
    Emission.silent (SameClaim.refl n)
  unfold sendNode at h
  split at h
  · cases h
    exact same
  · split at h
    · cases h
      exact same
    · split at h
      · cases h
        exact same
      · rename_i hl
        split at h
        · rename_i h8
          rw [sendSingle_eq] at h
          cases h
          refine Emission.frame (SameClaim.refl n) (SameClaim.refl n) ?_ h8
          rw [← frame_single]
          exact .single h8 rfl
        · rename_i h8
          by_cases hk : n.tpKind = .none
          · rw [tpQueue_ok (m := { msg with src := n.addr }) (r := { node := n, out := [], draws := d }) hk
              (Nat.not_lt.1 hl)] at h
            cases h
            by_cases hd : msg.dst = addrGlobal
            · simp only [hd, if_true]
              exact Emission.frame (SameClaim.refl n) ⟨rfl, rfl, rfl, rfl, rfl, rfl⟩
                (.bam hk (Nat.not_le.1 h8) hd ⟨rfl, rfl⟩) (by simp [encodeTx])
            · simp only [hd, if_false]
              exact Emission.frame (SameClaim.refl n) ⟨rfl, rfl, rfl, rfl, rfl, rfl⟩
                (.rts hk (Nat.not_le.1 h8) hd ⟨rfl, rfl⟩) (by simp [encodeTx])
          · unfold tpQueue at h
            rw [if_pos hk] at h
            cases h
            exact same

end Procedures

/-! ### Operations of the host -/

/-- Everything an operation of the host can answer with a next state: RESET, a bare status, one run on the node of its
handle, or a new node. -/
theorem hostOp_cases {s t : State} {op : HostOp} (ho : exec op.toInstr s = .next t) :
    (op = .reset ∧ t = { s with nodeCount := 0, nodes := List.replicate s.cfg.maxNodes Node.reset, outputs := [],
                                result := none }) ∨
    (∃ st, t = s.returned st) ∨
    (∃ h n r st, actingNode op.toInstr = some h ∧ Live s h n ∧ t = s.finish h r st ∧
      Emission s.cfg n s.txDraws (SentBy s.cfg op n) r) ∨
    (∃ name pref tick old, op = .init name pref tick ∧ s.nodes[s.nodeCount]? = some old ∧
      t = s.registered
        (acInit s.cfg name pref { node := initNode tick s.freeDraws old, out := [], draws := s.txDraws })) := by
  cases op with
  | reset =>
    simp only [HostOp.toInstr, exec, execReset] at ho
    cases ho
    exact .inl ⟨rfl, rfl⟩
  | init name pref tick =>
    simp only [HostOp.toInstr, exec] at ho
    unfold execInit at ho
    split at ho
    · cases ho
      exact .inr (.inl ⟨_, rfl⟩)
    · split at ho
      · cases ho
        exact .inr (.inl ⟨_, rfl⟩)
      · split at ho
        · cases ho
          exact .inr (.inl ⟨_, rfl⟩)
        · split at ho
          · cases ho
          · rename_i old hold
            cases ho
            exact .inr (.inr (.inr ⟨_, _, _, _, rfl, hold, rfl⟩))
  | rxframe h f =>
    simp only [HostOp.toInstr, exec] at ho
    unfold execRxframe discardStandard receive at ho
    split at ho
    · rcases onNode_cases ho with ⟨-, rfl⟩ | ⟨n, hl, ⟨r, st, hr, rfl⟩ | ⟨why, -, rfl⟩⟩
      · exact .inr (.inl ⟨_, rfl⟩)
      · refine .inr (.inr (.inl ⟨h, n, r, st, rfl, hl, rfl, ?_⟩))
        split at hr
        · cases hr
          exact Emission.quiet (by simp [isTxEvent]) (SameClaim.refl n)
        · rename_i hlo
          split at hr
          · cases hr
          · cases hd : dispatch (frameToMessage f) s.cfg { node := n, out := [], draws := s.txDraws } with
            | ok r₁ =>
              rw [hd] at hr
              cases hr
              exact emission_dispatch (by simpa using hlo) hd
            | error e =>
              rw [hd] at hr
              cases hr
      · exact .inr (.inl ⟨_, rfl⟩)
    · rcases onNode_cases ho with ⟨-, rfl⟩ | ⟨n, hl, ⟨r, st, hr, rfl⟩ | ⟨why, -, rfl⟩⟩
      · exact .inr (.inl ⟨_, rfl⟩)
      · cases hr
      · exact .inr (.inl ⟨_, rfl⟩)
  | tick h =>
    simp only [HostOp.toInstr, exec] at ho
    unfold execTick at ho
    rcases onNode_cases ho with ⟨-, rfl⟩ | ⟨n, hl, ⟨r, st, hr, rfl⟩ | ⟨why, -, rfl⟩⟩
    · exact .inr (.inl ⟨_, rfl⟩)
    · cases hd : tickNode s.cfg { node := n, out := [], draws := s.txDraws } with
      | ok r₁ =>
        rw [hd] at hr
        cases hr
        exact .inr (.inr (.inl ⟨h, n, _, _, rfl, hl, rfl, emission_tickNode hd⟩))
      | error e =>
        rw [hd] at hr
        cases hr
    · exact .inr (.inl ⟨_, rfl⟩)
  | send h msg =>
    simp only [HostOp.toInstr, exec] at ho
    unfold execSend at ho
    rcases onNode_cases ho with ⟨-, rfl⟩ | ⟨n, hl, ⟨r, st, hr, rfl⟩ | ⟨why, -, rfl⟩⟩
    · exact .inr (.inl ⟨_, rfl⟩)
    · exact .inr (.inr (.inl ⟨h, n, r, st, rfl, hl, rfl, emission_sendNode hr⟩))
    · exact .inr (.inl ⟨_, rfl⟩)

end Sys2Proof.Machine
end

