-- ==== Sys2Proof/Laws/PerInstr.lean ====
section
/-! SUPPORT. Statements about every instruction as syntax, one lemma per constructor. FrameForm: the frame a
well-formed class is encoded as is a CAN frame, and extended unless the class is STD_FRAME (30_encoding.md R90, R107). -/

namespace Sys2Proof.Laws.FrameForm

/-- At most eight data bytes; bit 31 clear only for STD_FRAME, which is then that very frame. -/
def Statement (i : Instr) : Prop :=
  ∀ c f, WellFormed c i = true → encode c i = some f →
    f.data.length ≤ 8 ∧ (f.id.getLsbD 31 = false → ∃ h, i = .stdFrame h f.id f.data)

/-- An extended class. -/
theorem of_classFrame {i : Instr} {c : Config} {f : Frame} {pgn : Pgn} {r : Routing} {data : List Byte}
    (he : encode c i = some (classFrame pgn r data)) (hf : encode c i = some f) (hd : data.length ≤ 8) :
    f.data.length ≤ 8 ∧ (f.id.getLsbD 31 = false → ∃ h, i = .stdFrame h f.id f.data) := by
  rw [he] at hf
  cases hf
  exact ⟨hd, fun h => absurd ((encodeId_eff ..).symm.trans h) (by decide)⟩

theorem stdFrame (h : Nat) (id : IdWord) (data : List Byte) : Statement (.stdFrame h id data) := by
  intro c f hw he
  simp only [WellFormed, Bool.and_eq_true, decide_eq_true_eq] at hw
  cases he
  exact ⟨hw.2, fun _ => ⟨h, rfl⟩⟩

theorem requestAc (h : Nat) (r : Routing) (extra : List Byte) : Statement (.requestAc h r extra) := by
  intro c f hw he
  simp only [WellFormed, Bool.and_eq_true, decide_eq_true_eq] at hw
  exact of_classFrame rfl he (by simp [requestAcBytes]; omega)

theorem tpCmRts (h : Nat) (r : Routing) (len : BitVec 16) (npkt maxPackets : Byte) (pgn : Pgn) : Statement (.tpCmRts h r len npkt maxPackets pgn) :=
  fun _ _ _ he => of_classFrame rfl he (by simp)

theorem tpCmCts (h : Nat) (r : Routing) (packets nextSeq res3 res4 : Byte) (pgn : Pgn) : Statement (.tpCmCts h r packets nextSeq res3 res4 pgn) :=
  fun _ _ _ he => of_classFrame rfl he (by simp)

theorem tpCmEoma (h : Nat) (r : Routing) (len : BitVec 16) (npkt res4 : Byte) (pgn : Pgn) : Statement (.tpCmEoma h r len npkt res4 pgn) :=
  fun _ _ _ he => of_classFrame rfl he (by simp)

theorem tpCmBam (h : Nat) (r : Routing) (len : BitVec 16) (npkt res4 : Byte) (pgn : Pgn) : Statement (.tpCmBam h r len npkt res4 pgn) :=
  fun _ _ _ he => of_classFrame rfl he (by simp)

theorem tpCmAbort (h : Nat) (r : Routing) (reason res2 res3 res4 : Byte) (pgn : Pgn) : Statement (.tpCmAbort h r reason res2 res3 res4 pgn) :=
  fun _ _ _ he => of_classFrame rfl he (by simp)

theorem tpCmOther (h : Nat) (r : Routing) (control : Byte) (rest : List Byte) : Statement (.tpCmOther h r control rest) := by
  intro c f hw he
  simp only [WellFormed, sevenBytes, Bool.and_eq_true, decide_eq_true_eq] at hw
  exact of_classFrame rfl he (by simp [hw])

theorem tpDt (h : Nat) (r : Routing) (seq : Byte) (chunk : List Byte) : Statement (.tpDt h r seq chunk) := by
  intro c f hw he
  simp only [WellFormed, sevenBytes, Bool.and_eq_true, decide_eq_true_eq] at hw
  exact of_classFrame rfl he (by simp [hw])

theorem addressClaimed (h : Nat) (r : Routing) (name : Name64) : Statement (.addressClaimed h r name) :=
  fun _ _ _ he => of_classFrame rfl he (by simp)

theorem app (h : Nat) (prio : BitVec 3) (pgn : Pgn) (src dst : Byte) (data : List Byte) :
    Statement (.app h prio pgn src dst data) := by
  intro c f hw he
  simp only [WellFormed, appFrameWf, Bool.and_eq_true, decide_eq_true_eq] at hw
  exact of_classFrame (r := { prio := prio, dst := dst, src := src }) rfl he hw.1.1.1.1.1

/-! ### Instructions without a frame of their own -/

theorem txAddressClaimed (h : Nat) : Statement (.txAddressClaimed h) := fun _ _ _ he => by cases he
theorem txCannotClaimAddress (h : Nat) : Statement (.txCannotClaimAddress h) := fun _ _ _ he => by cases he
theorem txTpCmBam (h : Nat) : Statement (.txTpCmBam h) := fun _ _ _ he => by cases he
theorem txTpCmRts (h : Nat) : Statement (.txTpCmRts h) := fun _ _ _ he => by cases he
theorem txTpCmCts (h : Nat) : Statement (.txTpCmCts h) := fun _ _ _ he => by cases he
theorem txTpCmEoma (h : Nat) : Statement (.txTpCmEoma h) := fun _ _ _ he => by cases he
theorem txTpCmAbortTimeout (h : Nat) : Statement (.txTpCmAbortTimeout h) := fun _ _ _ he => by cases he
theorem txTpCmAbortBusy (h : Nat) (dst : Byte) (pgn : Pgn) : Statement (.txTpCmAbortBusy h dst pgn) := fun _ _ _ he => by cases he
theorem txTpDt (h : Nat) : Statement (.txTpDt h) := fun _ _ _ he => by cases he
theorem txAppSingle (h : Nat) (msg : Message) : Statement (.txAppSingle h msg) := fun _ _ _ he => by cases he
theorem reset : Statement .reset := fun _ _ _ he => by cases he
theorem init (name : Name64) (pref : Byte) (tick : Nat) : Statement (.init name pref tick) := fun _ _ _ he => by cases he
theorem rxframe (h : Nat) (f : Frame) : Statement (.rxframe h f) := fun _ _ _ he => by cases he
theorem tick (h : Nat) : Statement (.tick h) := fun _ _ _ he => by cases he
theorem send (h : Nat) (msg : Message) : Statement (.send h msg) := fun _ _ _ he => by cases he

end Sys2Proof.Laws.FrameForm
end

