-- ==== Sys2Proof/Tests/Slice0.lean ====
section
/-! SUPPORT. The model's own tests, each about one operation. Expected results come from the spec's vectors and rules
(95_test_vectors.md; each test names its vector or rule), not from the model. After them, for every obligation with
hypotheses, a witness that meets them, at a boundary of every clause. -/

namespace Sys2Proof.Tests
open Sys2Proof Sys2Proof.Machine
set_option Elab.async false

/-! ### Small records and states -/

/-- A Claimed node without a connection (the start of the vectors A1, T1). -/
def idle : Node :=
  { Node.reset with addr := 0x80#8, name := 0x64#64, tickMs := 10, acTable := selfOnlyTable 0x80#8, acFree := 253 }

/-- Every slot but 79 occupied (vector A7). -/
def crowded : Node :=
  { idle with addr := 80#8, acTable := Vector.ofFn fun i => decide (i.val ≠ 79), acFree := 1 }

/-- Every slot occupied (program P4). -/
def full : Node := { idle with addr := 80#8, acTable := Vector.replicate 254 true, acFree := 0 }

/-- A Cannot-Claim node. -/
def barred : Node := { full with addr := 254#8, cannotClaim := true }

/-- Ten bytes 01 to 0A at offset 0. -/
def tenBytes : Memory :=
  [(0, 1#8), (1, 2#8), (2, 3#8), (3, 4#8), (4, 5#8), (5, 6#8), (6, 7#8), (7, 8#8), (8, 9#8), (9, 10#8)]

/-- `idle` with a connection of a 10-byte message of PGN 0x00FEB0 just opened (vectors T1, T3, T8, T9). -/
def opened (kind : TpKind) (role : TpRole) (peer dest : Byte) : Node :=
  { idle with tpKind := kind, tpRole := role, tpLen := 10, tpRem := 10, tpSeq := 1#8, tpNpkt := 2#8,
              tpPgn := 0x00FEB0#24, tpPeer := peer, tpDest := dest, tpBuf := tenBytes }

def bamTx : Node := opened .bcast .sender 255#8 255#8
def bamRx : Node := opened .bcast .receiver 0x90#8 255#8
def peerTx : Node := opened .p2p .sender 0x90#8 0x90#8
def peerRx : Node := opened .p2p .receiver 0x90#8 0x80#8

/-- A receiver before the last packet of a 1785-byte message (43_transport_protocol.md R282). -/
def lastRx : Node := { peerRx with tpCts := true, tpLen := 1785, tpRem := 7, tpSeq := 255#8, tpNpkt := 255#8 }

/-- A block of two records, the first in use. -/
def one (n : Node) : State := { State.reset with nodeCount := 1, nodes := [n, Node.reset] }

/-- The same, listen-only. -/
def mute (n : Node) : State := { one n with cfg := { Config.default with listenOnly := true } }

/-- A record as a comparison reads it: the table as a list beside the record without it. -/
structure Seen where
  table : List Bool
  claim : Byte × Name64 × Nat × Nat × Bool
  conn : TpKind × TpRole × Bool × Byte × Nat × Nat
  msg : Byte × Pgn × Byte × Byte × Nat
  buf : Memory
  deriving DecidableEq

def seen (n : Node) : Seen :=
  { table := n.acTable.toList, claim := (n.addr, n.name, n.tickMs, n.acFree, n.cannotClaim),
    conn := (n.tpKind, n.tpRole, n.tpCts, n.tpSeq, n.tpRem, n.tpLen),
    msg := (n.tpNpkt, n.tpPgn, n.tpPeer, n.tpDest, n.tpTimer), buf := n.tpBuf }

/-- What an instruction leaves of the first record, and what it hands out. -/
def after (i : Instr) (s : State) : Option (Seen × List OutEvent) :=
  match exec i s with
  | .next t => t.nodes.head?.map fun n => (seen n, t.outputs)
  | .fault _ => none
  | .refused _ => none

/-- The answer a test expects: this record, these events. -/
def leaves (n : Node) (evs : List OutEvent) : Option (Seen × List OutEvent) := some (seen n, evs)

/-- The status an instruction returns. -/
def statusOf (i : Instr) (s : State) : Option Status :=
  match exec i s with
  | .next t => t.result.map Ret.status
  | .fault _ => none
  | .refused _ => none

def ends? (o : Host.Outcome State Fault Refusal) : Bool :=
  match o with
  | .next _ => true
  | .fault _ => false
  | .refused _ => false

theorem next_of_ends {o : Host.Outcome State Fault Refusal} (h : ends? o = true) : ∃ t, o = .next t := by
  cases o with
  | next t => exact ⟨t, rfl⟩
  | fault e => simp [ends?] at h
  | refused e => simp [ends?] at h

theorem emits {i : Instr} {s : State} {evs : List OutEvent} (h : (after i s).map Prod.snd = some evs) :
    ∃ t, exec i s = .next t ∧ t.outputs = evs := by
  cases ht : exec i s with
  | next t =>
    simp only [after, ht, Option.map_map, Option.map_eq_some_iff, Function.comp] at h
    obtain ⟨_, _, he⟩ := h
    exact ⟨t, rfl, he⟩
  | fault e => simp [after, ht] at h
  | refused e => simp [after, ht] at h

/-- From 0x90 to the node at 0x80, and from 0x90 to all. -/
def fromPeer : Routing := { prio := 7#3, dst := 0x80#8, src := 0x90#8 }
def toAll : Routing := { prio := 6#3, dst := 0xFF#8, src := 0x21#8 }

/-! ### WellFormed refuses an ill-formed term for each of its checks -/

theorem test_wf_standard : WellFormed Config.default (.stdFrame 0 0x98EEFF21#32 []) = false ∧
    WellFormed Config.default (.stdFrame 0 0x18EEFF21#32 (List.replicate 9 0#8)) = false := by decide
theorem test_wf_request : WellFormed Config.default (.requestAc 0 toAll (List.replicate 6 0#8)) = false ∧
    WellFormed { Config.default with pgnRequest := 0x00F000#24 } (.requestAc 0 fromPeer []) = false := by decide
theorem test_wf_other : WellFormed Config.default (.tpCmOther 0 toAll 21#8 []) = false ∧
    WellFormed Config.default (.tpCmOther 0 toAll 16#8 (List.replicate 7 0#8)) = false ∧
    WellFormed { Config.default with pgnRequest := pgnTpCm }
      (.tpCmOther 0 toAll 0#8 [0xEE#8, 0#8, 0#8, 0#8, 0#8, 0#8, 0#8]) = false := by decide
theorem test_wf_data : WellFormed Config.default (.tpDt 0 toAll 1#8 (List.replicate 6 0#8)) = false ∧
    WellFormed { Config.default with pgnRequest := pgnTpDt }
      (.tpDt 0 toAll 0#8 [0xEE#8, 0#8, 0#8, 0#8, 0#8, 0#8, 0#8]) = false := by decide
theorem test_wf_claim : WellFormed { Config.default with pgnRequest := pgnAddressClaimed }
    (.addressClaimed 0 toAll 0xEE00#64) = false := by decide
theorem test_wf_app_pgn : WellFormed Config.default (.app 0 6#3 0x00EC00#24 1#8 2#8 []) = false ∧
    WellFormed Config.default (.app 0 6#3 0x00EB00#24 1#8 2#8 []) = false ∧
    WellFormed Config.default (.app 0 6#3 0x00EE00#24 1#8 2#8 []) = false ∧
    WellFormed Config.default (.app 0 6#3 0x00EA00#24 1#8 2#8 [0x00#8, 0xEE#8, 0x00#8]) = false := by decide
theorem test_wf_app_form : WellFormed Config.default (.app 0 6#3 0x00F004#24 1#8 2#8 []) = false ∧
    WellFormed Config.default (.app 0 6#3 0x00EF55#24 1#8 2#8 []) = false ∧
    WellFormed Config.default (.app 0 6#3 0x02F004#24 1#8 255#8 []) = false ∧
    WellFormed Config.default (.app 0 6#3 0x00F004#24 1#8 255#8 (List.replicate 9 0#8)) = false := by decide
theorem test_wf_single : WellFormed Config.default
    (.txAppSingle 0 { prio := 6#3, pgn := 0x00EF00#24, src := 0#8, dst := 1#8, data := List.replicate 9 0#8 }) = false :=
  by decide
theorem test_wf_rxframe : WellFormed Config.default (.rxframe 0 { id := 0#32, data := List.replicate 9 0#8 }) = false :=
  by decide

/-! ### The codec (95_test_vectors.md 2.1) -/

theorem test_decodeId_pdu1_limit :
    decodeId 0x98EFFF00#32 = { prio := 6#3, pgn := 0x00EF00#24, src := 0x00#8, dst := 0xFF#8 } ∧
    decodeId 0x98F00000#32 = { prio := 6#3, pgn := 0x00F000#24, src := 0x00#8, dst := 0xFF#8 } := by decide
theorem test_decodeId_ones :
    decodeId 0xFFFFFFFF#32 = { prio := 7#3, pgn := 0x01FFFF#24, src := 0xFF#8, dst := 0xFF#8 } ∧
    decodeId 0x18EBF900#32 = { prio := 6#3, pgn := 0x00EB00#24, src := 0x00#8, dst := 0xF9#8 } := by decide
theorem test_encodeId : encodeId 3#3 0x00F004#24 0xFE#8 0x12#8 = 0x8CF004FE#32 ∧
    encodeId 6#3 0x03EB55#24 0x00#8 0xF9#8 = 0x99EBF900#32 ∧
    encodeId 7#3 0x01EF00#24 0xFD#8 0xFF#8 = 0x9DEFFFFD#32 := by decide

/-! ### One word of every received row, from R91, R95 to R103 and the vectors -/

/-- D1. -/
theorem test_decode_standard : decode Config.default 0
    { id := 0x18EEFF21#32, data := [1#8, 0#8, 0#8, 0#8, 0#8, 0#8, 0#8, 0#8] } =
    .ok (.stdFrame 0 0x18EEFF21#32 [1#8, 0#8, 0#8, 0#8, 0#8, 0#8, 0#8, 0#8]) := by decide
/-- D7. -/
theorem test_decode_request : decode Config.default 0
    { id := 0x98EAFF21#32, data := [0x00#8, 0xEE#8, 0x00#8, 0x55#8, 0x55#8] } =
    .ok (.requestAc 0 toAll [0x55#8, 0x55#8]) := by decide
/-- T2's lengths in an RTS from 0x90 to 0x80. -/
theorem test_decode_rts : decode Config.default 0
    { id := 0x9CEC8090#32, data := [0x10#8, 0xF9#8, 0x06#8, 0xFF#8, 0x05#8, 0xB0#8, 0xFE#8, 0x01#8] } =
    .ok (.tpCmRts 0 fromPeer 1785#16 255#8 5#8 0x01FEB0#24) := by decide
/-- R99. -/
theorem test_decode_cts : decode Config.default 0
    { id := 0x9CEC8090#32, data := [0x11#8, 0x02#8, 0x01#8, 0xFF#8, 0xFE#8, 0xB0#8, 0xFE#8, 0x00#8] } =
    .ok (.tpCmCts 0 fromPeer 2#8 1#8 0xFF#8 0xFE#8 0x00FEB0#24) := by decide
/-- T18. -/
theorem test_decode_eoma : decode Config.default 0
    { id := 0x9CEC8090#32, data := [0x13#8, 0x09#8, 0x00#8, 0x02#8, 0xFF#8, 0xB0#8, 0xFE#8, 0x00#8] } =
    .ok (.tpCmEoma 0 fromPeer 9#16 2#8 0xFF#8 0x00FEB0#24) := by decide
/-- R101. -/
theorem test_decode_bam : decode Config.default 0
    { id := 0x9CECFF90#32, data := [0x20#8, 0x0A#8, 0x00#8, 0x02#8, 0xFF#8, 0xB0#8, 0xFE#8, 0x00#8] } =
    .ok (.tpCmBam 0 { prio := 7#3, dst := 0xFF#8, src := 0x90#8 } 10#16 2#8 0xFF#8 0x00FEB0#24) := by decide
/-- T16. -/
theorem test_decode_abort : decode Config.default 0
    { id := 0x9CEC8090#32, data := [0xFF#8, 0x02#8, 0x11#8, 0x22#8, 0x33#8, 0xB0#8, 0xFE#8, 0x00#8] } =
    .ok (.tpCmAbort 0 fromPeer 2#8 0x11#8 0x22#8 0x33#8 0x00FEB0#24) := by decide
/-- T19. -/
theorem test_decode_other : decode Config.default 0
    { id := 0x9CEC8090#32, data := [0x15#8, 1#8, 2#8, 3#8, 4#8, 5#8, 6#8, 7#8] } =
    .ok (.tpCmOther 0 fromPeer 0x15#8 [1#8, 2#8, 3#8, 4#8, 5#8, 6#8, 7#8]) := by decide
/-- D12. -/
theorem test_decode_data : decode Config.default 0
    { id := 0x9CEB8021#32, data := [0x01#8, 1#8, 2#8, 3#8, 4#8, 5#8, 6#8, 7#8] } =
    .ok (.tpDt 0 { prio := 7#3, dst := 0x80#8, src := 0x21#8 } 1#8 [1#8, 2#8, 3#8, 4#8, 5#8, 6#8, 7#8]) := by decide
/-- I5's NAME, which shows its byte order. -/
theorem test_decode_claim : decode Config.default 0
    { id := 0x98EEFF21#32, data := [8#8, 7#8, 6#8, 5#8, 4#8, 3#8, 2#8, 1#8] } =
    .ok (.addressClaimed 0 toAll 0x0102030405060708#64) := by decide
/-- D10. -/
theorem test_decode_app : decode Config.default 0
    { id := 0x99EC8021#32, data := [0x10#8, 0x0A#8, 0x00#8, 0x02#8, 0xFF#8, 0xB0#8, 0xFE#8, 0x00#8] } =
    .ok (.app 0 6#3 0x01EC00#24 0x21#8 0x80#8
      [0x10#8, 0x0A#8, 0x00#8, 0x02#8, 0xFF#8, 0xB0#8, 0xFE#8, 0x00#8]) := by decide
/-- D11, and a frame of nine bytes. -/
theorem test_decode_rejects :
    decode Config.default 0 { id := 0x9CEC8021#32, data := List.replicate 7 0#8 } = .error .badLength ∧
    decode Config.default 0 { id := 0x9CEB8021#32, data := [] } = .error .badLength ∧
    decode Config.default 0 { id := 0x98EEFF21#32, data := List.replicate 4 0#8 } = .error .badLength ∧
    decode Config.default 0 { id := 0x98EFFF21#32, data := List.replicate 9 0#8 } = .error .tooLong := by decide

/-- A table word: the identifier in bits 31..0, the data bytes zero, handle 0 (log entry 4). -/
theorem test_table_word : decodeTableWord 32 0x9CEB0000 =
    some (.tpDt 0 { prio := 7#3, dst := 0#8, src := 0#8 } 0#8 (List.replicate 7 0#8)) ∧
    decodeTableWord 96 0xFEB0FF02000A109CEC9080 = some (.tpCmRts 0 { prio := 7#3, dst := 0x90#8, src := 0x80#8 }
      10#16 2#8 0xFF#8 0x00FEB0#24) ∧ decodeTableWord 0 0 = none := by decide

/-! ### Received rows -/

/-- D1. -/
theorem test_stdFrame : after (.stdFrame 0 0x18EEFF21#32 [1#8]) (one idle) = leaves idle [] := by decide +kernel
/-- The end of program P1. -/
theorem test_requestAc : after (.requestAc 0 { toAll with src := 0x21#8 } [])
    (one { idle with addr := 0x81#8, acTable := (selfOnlyTable 0x80#8).set 0x21 true, acFree := 251 }) =
    leaves { idle with addr := 0x81#8, acTable := selfOnlyTable 0x81#8, acFree := 253 }
      [.txFrame { id := 0x98EEFF81#32, data := [0x64#8, 0#8, 0#8, 0#8, 0#8, 0#8, 0#8, 0#8] }] := by decide +kernel
/-- R272's example, mirrored: RTS from 0x90. -/
theorem test_rts_opens : after (.tpCmRts 0 fromPeer 10#16 2#8 0xFF#8 0x00FEB0#24) (one { idle with tpBuf := tenBytes }) =
    leaves peerRx [] := by decide +kernel
/-- T12, from 0x85 to the node at 0x80. -/
theorem test_rts_busy : after (.tpCmRts 0 { fromPeer with src := 0x85#8 } 20#16 3#8 0xFF#8 0x00FF00#24) (one peerRx) =
    leaves peerRx [.txFrame { id := 0x9CEC8580#32, data := [0xFF#8, 1#8, 0xFF#8, 0xFF#8, 0xFF#8, 0#8, 0xFF#8, 0#8] }] :=
  by decide +kernel
/-- T7: a CTS announcing zero packets and a wrong PGN is full clearance. -/
theorem test_cts : after (.tpCmCts 0 fromPeer 0#8 0#8 0xFF#8 0xFF#8 0#24) (one { peerTx with tpTimer := 120 }) =
    leaves { peerTx with tpCts := true, tpTimer := 0 } [] := by decide +kernel
/-- R271: a repeated CTS changes nothing, the timer included. -/
theorem test_cts_again : after (.tpCmCts 0 fromPeer 0#8 0#8 0xFF#8 0xFF#8 0#24)
    (one { peerTx with tpCts := true, tpTimer := 30 }) = leaves { peerTx with tpCts := true, tpTimer := 30 } [] :=
  by decide +kernel
/-- T18: an early EOMA is ignored. -/
theorem test_eoma_early : after (.tpCmEoma 0 fromPeer 9#16 2#8 0xFF#8 0x00FEB0#24)
    (one { peerTx with tpCts := true, tpRem := 2 }) = leaves { peerTx with tpCts := true, tpRem := 2 } [] :=
  by decide +kernel
/-- R273: with nothing left it closes. -/
theorem test_eoma_closes : after (.tpCmEoma 0 fromPeer 10#16 2#8 0xFF#8 0x00FEB0#24)
    (one { peerTx with tpCts := true, tpRem := 0 }) = leaves { peerTx with tpKind := .none, tpRem := 0 } [] :=
  by decide +kernel
/-- R274: a BAM addressed to the node still opens a broadcast for 255. -/
theorem test_bam_opens : after (.tpCmBam 0 fromPeer 10#16 2#8 0xFF#8 0x00FEB0#24) (one { idle with tpBuf := tenBytes }) =
    leaves bamRx [] := by decide +kernel
/-- T13: busy before over-length. -/
theorem test_bam_busy : after (.tpCmBam 0 { prio := 7#3, dst := 0xFF#8, src := 0x85#8 } 65535#16 255#8 0xFF#8 0x00FF00#24)
    (one bamRx) =
    leaves bamRx [.txFrame { id := 0x9CEC8580#32, data := [0xFF#8, 1#8, 0xFF#8, 0xFF#8, 0xFF#8, 0#8, 0xFF#8, 0#8] }] :=
  by decide +kernel
/-- T16. -/
theorem test_abort_closes : after (.tpCmAbort 0 fromPeer 2#8 0xFF#8 0xFF#8 0xFF#8 0x00FEB0#24) (one bamRx) =
    leaves { bamRx with tpKind := .none } [] := by decide +kernel
/-- T17. -/
theorem test_abort_foreign : after (.tpCmAbort 0 fromPeer 2#8 0xFF#8 0xFF#8 0xFF#8 0x00FEB1#24) (one bamRx) =
    leaves bamRx [] := by decide +kernel
/-- T19. -/
theorem test_other : after (.tpCmOther 0 fromPeer 0x15#8 (List.replicate 7 0#8)) (one peerTx) = leaves peerTx [] :=
  by decide +kernel
/-- R280's example: 01..07 at offsets 0..6. -/
theorem test_data_first : after (.tpDt 0 fromPeer 1#8 [1#8, 2#8, 3#8, 4#8, 5#8, 6#8, 7#8])
    (one { peerRx with tpBuf := [], tpTimer := 40 }) =
    leaves { peerRx with tpBuf := tenBytes.take 7, tpRem := 3, tpSeq := 2#8, tpTimer := 0 } [] := by decide +kernel
/-- P3: of the last packet three bytes are copied, the padding is not. -/
theorem test_data_last : after (.tpDt 0 fromPeer 2#8 [8#8, 9#8, 10#8, 0xFF#8, 0xFF#8, 0xFF#8, 0xFF#8])
    (one { peerRx with tpBuf := tenBytes.take 7, tpRem := 3, tpSeq := 2#8 }) =
    leaves { peerRx with tpRem := 0, tpSeq := 3#8 } [] := by decide +kernel
/-- A6: a lower NAME moves the node from 0x80 to 0x81. -/
theorem test_claim_lost : after (.addressClaimed 0 { toAll with src := 0x80#8 } 0x63#64) (one idle) =
    leaves { idle with addr := 0x81#8, acTable := (selfOnlyTable 0x80#8).set 0x81 true, acFree := 252 }
      [.txFrame { id := 0x98EEFF81#32, data := [0x64#8, 0#8, 0#8, 0#8, 0#8, 0#8, 0#8, 0#8] }] := by decide +kernel
/-- A7 (V6): the search wraps to 79. -/
theorem test_claim_wraps : after (.addressClaimed 0 { toAll with src := 80#8 } 0x63#64) (one crowded) =
    leaves { full with addr := 79#8 }
      [.txFrame { id := 0x98EEFF4F#32, data := [0x64#8, 0#8, 0#8, 0#8, 0#8, 0#8, 0#8, 0#8] }] := by decide +kernel
/-- D3. -/
theorem test_app : after (.app 0 6#3 0x00EF00#24 0x21#8 0x80#8 [0xAA#8]) (one idle) =
    leaves idle [.deliver { prio := 6#3, pgn := 0x00EF00#24, src := 0x21#8, dst := 0x80#8, data := [0xAA#8] }] :=
  by decide +kernel

/-! ### Transmitted rows: the frames of the vectors -/

/-- P1. -/
theorem test_tx_claim : after (.txAddressClaimed 0) (one idle) =
    leaves idle [.txFrame { id := 0x98EEFF80#32, data := [0x64#8, 0#8, 0#8, 0#8, 0#8, 0#8, 0#8, 0#8] }] :=
  by decide +kernel
/-- P4. -/
theorem test_tx_cannot : after (.txCannotClaimAddress 0) (one full) =
    leaves barred [.txFrame { id := 0x98EEFFFE#32, data := [0x64#8, 0#8, 0#8, 0#8, 0#8, 0#8, 0#8, 0#8] }] :=
  by decide +kernel
/-- T1. -/
theorem test_tx_bam : after (.txTpCmBam 0) (one { bamTx with tpKind := .none }) = leaves bamTx
      [.txFrame { id := 0x9CECFF80#32, data := [0x20#8, 0x0A#8, 0#8, 2#8, 0xFF#8, 0xB0#8, 0xFE#8, 0#8] }] :=
  by decide +kernel
/-- T3's frame, for the 10-byte message. -/
theorem test_tx_rts : after (.txTpCmRts 0) (one { peerTx with tpKind := .none }) = leaves peerTx
      [.txFrame { id := 0x9CEC9080#32, data := [0x10#8, 0x0A#8, 0#8, 2#8, 0xFF#8, 0xB0#8, 0xFE#8, 0#8] }] :=
  by decide +kernel
/-- T8's frame, between the same addresses the other way round. -/
theorem test_tx_cts : after (.txTpCmCts 0) (one { peerRx with tpTimer := 50 }) = leaves { peerRx with tpCts := true }
      [.txFrame { id := 0x9CEC9080#32, data := [0x11#8, 2#8, 1#8, 0xFF#8, 0xFF#8, 0xB0#8, 0xFE#8, 0#8] }] :=
  by decide +kernel
/-- The end of P3: the EOMA, then the delivery. -/
theorem test_tx_eoma : after (.txTpCmEoma 0) (one { peerRx with tpCts := true, tpRem := 0 }) =
    leaves { peerRx with tpKind := .none, tpRem := 0 }
      [.txFrame { id := 0x9CEC9080#32, data := [0x13#8, 0x0A#8, 0#8, 2#8, 0xFF#8, 0xB0#8, 0xFE#8, 0#8] },
       .deliver { prio := 7#3, pgn := 0x00FEB0#24, src := 0x90#8, dst := 0x80#8,
                  data := [1#8, 2#8, 3#8, 4#8, 5#8, 6#8, 7#8, 8#8, 9#8, 10#8] }] := by decide +kernel
/-- T6. -/
theorem test_tx_timeout : after (.txTpCmAbortTimeout 0) (one peerTx) = leaves { peerTx with tpKind := .none }
      [.txFrame { id := 0x9CEC9080#32, data := [0xFF#8, 3#8, 0xFF#8, 0xFF#8, 0xFF#8, 0xB0#8, 0xFE#8, 0#8] }] :=
  by decide +kernel
/-- T12. -/
theorem test_tx_busy : after (.txTpCmAbortBusy 0 0x85#8 0x00FF00#24) (one peerTx) = leaves peerTx
      [.txFrame { id := 0x9CEC8580#32, data := [0xFF#8, 1#8, 0xFF#8, 0xFF#8, 0xFF#8, 0#8, 0xFF#8, 0#8] }] :=
  by decide +kernel
/-- P2's second packet, and SendDT's precondition (R233). -/
theorem test_tx_data : after (.txTpDt 0) (one { bamTx with tpRem := 3, tpSeq := 2#8 }) =
    leaves { bamTx with tpRem := 0, tpSeq := 3#8 }
      [.txFrame { id := 0x9CEBFF80#32, data := [2#8, 8#8, 9#8, 10#8, 0xFF#8, 0xFF#8, 0xFF#8, 0xFF#8] }] :=
  by decide +kernel
/-- D14: the source is overwritten. -/
theorem test_tx_single : after
    (.txAppSingle 0 { prio := 6#3, pgn := 0x00EF00#24, src := 0x33#8, dst := 0x90#8, data := [] }) (one idle) =
    leaves idle [.txFrame { id := 0x98EF9080#32, data := [] }] := by decide +kernel

/-! ### Host operations -/

/-- I9. -/
theorem test_reset : after .reset (one idle) = leaves Node.reset [] ∧
    statusOf (.tick 0) State.reset = some .errHandle := by decide +kernel
/-- I5: no delay below 128, the NAME least significant byte first. -/
theorem test_init :
    (after (.init 0x0102030405060708#64 127#8 1) State.reset).map (fun r => (r.1.table, r.1.claim)) =
      some ((selfOnlyTable 127#8).toList, (0x7F#8, 0x0102030405060708#64, 1, 253, false)) ∧
    (after (.init 0x0102030405060708#64 127#8 1) State.reset).map Prod.snd =
      some [.txFrame { id := 0x98EEFF7F#32, data := [8#8, 7#8, 6#8, 5#8, 4#8, 3#8, 2#8, 1#8] }] := by decide +kernel
/-- The startup-delay boundaries of 2.2. -/
theorem test_init_delay : ((after (.init 0x64#64 247#8 10) State.reset).map fun r => r.2.drop 1) =
      some [.startupDelay 250] ∧
    ((after (.init 0x64#64 248#8 10) State.reset).map fun r => r.2.drop 1) = some [] := by decide +kernel
/-- D2 and D8. -/
theorem test_rxframe : after (.rxframe 0 { id := 0x98EF9021#32, data := [0xAA#8] }) (one idle) = leaves idle [] ∧
    after (.rxframe 0 { id := 0x98EAFF21#32, data := [0x00#8, 0xEE#8] }) (one idle) =
      leaves idle [.deliver { prio := 6#3, pgn := 0x00EA00#24, src := 0x21#8, dst := 0xFF#8, data := [0x00#8, 0xEE#8] }] :=
  by decide +kernel
/-- T6: the 20th TICK of 10 ms. -/
theorem test_tick_tr : after (.tick 0) (one { peerTx with tpTimer := 190 }) =
    leaves { peerTx with tpKind := .none, tpTimer := 200 }
      [.txFrame { id := 0x9CEC9080#32, data := [0xFF#8, 3#8, 0xFF#8, 0xFF#8, 0xFF#8, 0xB0#8, 0xFE#8, 0#8] }] :=
  by decide +kernel
/-- P2: the 10th TICK sends the last packet and closes. -/
theorem test_tick_bam : after (.tick 0) (one { bamTx with tpRem := 3, tpSeq := 2#8, tpTimer := 40 }) =
    leaves { bamTx with tpKind := .none, tpRem := 0, tpSeq := 3#8, tpTimer := 0 }
      [.txFrame { id := 0x9CEBFF80#32, data := [2#8, 8#8, 9#8, 10#8, 0xFF#8, 0xFF#8, 0xFF#8, 0xFF#8] }] :=
  by decide +kernel
/-- T1. -/
theorem test_send_bam : after (.send 0 { prio := 6#3, pgn := 0x00FEB0#24, src := 0#8, dst := 255#8
                                         data := [1#8, 2#8, 3#8, 4#8, 5#8, 6#8, 7#8, 8#8, 9#8, 10#8] }) (one idle) =
    leaves bamTx
      [.txFrame { id := 0x9CECFF80#32, data := [0x20#8, 0x0A#8, 0#8, 2#8, 0xFF#8, 0xB0#8, 0xFE#8, 0#8] }] :=
  by decide +kernel
/-- T5. -/
theorem test_send_busy : statusOf (.send 0 { prio := 6#3, pgn := 0x00FEB0#24, src := 0#8, dst := 0x90#8
                                             data := List.replicate 9 0#8 }) (one peerTx) = some .errBusy := by
  decide +kernel

/-- What a step leaves pending and hands out. -/
def stepped (s : State) : Option (List HostOp × List OutEvent) :=
  match step s with
  | .next t => some (t.pending, t.outputs)
  | .fault _ => none
  | .refused _ => none

/-- A pending frame is run by one step, after which it is no longer pending. -/
theorem test_step : stepped (State.withFetchWord (one idle) 32 0x8CF004FE) =
    some ([], [.deliver { prio := 3#3, pgn := 0x00F004#24, src := 0xFE#8, dst := 0xFF#8
                          data := List.replicate 8 0#8 }]) := by decide +kernel

/-! ### Witnesses: states and operands that meet the hypotheses of each obligation, clause by clause -/

theorem live_one (n : Node) : Live (one n) 0 n := ⟨Nat.zero_lt_one, rfl⟩
theorem live_mute (n : Node) : Live (mute n) 0 n := ⟨Nat.zero_lt_one, rfl⟩
theorem hears_all (n : Node) : Hears (one n) n 255#8 := ⟨rfl, .inl rfl⟩
theorem hears_own (n : Node) : Hears (one n) n n.addr := ⟨rfl, .inr rfl⟩

/-- Both kinds of PGN at the limit 240. -/
theorem witness_CodecRoundTrip :
    (0x01EF00#24).toNat < 2 ^ 17 ∧ (0x01EF00#24).toNat / 256 % 256 = 239 ∧ (0x01EF00#24).toNat % 256 = 0 ∧
    (0x01F0FF#24).toNat < 2 ^ 17 ∧ (0x01F0FF#24).toNat / 256 % 256 = 240 := by decide
theorem witness_DecodeOfEncode :
    WellFormed Config.default (.tpDt 0 fromPeer 255#8 (List.replicate 7 0xFF#8)) = true ∧
    encode Config.default (.tpDt 0 fromPeer 255#8 (List.replicate 7 0xFF#8)) =
      some { id := 0x9CEB8090#32, data := List.replicate 8 0xFF#8 } ∧
    WellFormed Config.default (.stdFrame 0 0x7FFFFFFF#32 []) = true := by decide
/-- An identifier with the bits Decode does not read all set; a standard one. -/
theorem witness_EncodeOfDecode :
    decode Config.default 0 { id := 0xFAEBF900#32, data := List.replicate 8 1#8 } =
      .ok (.tpDt 0 { prio := 6#3, dst := 0xF9#8, src := 0#8 } 1#8 (List.replicate 7 1#8)) ∧
    decode Config.default 0 { id := 0x7AEBF900#32, data := [] } = .ok (.stdFrame 0 0x7AEBF900#32 []) := by decide
theorem witness_ClassesByMatchAndMask : Config.default.pgnRequest = 0x00EA00#24 ∧
    0x98EA9021#32 &&& 0x81FF0000#32 = 0x80EA0000#32 ∧ 0x9CEC9021#32 &&& 0x81FF0000#32 = 0x80EC0000#32 ∧
    0xFEEB9021#32 &&& 0x81FF0000#32 = 0x80EB0000#32 ∧ 0x98EE9021#32 &&& 0x81FF0000#32 = 0x80EE0000#32 ∧
    0x99EC9021#32 &&& 0x81FF0000#32 = 0x81EC0000#32 ∧ (0x99EC9021#32).getLsbD 31 = true ∧
    (0x18EC9021#32).getLsbD 31 = false := by decide
/-- A frame of 8 bytes is well-formed, one of 9 is not; a frame that decodes; nothing pending. -/
theorem witness_StepRunsThePendingOperation :
    WellFormed (one idle).cfg (HostOp.rxframe 0 { id := 0#32, data := List.replicate 8 0#8 }).toInstr = true ∧
    WellFormed (one idle).cfg (HostOp.rxframe 0 { id := 0#32, data := List.replicate 9 0#8 }).toInstr = false ∧
    (State.withFetchWord (one idle) 32 0x9CEB0000).pending = [.rxframe 0 (tableFrame 0x9CEB0000)] ∧
    decode (one idle).cfg 0 (tableFrame 0x9CEB0000) =
      .ok (.tpDt 0 { prio := 7#3, dst := 0#8, src := 0#8 } 0#8 (List.replicate 7 0#8)) ∧
    (one idle).pending = [] := by decide
theorem witness_ReceivedFrameRunsItsRow :
    decode (one peerRx).cfg 0 { id := 0x9CEC8090#32, data := List.replicate 8 0xFF#8 } =
      .ok (.tpCmAbort 0 fromPeer 0xFF#8 0xFF#8 0xFF#8 0xFF#8 0xFFFFFF#24) := by decide
theorem witness_EveryHandleIsChecked : actingNode (.tick 1) = some 1 ∧ (one idle).nodeCount ≤ 1 ∧
    actingNode (.txTpDt 0) = some 0 ∧ State.reset.nodeCount ≤ 0 := by decide
theorem witness_StandardFrameDiscarded : Live (one idle) 0 idle ∧ Live (mute idle) 0 idle ∧
    (0x7FFFFFFF#32).getLsbD 31 = false := ⟨live_one _, live_mute _, by decide⟩
/-- Destinations 0x81, 0xFF and 0x80 at a node with address 0x80. -/
theorem witness_DestinationFilter : Live (one idle) 0 idle ∧ (one idle).cfg.listenOnly = false ∧
    (0x9CEB8190#32).getLsbD 31 = true ∧ (decodeId 0x9CEB8190#32).dst ≠ 255#8 ∧
    (decodeId 0x9CEB8190#32).dst ≠ idle.addr ∧
    encode Config.default (.tpDt 0 { fromPeer with dst := 0x81#8 } 1#8 (List.replicate 7 0#8)) =
      some { id := 0x9CEB8190#32, data := 1#8 :: List.replicate 7 0#8 } ∧
    (decodeId 0x9CEBFF90#32).dst = 255#8 ∧ (decodeId 0x9CEB8090#32).dst = idle.addr :=
  ⟨live_one _, rfl, by decide, by decide, by decide, by decide, by decide, by decide⟩
theorem witness_ListenOnlyDeliversAndIsSilent : Live (mute idle) 0 idle ∧ (mute idle).cfg.listenOnly = true ∧
    (0x98EEFF80#32).getLsbD 31 = true ∧
    WellFormed (mute idle).cfg (.addressClaimed 0 { toAll with src := 0x80#8 } 0#64) = true ∧
    encode (mute idle).cfg (.addressClaimed 0 { toAll with src := 0x80#8 } 0#64) =
      some { id := 0x98EEFF80#32, data := List.replicate 8 0#8 } ∧
    (∃ t, exec (HostOp.tick 0).toInstr (mute peerTx) = .next t) ∧
    ∃ t, exec (HostOp.init 1#64 5#8 10).toInstr (mute idle) = .next t :=
  ⟨live_mute _, rfl, by decide, by decide, by decide, next_of_ends (by decide +kernel),
    next_of_ends (by decide +kernel)⟩
theorem witness_ApplicationFrameDelivered : Live (one barred) 0 barred ∧ Hears (one barred) barred (decodeId 0x8CF004FE#32).dst ∧
    (0x8CF004FE#32).getLsbD 31 = true ∧ isAcRequest (one barred).cfg (decodeId 0x8CF004FE#32).pgn [] = false ∧
    (decodeId 0x8CF004FE#32).pgn ≠ 0x00EC00#24 ∧ (decodeId 0x8CF004FE#32).pgn ≠ 0x00EB00#24 ∧
    (decodeId 0x8CF004FE#32).pgn ≠ 0x00EE00#24 :=
  ⟨live_one _, hears_all _, by decide, by decide, by decide, by decide, by decide⟩
/-- Seven bytes of each protocol PGN; a Request of two bytes; an application frame of eight and of none. -/
theorem witness_LengthRules : Live (one idle) 0 idle ∧ Hears (one idle) idle (decodeId 0x9CECFF90#32).dst ∧
    [0x9CECFF90#32, 0x9CEBFF90#32, 0x98EEFF90#32].map (fun id => (id.getLsbD 31, (decodeId id).pgn,
        isAcRequest (one idle).cfg (decodeId id).pgn (List.replicate 7 0#8))) =
      [(true, 0x00EC00#24, false), (true, 0x00EB00#24, false), (true, 0x00EE00#24, false)] ∧
    (decodeId 0x98EAFF21#32).pgn = (one idle).cfg.pgnRequest ∧ [0x00#8, 0xEE#8].length < 3 ∧
    (decodeId 0x8CF004FE#32).pgn ≠ (one idle).cfg.pgnRequest :=
  ⟨live_one _, hears_all _, by decide, by decide, by decide, by decide⟩
/-- A slot occupied and one free, with the guard and without; the guarded counter at 0 with the slot free (log entry
12, a state no run reaches). -/
theorem witness_MarkAccounting : idle.occupied 0x80 = true ∧ idle.occupied 253 = false ∧
    Config.default.acDecrementGuarded = true ∧
    ({ Config.default with acDecrementGuarded := false } : Config).acDecrementGuarded = false ∧
    full.acFree = 0 ∧ ({ idle with acFree := 0 } : Node).occupied 253 = false := by decide +kernel
/-- The counter at 0, no candidate free with the counter above 0, the 253rd candidate free, the first free. -/
theorem witness_UpdateAddressFirstFree : full.acFree = 0 ∧
    (∀ i < 253, { full with acFree := 1 }.occupied ((full.addr.toNat + 1 + i) % 254) = true) ∧
    crowded.acFree ≠ 0 ∧ crowded.occupied ((crowded.addr.toNat + 1 + 252) % 254) = false ∧
    (∀ i < 252, crowded.occupied ((crowded.addr.toNat + 1 + i) % 254) = true) ∧
    idle.occupied ((idle.addr.toNat + 1 + 0) % 254) = false := by decide +kernel
/-- Sources 253, 254 and 255 at a node with address 0x80. -/
theorem witness_ClaimFromAnotherAddress : Live (one idle) 0 idle ∧ Hears (one idle) idle toAll.dst ∧
    idle.cannotClaim = false ∧ ∀ src ∈ [253#8, 254#8, 255#8], src ≠ idle.addr :=
  ⟨live_one _, hears_all _, rfl, by decide⟩
/-- The tie. -/
theorem witness_ContentionKept : Live (one idle) 0 idle ∧ Hears (one idle) idle toAll.dst ∧ idle.cannotClaim = false ∧
    ({ toAll with src := 0x80#8 } : Routing).src = idle.addr ∧ idle.name.toNat ≤ (0x64#64).toNat :=
  ⟨live_one _, hears_all _, rfl, rfl, by decide⟩
/-- V6: the last candidate, for a NAME lower by one. -/
theorem witness_ContentionLostMoves : Live (one crowded) 0 crowded ∧ Hears (one crowded) crowded toAll.dst ∧
    crowded.cannotClaim = false ∧ ({ toAll with src := 80#8 } : Routing).src = crowded.addr ∧
    (0x63#64).toNat < crowded.name.toNat ∧ crowded.acFree ≠ 0 ∧ 252 < 253 ∧
    crowded.occupied ((crowded.addr.toNat + 1 + 252) % 254) = false ∧
    ∀ i < 252, crowded.occupied ((crowded.addr.toNat + 1 + i) % 254) = true :=
  ⟨live_one _, hears_all _, rfl, rfl, by decide, by decide, by decide, witness_UpdateAddressFirstFree.2.2.2.1,
    witness_UpdateAddressFirstFree.2.2.2.2.1⟩
/-- By the counter, and by the table with the counter above 0. -/
theorem witness_ContentionLostCannotClaim : Live (one full) 0 full ∧ Hears (one full) full toAll.dst ∧
    full.cannotClaim = false ∧ ({ toAll with src := 80#8 } : Routing).src = full.addr ∧
    (0x63#64).toNat < full.name.toNat ∧ full.acFree = 0 ∧
    ∀ i < 253, { full with acFree := 1 }.occupied ((full.addr.toNat + 1 + i) % 254) = true :=
  ⟨live_one _, hears_all _, rfl, rfl, by decide, rfl, witness_UpdateAddressFirstFree.2.1⟩
/-- The tie, a lower NAME with an address to move to, a lower NAME with none. -/
theorem witness_ArbitrationLaw :
    (∀ n ∈ [idle, full], Live (one n) 0 n ∧ Hears (one n) n toAll.dst ∧ n.cannotClaim = false ∧ n.addr.toNat ≤ 253 ∧
      ({ toAll with src := n.addr } : Routing).src = n.addr) ∧
    idle.name.toNat ≤ (0x64#64).toNat ∧ (0x63#64).toNat < idle.name.toNat ∧ (0x63#64).toNat < full.name.toNat ∧
    (∃ m, updateAddress (one idle).cfg idle.closed = some m) ∧ updateAddress (one full).cfg full.closed = none ∧
    (∃ t, exec (.addressClaimed 0 { toAll with src := 0x80#8 } 0x64#64) (one idle) = .next t) ∧
    (∃ t, exec (.addressClaimed 0 { toAll with src := 0x80#8 } 0x63#64) (one idle) = .next t) ∧
    ∃ t, exec (.addressClaimed 0 { toAll with src := 80#8 } 0x63#64) (one full) = .next t :=
  ⟨fun n hn => ⟨live_one n, hears_all n, by
      simp only [List.mem_cons, List.not_mem_nil, or_false] at hn
      rcases hn with rfl | rfl <;> exact ⟨rfl, by decide, rfl⟩⟩,
    by decide, by decide, by decide, Option.isSome_iff_exists.mp (by decide +kernel),
    Option.isNone_iff_eq_none.mp (by decide +kernel), next_of_ends (by decide +kernel),
    next_of_ends (by decide +kernel), next_of_ends (by decide +kernel)⟩
theorem witness_RequestReannounces : Live (one idle) 0 idle ∧ Hears (one idle) idle fromPeer.dst ∧
    idle.cannotClaim = false ∧ Live (one barred) 0 barred ∧ Hears (one barred) barred toAll.dst ∧
    barred.cannotClaim = true := ⟨live_one _, hears_own idle, rfl, live_one _, hears_all _, rfl⟩
theorem witness_CannotClaimIsTerminal : Live (one barred) 0 barred ∧ Hears (one barred) barred 254#8 ∧
    barred.cannotClaim = true ∧ (HostOp.init 1#64 5#8 10 ≠ .reset) ∧ actingNode (HostOp.tick 0).toInstr = some 0 ∧
    (∃ t, exec (HostOp.tick 0).toInstr (one barred) = .next t) ∧
    ∃ t, exec (HostOp.init 1#64 5#8 10).toInstr (one barred) = .next t :=
  ⟨live_one _, hears_own barred, rfl, by decide, rfl, next_of_ends (by decide +kernel),
    next_of_ends (by decide +kernel)⟩
/-- A node that may send, one that may not, and a listen-only block. -/
theorem witness_TxRows : Live (one peerTx) 0 peerTx ∧ txBarred (one peerTx).cfg peerTx = false ∧
    Live (one barred) 0 barred ∧ txBarred (one barred).cfg barred = true ∧ Live (mute peerTx) 0 peerTx ∧
    txBarred (mute peerTx).cfg peerTx = true := ⟨live_one _, rfl, live_one _, rfl, live_mute _, rfl⟩
/-- With a connection; idle with 1786 and with 1785 bytes announced. -/
theorem witness_RtsReceived_BamReceived : Live (one bamTx) 0 bamTx ∧ Hears (one bamTx) bamTx fromPeer.dst ∧
    bamTx.tpKind ≠ .none ∧ Live (one idle) 0 idle ∧ Hears (one idle) idle fromPeer.dst ∧ ¬ idle.tpKind ≠ .none ∧
    1785 < (1786#16).toNat ∧ ¬ 1785 < (1785#16).toNat :=
  ⟨live_one _, hears_own bamTx, by decide, live_one _, hears_own idle, by decide, by decide, by decide⟩
/-- A peer-to-peer sender, not yet cleared, cleared, finished; a receiver; an idle node. -/
theorem witness_CtsReceived_EomaReceived_AbortReceived :
    (∀ n ∈ [peerTx, { peerTx with tpCts := true }, { peerTx with tpCts := true, tpRem := 0 }, peerRx, idle],
      Live (one n) 0 n ∧ Hears (one n) n 255#8) ∧
    Connected peerTx .p2p .sender ∧ peerTx.tpPgn = 0x00FEB0#24 ∧ peerTx.tpRem ≠ 0 ∧
    Connected peerRx .p2p .receiver ∧ peerRx.tpKind ≠ .none ∧ idle.tpKind = .none :=
  ⟨fun n _ => ⟨live_one n, hears_all n⟩, ⟨rfl, rfl⟩, rfl, by decide, ⟨rfl, rfl⟩, by decide, rfl⟩
theorem witness_OtherControlIgnored : Live (one peerTx) 0 peerTx ∧ Hears (one peerTx) peerTx fromPeer.dst ∧
    (List.replicate 7 0#8).length = 7 ∧
    (∀ k ∈ [0#8, 15#8, 18#8, 254#8], k ≠ 16#8 ∧ k ≠ 17#8 ∧ k ≠ 19#8 ∧ k ≠ 32#8 ∧ k ≠ 255#8) ∧
    isAcRequest (one peerTx).cfg 0x00EC00#24 (18#8 :: List.replicate 7 0#8) = false :=
  ⟨live_one _, hears_own peerTx, rfl, by decide, by decide⟩
/-- The first packet, and packet 255 of a 1785-byte message. -/
theorem witness_DataFrameAccepted :
    (∀ n ∈ [peerRx, lastRx], Live (one n) 0 n ∧ Hears (one n) n 255#8 ∧ n.tpKind ≠ .none ∧ n.tpRole = .receiver ∧
      0 < n.tpRem ∧ PacketFits n ∧ n.tpBuf.wf = true) ∧
    lastRx.tpSeq = 255#8 ∧ (lastRx.tpSeq.toNat - 1) * 7 + min 7 lastRx.tpRem = 1785 := by
  refine ⟨fun n hn => ⟨live_one n, hears_all n, ?_⟩, by decide, by decide⟩
  revert n
  unfold PacketFits
  decide
theorem witness_DataFrameNotAccepted :
    (∀ n ∈ [idle, bamTx, { peerRx with tpRem := 0 }, peerRx, bamRx], Live (one n) 0 n ∧ Hears (one n) n 255#8) ∧
    idle.tpKind = .none ∧ bamTx.tpRole = .sender ∧ peerRx.tpKind = .p2p ∧ bamRx.tpKind = .bcast ∧
    (∀ n ∈ [peerRx, bamRx], n.tpKind ≠ .none ∧ n.tpRole = .receiver ∧ 0 < n.tpRem ∧ 2#8 ≠ n.tpSeq) ∧
    Config.default.dtSeqMismatchAborts = false :=
  ⟨fun n _ => ⟨live_one n, hears_all n⟩, rfl, rfl, rfl, rfl, by decide, rfl⟩
/-- 10_state.md R43 at the last packet of the longest message. -/
theorem lastRx_tpInv : TpInv lastRx :=
  { cts_p2p := by decide, rem_le := by decide, seq_rem := by decide, bam_peer := by decide, bam_left := by decide,
    wait_left := by decide, timer_lt := by decide }
theorem witness_PacketsStayInTheBuffer : TpInv lastRx ∧ lastRx.tpKind ≠ .none ∧ 0 < lastRx.tpRem :=
  ⟨lastRx_tpInv, by decide, by decide⟩
/-- One byte, and 1785. -/
theorem witness_SegmentationRoundTrip : ∀ len ∈ [1, 1785],
    let n : Node := { peerRx with tpLen := len, tpRem := len }
    let data : List Byte := List.replicate len 0xA5#8
    Live (one n) 0 n ∧ Hears (one n) n fromPeer.dst ∧ n.tpKind ≠ .none ∧ n.tpRole = .receiver ∧ n.tpSeq = 1#8 ∧
      n.tpRem = data.length ∧ n.tpLen = data.length ∧ 1 ≤ data.length ∧ data.length ≤ 1785 ∧ n.tpBuf.wf = true := by
  intro len hl
  refine ⟨live_one _, ⟨rfl, .inr rfl⟩, fun h => (by cases h), rfl, rfl, by simp, by simp, ?_, ?_, rfl⟩ <;>
    simp at hl ⊢ <;> omega
/-- An idle node; every kind and role, not due, due and with nothing due; a sum at and over the last TIMER_W value. -/
theorem witness_TimerRunsInAConnection : Live (one idle) 0 idle ∧ idle.tpKind = .none ∧
    (∀ n ∈ [bamTx, bamRx, peerTx, peerRx], Live (one n) 0 n ∧ n.tpKind ≠ .none ∧
      ∃ t, exec (.tick 0) (one n) = .next t) ∧
    (∀ n ∈ [{ bamTx with tpTimer := 40 }, { peerTx with tpCts := true, tpTimer := 40 }, { peerRx with tpTimer := 40 },
        { bamRx with tpTimer := 40 }],
      Live (one n) 0 n ∧ n.tpKind ≠ .none ∧ 50 ≤ timerSum (one n).cfg n.tpTimer n.tickMs ∧
      ∃ t, exec (.tick 0) (one n) = .next t) ∧
    4294967285 + 10 < 2 ^ Config.default.timerW ∧ ¬ 4294967286 + 10 < 2 ^ Config.default.timerW := by
  refine ⟨live_one _, rfl, fun n hn => ⟨live_one n, ?_, next_of_ends ?_⟩,
    fun n hn => ⟨live_one n, ?_, ?_, next_of_ends ?_⟩, by decide, by decide⟩
  all_goals
    simp only [List.mem_cons, List.not_mem_nil, or_false] at hn
    rcases hn with rfl | rfl | rfl | rfl <;> decide +kernel
/-- Each branch of the four TICK rules: the timer just below and at its threshold, seven bytes left and eight, none. -/
theorem witness_TickRules :
    (∀ n : Node, Live (one n) 0 n) ∧ timerSum Config.default 40 10 = 50 ∧ timerSum Config.default 39 10 = 49 ∧
    timerSum Config.default 190 10 = 200 ∧ timerSum Config.default 1240 10 = 1250 ∧
    timerSum Config.default 1239 10 = 1249 ∧
    Connected bamTx .bcast .sender ∧ Connected bamRx .bcast .receiver ∧ Connected peerTx .p2p .sender ∧
    Connected peerRx .p2p .receiver ∧ PacketFits bamTx ∧ PacketFits { bamTx with tpRem := 7, tpSeq := 255#8 } ∧
    PacketFits peerTx ∧ bamRx.tpLen ≤ 1785 ∧ lastRx.tpLen = 1785 ∧ peerTx.tpCts = false := by
  refine ⟨live_one, ?_⟩
  unfold Connected PacketFits
  decide
theorem witness_UnansweredRtsAbortsAtTr : Live (one peerTx) 0 peerTx ∧ Connected peerTx .p2p .sender ∧
    peerTx.tpCts = false ∧ peerTx.tpTimer = 0 ∧ 0 < peerTx.tickMs ∧
    199 + peerTx.tickMs < 2 ^ (one peerTx).cfg.timerW ∧ 19 * peerTx.tickMs < 200 ∧ (20 - 1) * peerTx.tickMs < 200 ∧
    200 ≤ 20 * peerTx.tickMs :=
  ⟨live_one _, ⟨rfl, rfl⟩, rfl, rfl, by decide, by decide, by decide, by decide, by decide⟩
theorem witness_SendRefusals : Live (mute idle) 0 idle ∧ (mute idle).cfg.listenOnly = true ∧
    Live (one barred) 0 barred ∧ (one barred).cfg.listenOnly = false ∧ barred.cannotClaim = true ∧
    Live (one peerTx) 0 peerTx ∧ peerTx.cannotClaim = false ∧ peerTx.tpKind ≠ .none ∧
    1785 < (List.replicate 1786 0#8).length ∧ 8 < (List.replicate 9 0#8).length ∧
    (List.replicate 1785 0#8).length ≤ 1785 :=
  ⟨live_mute _, rfl, live_one _, rfl, rfl, live_one _, rfl, by decide, by rw [List.length_replicate]; decide,
    by decide, by rw [List.length_replicate]⟩
theorem witness_SendShort : Live (one peerTx) 0 peerTx ∧ (one peerTx).cfg.listenOnly = false ∧
    peerTx.cannotClaim = false ∧ (List.replicate 8 0#8).length ≤ 8 := ⟨live_one _, rfl, rfl, by decide⟩
/-- Nine bytes and 1785. -/
theorem witness_SendLongOpensConnection : Live (one idle) 0 idle ∧ (one idle).cfg.listenOnly = false ∧
    idle.cannotClaim = false ∧ idle.tpKind = .none ∧ idle.tpBuf.wf = true ∧
    ∀ len ∈ [9, 1785], 8 < (List.replicate len 0#8).length ∧ (List.replicate len 0#8).length ≤ 1785 :=
  ⟨live_one _, rfl, rfl, rfl, rfl, by simp⟩
/-- The record's four cases: sendable, nothing left, sequence number 0, past the buffer; a length over the buffer. -/
theorem witness_TxDataSends_TxReceiverAnswersSend : (∀ n : Node, Live (one n) 0 n) ∧
    PacketFits { lastRx with tpRole := .sender } ∧ { peerTx with tpRem := 0 }.tpRem = 0 ∧
    { peerTx with tpSeq := 0#8 }.tpSeq = 0#8 ∧
    (1785 < ({ lastRx with tpRem := 7, tpSeq := 255#8 }.tpSeq.toNat - 1) * 7 + 8) ∧
    peerRx.tpLen ≤ 1785 ∧ ¬ { peerRx with tpLen := 1786 }.tpLen ≤ 1785 := by
  refine ⟨live_one, ?_⟩
  unfold PacketFits
  decide
/-- Preferred addresses 253 and 254, ticks 0, 1, 65535 and 65536, and a full block. -/
theorem witness_InitCreatesNode : (253#8).toNat ≤ 253 ∧ 253 < (254#8).toNat ∧ 1 < 2 ^ (one idle).cfg.tickW ∧
    65535 < 2 ^ (one idle).cfg.tickW ∧ 2 ^ (one idle).cfg.tickW ≤ 65536 ∧
    (one idle).nodeCount ≠ (one idle).cfg.maxNodes ∧ (one idle).nodes[(one idle).nodeCount]? = some Node.reset ∧
    { one idle with nodeCount := 2 }.nodeCount = { one idle with nodeCount := 2 }.cfg.maxNodes :=
  ⟨by decide, by decide, by decide, by decide, by decide, by decide, rfl, rfl⟩
theorem witness_ResetDropsEveryNode : actingNode (.tick 0) = some 0 ∧ actingNode (.init 0#64 0#8 1) = none :=
  ⟨rfl, rfl⟩

/-- A block whose one node is before the last packet of the longest message is in form. -/
theorem lastRx_stateInv : StateInv (one lastRx) where
  nodes_length := rfl
  count_le := by decide
  bufs := by
    intro n hn
    simp only [one, List.mem_cons, List.not_mem_nil, or_false] at hn
    rcases hn with rfl | rfl
    · exact ⟨by decide, by decide⟩
    · exact Node.reset_bufInv
  live := by
    rintro h n ⟨h1, h2⟩
    obtain rfl : h = 0 := by simpa [one] using h1
    obtain rfl : lastRx = n := by simpa [one] using h2
    exact ⟨{ addr_le := by decide, addr_null := by decide, self_occupied := by decide +kernel,
             free_count := by decide +kernel, free_le := by decide, tick_pos := by decide, tick_lt := by decide },
      lastRx_tpInv⟩

/-- In form with an operation pending, a step goes on; in form with nine bytes pending, it refuses. -/
theorem witness_StepKeepsInvariant_EveryOperationCompletes : StateInv { one lastRx with pending := [.tick 0] } ∧
    (∃ t, step { one lastRx with pending := [.tick 0] } = .next t) ∧
    step { one lastRx with pending := [.rxframe 0 { id := 0#32, data := List.replicate 9 0#8 }] } =
      .refused .notAnOperation :=
  ⟨⟨lastRx_stateInv.1, lastRx_stateInv.2, lastRx_stateInv.3, lastRx_stateInv.4⟩, next_of_ends (by decide +kernel), rfl⟩

/-- Two nodes; the second differs between the states. -/
def two (n m : Node) : State := { State.reset with nodeCount := 2, nodes := [n, m] }

theorem witness_OtherNodesUntouched_NodesAreIndependent :
    actingNode (.tick 0) = some 0 ∧ (two peerTx idle).cfg = (two peerTx bamRx).cfg ∧
    (two peerTx idle).nodeCount = (two peerTx bamRx).nodeCount ∧
    (two peerTx idle).txDraws = (two peerTx bamRx).txDraws ∧ (two peerTx idle).nodes[0]? = (two peerTx bamRx).nodes[0]? ∧
    idle.tpKind ≠ bamRx.tpKind ∧ (∃ t, exec (.tick 0) (two peerTx idle) = .next t) ∧
    ∃ t, exec (.init 1#64 5#8 10) (one idle) = .next t :=
  ⟨rfl, rfl, rfl, rfl, rfl, by decide, next_of_ends (by decide +kernel), next_of_ends (by decide +kernel)⟩
theorem witness_NameIsImmutable : Live (one idle) 0 idle ∧ (HostOp.tick 0 ≠ .reset) ∧
    ∃ t, exec (HostOp.tick 0).toInstr (one idle) = .next t :=
  ⟨live_one _, by decide, next_of_ends (by decide +kernel)⟩
/-- A claim, a data frame, a busy abort and a single frame emitted. -/
theorem witness_AtMostOneFramePerOperation_TransmittedFramesAreTableRows :
    (∃ t, exec (HostOp.init 1#64 5#8 10).toInstr State.reset = .next t ∧
      t.outputs = [.txFrame { id := 0x98EEFF05#32, data := [1#8, 0#8, 0#8, 0#8, 0#8, 0#8, 0#8, 0#8] }]) ∧
    (∃ t, exec (HostOp.tick 0).toInstr (one { bamTx with tpTimer := 40 }) = .next t ∧
      t.outputs = [.txFrame { id := 0x9CEBFF80#32, data := [1#8, 1#8, 2#8, 3#8, 4#8, 5#8, 6#8, 7#8] }]) ∧
    (∃ t, exec (HostOp.rxframe 0
          { id := 0x9CEC8091#32, data := [0x10#8, 10#8, 0#8, 2#8, 0xFF#8, 0xB1#8, 0xFE#8, 0#8] }).toInstr (one peerTx) =
        .next t ∧
      t.outputs =
        [.txFrame { id := 0x9CEC9180#32, data := [0xFF#8, 1#8, 0xFF#8, 0xFF#8, 0xFF#8, 0xB1#8, 0xFE#8, 0#8] }]) ∧
    ∃ t, exec (HostOp.send 0 { prio := 3#3, pgn := 0x00F004#24, src := 0#8, dst := 255#8, data := [] }).toInstr
        (one idle) = .next t ∧
      t.outputs = [.txFrame { id := 0x8CF00480#32, data := [] }] :=
  ⟨emits (by decide +kernel), emits (by decide +kernel), emits (by decide +kernel), emits (by decide +kernel)⟩

end Sys2Proof.Tests
end

section
/-! The scope statements (00_scope.md): what one step runs. RXFRAME of a frame that decodes is the row it decodes to
(log entry 1): the dispatcher's routing of 41_dispatcher.md R162 and the table's classification of 30_encoding.md R111
are matched branch by branch, behind the same receive path. -/

namespace Sys2Proof.Machine

/-! ### Routing, one equation per branch (41_dispatcher.md R162) -/

section Routing
variable {m : Message} {c : Config} {run : NodeRun}

/-- Routing rule 1 (R163). -/
theorem dispatch_acRequest (hr : isAcRequest c m.pgn m.data = true) : dispatch m c run = .ok (acOnRequest c run) := by
  rw [dispatch, if_pos hr]

/-- Routing rule 2, connection management (R164). -/
theorem dispatch_tpCm (hr : isAcRequest c m.pgn m.data = false) (hp : m.pgn = pgnTpCm) :
    dispatch m c run = tpOnCm m c run := by
  rw [dispatch, if_neg (by simp [hr]), if_pos hp]

/-- Routing rule 2, data transfer (R164). -/
theorem dispatch_tpDt (hr : isAcRequest c m.pgn m.data = false) (hp : m.pgn = pgnTpDt) :
    dispatch m c run = tpOnDt m c run := by
  rw [dispatch, if_neg (by simp [hr]), if_neg (by rw [hp]; decide), if_pos hp]

/-- Routing rule 3 (R165). -/
theorem dispatch_addressClaimed (hr : isAcRequest c m.pgn m.data = false) (hp : m.pgn = pgnAddressClaimed) :
    dispatch m c run = acOnClaimMessage m c run := by
  rw [dispatch, if_neg (by simp [hr]), if_neg (by rw [hp]; decide), if_neg (by rw [hp]; decide), if_pos hp]

/-- Every other message goes to the application (R166). -/
theorem dispatch_app (hr : isAcRequest c m.pgn m.data = false) (hcm : m.pgn ≠ pgnTpCm) (hdt : m.pgn ≠ pgnTpDt)
    (hac : m.pgn ≠ pgnAddressClaimed) : dispatch m c run = .ok (deliver m run) := by
  rw [dispatch, if_neg (by simp [hr]), if_neg hcm, if_neg hdt, if_neg hac]

end Routing

/-! ### A classified frame runs its class's handler behind the receive path -/

/-- A control byte of no sub-class is ignored, whatever the seven bytes after it (43_transport_protocol.md R277). -/
theorem tpOnCm_other {m : Message} {k : Byte} {rest : List Byte} (hm : m.data = k :: rest) (hl : rest.length = 7)
    (hk : isCmControl k = false) (c : Config) (run : NodeRun) : tpOnCm m c run = .ok run := by
  obtain ⟨d1, d2, d3, d4, d5, d6, d7, rfl⟩ := sevenBytes_eq hl
  simp only [isCmControl, Bool.or_eq_false_iff, beq_eq_false_iff_ne] at hk
  obtain ⟨⟨⟨⟨hrts, hcts⟩, heoma⟩, hbam⟩, habort⟩ := hk
  rw [tpOnCm, hm]
  simp only [hrts, hcts, heoma, hbam, habort, if_false]

/-- The claim handler of an eight-byte message: a Cannot-Claim node ignores the claim on either path (R201). -/
theorem acOnClaimMessage_nameBytes {m : Message} {name : Name64} (hm : m.data = nameBytes name) (c : Config)
    (run : NodeRun) : acOnClaimMessage m c run = .ok (acOnClaim c m.src name run) := by
  rw [acOnClaimMessage]
  split
  case isTrue hcc => rw [acOnClaim, if_pos hcc]
  case isFalse => rw [hm, nameBytes]; simp only [le64_byteOf]

section Classified
variable {h : Nat} {r : Routing} {data : List Byte} {i : Instr}

/-- Each TP_CM row is `TP_OnCM` of the frame it was decoded from (R112, R270). -/
theorem exec_of_decodeCm (hd : decodeCm h r data = .ok i) (s : State) :
    exec i s = receive h (classMessage pgnTpCm r data) (tpOnCm (classMessage pgnTpCm r data)) s := by
  obtain ⟨len, npkt, mp, pgn, rfl, rfl⟩ | ⟨a, b, d, e, pgn, rfl, rfl⟩ | ⟨len, npkt, e, pgn, rfl, rfl⟩ |
    ⟨len, npkt, e, pgn, rfl, rfl⟩ | ⟨a, b, d, e, pgn, rfl, rfl⟩ | ⟨k, rest, rfl, rfl, hl, hk⟩ := decodeCm_cases hd
  case inr.inr.inr.inr.inr =>
    rw [exec, execTpCmOther]
    exact receive_congr fun run => (tpOnCm_other rfl hl hk _ run).symm
  all_goals
    simp only [exec, execTpCmRts, execTpCmCts, execTpCmEoma, execTpCmBam, execTpCmAbort]
    refine receive_congr fun run => ?_
    rw [tpOnCm_bytes _ _ _ _ _ _ _ _ _ rfl]
    simp [classMessage, ctrlRts, ctrlCts, ctrlEoma, ctrlBam, ctrlAbort]

/-- TP_DT is `TP_OnDT` of the frame it was decoded from (R103, R280). -/
theorem exec_of_decodeDt (hd : decodeDt h r data = .ok i) (s : State) :
    exec i s = receive h (classMessage pgnTpDt r data) (tpOnDt (classMessage pgnTpDt r data)) s := by
  unfold decodeDt at hd
  split at hd
  · cases hd
    exact receive_congr fun run => rfl
  · cases hd

/-- ADDRESS_CLAIMED is `AC_OnClaim` of the frame it was decoded from (R96, R194). -/
theorem exec_of_decodeClaim (hd : decodeClaim h r data = .ok i) (s : State) :
    exec i s = receive h (classMessage pgnAddressClaimed r data)
      (acOnClaimMessage (classMessage pgnAddressClaimed r data)) s := by
  unfold decodeClaim at hd
  split at hd
  · cases hd
    rw [← nameBytes_le64, exec, execAddressClaimed]
    exact receive_congr fun run =>
      (acOnClaimMessage_nameBytes (m := classMessage pgnAddressClaimed r (nameBytes _)) rfl _ run).symm
  · cases hd

end Classified

/-- A received message is its class's message, rebuilt from the row's routing (40_codec.md R144). -/
theorem frameToMessage_eq_classMessage {f : Frame} {pgn : Pgn} (hp : (decodeId f.id).pgn = pgn) :
    frameToMessage f =
      classMessage pgn { prio := (decodeId f.id).prio, dst := (decodeId f.id).dst, src := (decodeId f.id).src }
        f.data := by
  subst hp
  rfl

/-- RXFRAME of a frame that decodes is the row it decodes to, in every state (log entry 1). -/
theorem exec_rxframe_of_decode {s : State} {h : Nat} {f : Frame} {i : Instr} (hd : decode s.cfg h f = .ok i) :
    exec (.rxframe h f) s = exec i s := by
  obtain ⟨-, ⟨hb, rfl⟩ | ⟨hb, hrow⟩⟩ := decode_cases hd
  · exact exec_rxframe_standard s h hb
  rw [exec_rxframe_extended s h hb]
  obtain ⟨hr, rfl⟩ | ⟨hr, ⟨hp, hcm⟩ | ⟨-, hp, hdt⟩ | ⟨-, -, hp, hac⟩ | ⟨hcm, hdt, hac, rfl⟩⟩ := hrow
  · obtain ⟨hp, extra, hx⟩ := isAcRequest_inv hr
    have hdata : requestAcBytes ++ f.data.drop 3 = f.data := by rw [hx]; rfl
    rw [exec, execRequestAc, hdata, ← frameToMessage_eq_classMessage hp]
    exact receive_congr fun run => dispatch_acRequest hr
  · rw [exec_of_decodeCm hcm, ← frameToMessage_eq_classMessage hp]
    exact receive_congr fun run => dispatch_tpCm hr hp
  · rw [exec_of_decodeDt hdt, ← frameToMessage_eq_classMessage hp]
    exact receive_congr fun run => dispatch_tpDt hr hp
  · rw [exec_of_decodeClaim hac, ← frameToMessage_eq_classMessage hp]
    exact receive_congr fun run => dispatch_addressClaimed hr hp
  · rw [exec, execApp]
    exact receive_congr fun run => dispatch_app hr hcm hdt hac

/-! ### One step, one equation per case (00_scope.md R13, 60_exceptions.md R345) -/

section Step
variable {s : State} {op : HostOp} {rest : List HostOp}

theorem step_idle (hp : s.pending = []) : step s = .next s := by
  rw [step, hp]

theorem step_wellFormed (hp : s.pending = op :: rest) (hw : WellFormed s.cfg op.toInstr = true) :
    step s = exec op.toInstr { s with pending := rest } := by
  rw [step, hp]
  exact if_pos hw

/-- What is no operation of the block is refused (log entry 14). -/
theorem step_illFormed (hp : s.pending = op :: rest) (hw : WellFormed s.cfg op.toInstr = false) :
    step s = .refused .notAnOperation := by
  rw [step, hp]
  exact if_neg (by simp [hw])

end Step

/-- A frame that decodes to a row is a CAN frame, so presenting it is an operation of the block. -/
theorem wellFormed_rxframe_of_decode {c : Config} {h : Nat} {f : Frame} {i : Instr} (hd : decode c h f = .ok i) :
    WellFormed c (HostOp.rxframe h f).toInstr = true :=
  decide_eq_true (decode_cases hd).1

/-- Settles O8: `step` case by case, and for a decoded frame the refinement of RXFRAME by the rows. -/
theorem stepRunsThePendingOperation : Obligations.StepRunsThePendingOperation := by
  refine ⟨fun s op rest hp => ⟨step_wellFormed hp, step_illFormed hp⟩, fun s h f i rest hp hd => ?_,
    fun s => step_idle⟩
  calc step s = exec (.rxframe h f) { s with pending := rest } := step_wellFormed hp (wellFormed_rxframe_of_decode hd)
    _ = exec i { s with pending := rest } := exec_rxframe_of_decode hd

end Sys2Proof.Machine
end

section
/-! The invariant of 10_state.md R43: it holds after reset and every step keeps it. The five operations of the host are
taken one by one; each answers a next state in form, since what it runs on its node ends well. -/

namespace Sys2Proof.Machine

/-! ### No node in use (10_state.md R46, 70_reset_and_hazards.md R360) -/

/-- With no node in use and every record at its reset value, a state is in form whatever else it holds. -/
theorem stateInv_of_no_node {s : State} (hc : s.nodeCount = 0)
    (hn : s.nodes = List.replicate s.cfg.maxNodes Node.reset) : StateInv s where
  nodes_length := by rw [hn, List.length_replicate]
  count_le := hc ▸ Nat.zero_le _
  bufs n hm := by
    rw [hn] at hm
    rw [List.eq_of_mem_replicate hm]
    exact Node.reset_bufInv
  live h n hl := absurd (hc ▸ hl.1) (Nat.not_lt_zero h)

theorem State.reset_stateInv : StateInv State.reset := stateInv_of_no_node rfl rfl

/-- Settles O52: after reset no node is in use, and RESET rewrites what already stands. -/
theorem resetMeetsInvariant : Obligations.ResetMeetsInvariant :=
  ⟨State.reset_stateInv, rfl, rfl⟩

/-! ### Every operation of the host answers a next state in form -/

section HostOps
variable {s : State} (hi : StateInv s)
include hi

/-- INIT refuses, or registers a record in form: its address, tick and slot have passed the checks of R301. -/
theorem execInit_stateInv (name : Name64) (pref : Byte) (tick : Nat) :
    ∃ t, execInit name pref tick s = .next t ∧ StateInv t := by
  unfold execInit
  split
  case isTrue => exact ⟨_, rfl, hi.returned _⟩
  case isFalse hpref =>
  split
  case isTrue => exact ⟨_, rfl, hi.returned _⟩
  case isFalse htick =>
  split
  case isTrue => exact ⟨_, rfl, hi.returned _⟩
  case isFalse hfull =>
  have hslot : s.nodeCount < s.cfg.maxNodes := Nat.lt_of_le_of_ne hi.count_le hfull
  have hget := List.getElem?_eq_getElem (hi.nodes_length ▸ hslot)
  rw [hget]
  refine ⟨_, rfl, hi.registered _ hslot (acInit_nodeInv _ _ (by omega) (by omega) (by omega)) ?_⟩
  rw [BufInv, acInit_tpBuf]
  exact hi.bufs _ (List.mem_of_getElem? hget)

/-- A standard frame is discarded behind the handle check; an extended one is routed. -/
theorem execRxframe_stateInv (h : Nat) (f : Frame) : ∃ t, execRxframe h f s = .next t ∧ StateInv t := by
  unfold execRxframe
  split
  · exact receive_stateInv hi fun _ hn hb => dispatch_endsWell _ hn hb
  · exact onNode_stateInv hi fun _ _ _ => trivial

theorem execTick_stateInv (h : Nat) : ∃ t, execTick h s = .next t ∧ StateInv t :=
  onNode_stateInv hi fun _ hn hb => (tickNode_endsWell hn hb).withStatus

theorem execSend_stateInv (h : Nat) (msg : Message) : ∃ t, execSend h msg s = .next t ∧ StateInv t :=
  onNode_stateInv hi fun _ hn hb => sendNode_endsWell msg hn hb

/-- From a state in form every operation of the host runs to its end and leaves the state in form (R43, R320). -/
theorem exec_hostOp_stateInv (op : HostOp) : ∃ t, exec op.toInstr s = .next t ∧ StateInv t := by
  cases op with
  | reset => exact ⟨_, rfl, stateInv_of_no_node rfl rfl⟩
  | init name pref tick => exact execInit_stateInv hi name pref tick
  | rxframe h f => exact execRxframe_stateInv hi h f
  | tick h => exact execTick_stateInv hi h
  | send h msg => exact execSend_stateInv hi h msg

end HostOps

/-! ### One step -/

/-- What a step that answers a next state has run: nothing, or the oldest pending operation. -/
theorem step_next_cases {s t : State} (hs : step s = .next t) :
    (s.pending = [] ∧ t = s) ∨
    ∃ op rest, s.pending = op :: rest ∧ exec op.toInstr { s with pending := rest } = .next t := by
  cases hp : s.pending with
  | nil =>
    rw [step_idle hp] at hs
    cases hs
    exact .inl ⟨rfl, rfl⟩
  | cons op rest =>
    cases hw : WellFormed s.cfg op.toInstr with
    | true => exact .inr ⟨op, rest, rfl, (step_wellFormed hp hw).symm.trans hs⟩
    | false =>
      rw [step_illFormed hp hw] at hs
      cases hs

/-- Settles O53: an idle step changes nothing, and the operation a step runs starts from a state in form, since the
invariant does not look at what is pending. -/
theorem stepKeepsInvariant : Obligations.StepKeepsInvariant := by
  intro s s' hi hs
  obtain ⟨-, rfl⟩ | ⟨op, rest, -, he⟩ := step_next_cases hs
  · exact hi
  · obtain ⟨t, ht, hit⟩ := exec_hostOp_stateInv (hi.withPending rest) op
    rw [he] at ht
    cases ht
    exact hit

end Sys2Proof.Machine
end

section
/-! The encoding statements (30_encoding.md, 40_codec.md): what `decode` answers, one equation per row of the table.
They rest on what the identifier says (`OfClass`), and an identifier says it because `encodeId` wrote it (O4) or because
it matches under the mask of R111 (O6). -/

namespace Sys2Proof

/-! ### The identifier -/

/-- A valid tuple comes back from its identifier (40_codec.md R142). -/
theorem decodeId_encodeId {prio : BitVec 3} {pgn : Pgn} {src dst : Byte} (hv : validTuple pgn dst = true) :
    decodeId (encodeId prio pgn src dst) = { prio := prio, pgn := pgn, src := src, dst := dst } := by
  simp only [validTuple, Bool.and_eq_true, decide_eq_true_eq] at hv
  obtain ⟨hhigh, hlow⟩ := hv
  have hpgn := pgn_assembled pgn
  rw [hhigh] at hpgn
  simp only [decodeId, encodeId_prio, encodeId_dp, encodeId_pf, encodeId_ps, encodeId_src, psOf]
  cases hp : pgnIsPdu1 pgn with
  | true =>
    have hps : byteOf pgn 0 = 0#8 := by simpa [hp] using hlow
    rw [hps] at hpgn
    rw [if_pos (show pfIsPdu1 (byteOf pgn 1) = true from hp), hpgn]
    rfl
  | false =>
    have hdst : dst = addrGlobal := by simpa [hp] using hlow
    rw [if_neg (by simpa [pgnIsPdu1] using hp), hdst, if_neg (by decide), hpgn]

/-- The identifier bits under R111's mask stand in the decoded PGN, of either PDU format. -/
theorem decodeId_pgn_fields (id : IdWord) :
    (decodeId id).pgn.extractLsb' 16 1 = id.extractLsb' 24 1 ∧ byteOf (decodeId id).pgn 1 = id.extractLsb' 16 8 := by
  cases hp : pfIsPdu1 (id.extractLsb' 16 8) <;> simp only [decodeId, hp, if_true, Bool.false_eq_true, if_false]
  all_goals exact ⟨pgn_dp _ _ _, pgn_pf _ _ _⟩

/-- An extended frame matches a destination-specific PGN under the mask of R111 exactly when `Decode` gives that PGN. -/
theorem mask_iff_decodeId_pgn {id : IdWord} {d : BitVec 1} {pf : Byte} (hb : id.getLsbD 31 = true)
    (hpf : pfIsPdu1 pf = true) :
    id &&& 0x81FF0000#32 = 1#1 ++ 0#6 ++ d ++ pf ++ 0#16 ↔ (decodeId id).pgn = 0#7 ++ d ++ pf ++ 0#8 := by
  rw [mask_iff]
  constructor
  · rintro ⟨-, rfl, rfl⟩
    rw [decodeId, if_pos hpf]
  · intro h
    obtain ⟨hdp, hbyte⟩ := decodeId_pgn_fields id
    rw [h] at hdp hbyte
    exact ⟨hb, hdp.symm.trans (pgn_dp _ _ _), hbyte.symm.trans (pgn_pf _ _ _)⟩

/-! ### Frames by their class -/

/-- A CAN frame with the extended marker whose identifier `Decode` reads as `pgn` and the routing `r`. -/
structure OfClass (f : Frame) (pgn : Pgn) (r : Routing) : Prop where
  length_le : f.data.length ≤ 8
  extended : f.id.getLsbD 31 = true
  fields : decodeId f.id = { prio := r.prio, pgn := pgn, src := r.src, dst := r.dst }

/-- Every extended CAN frame is of one class. -/
theorem ofClass_decodeId {f : Frame} (hl : f.data.length ≤ 8) (hb : f.id.getLsbD 31 = true) :
    OfClass f (decodeId f.id).pgn
      { prio := (decodeId f.id).prio, dst := (decodeId f.id).dst, src := (decodeId f.id).src } :=
  ⟨hl, hb, rfl⟩

/-- The frame the encoder makes for a class (R91). -/
theorem ofClass_classFrame {pgn : Pgn} {r : Routing} {data : List Byte} (hv : validTuple pgn r.dst = true)
    (hl : data.length ≤ 8) : OfClass (classFrame pgn r data) pgn r :=
  ⟨hl, encodeId_eff .., decodeId_encodeId hv⟩

/-- A frame whose identifier matches a destination-specific PGN under the mask (R111). -/
theorem ofClass_of_mask {f : Frame} {d : BitVec 1} {pf : Byte} (hl : f.data.length ≤ 8) (hpf : pfIsPdu1 pf = true)
    (hw : f.id &&& 0x81FF0000#32 = 1#1 ++ 0#6 ++ d ++ pf ++ 0#16) :
    OfClass f (0#7 ++ d ++ pf ++ 0#8)
      { prio := f.id.extractLsb' 26 3, dst := f.id.extractLsb' 8 8, src := f.id.extractLsb' 0 8 } := by
  obtain ⟨hb, rfl, rfl⟩ := (mask_iff f.id d pf).1 hw
  exact ⟨hl, hb, by rw [decodeId, if_pos hpf]⟩

/-- A PGN that is not the Request PGN asks for nothing (41_dispatcher.md R162). -/
theorem isAcRequest_of_pgn_ne {c : Config} {pgn : Pgn} {data : List Byte} (hp : pgn ≠ c.pgnRequest) :
    isAcRequest c pgn data = false :=
  Bool.eq_false_iff.2 fun h => hp (isAcRequest_inv h).1

/-- Fewer than three bytes are no Request for Address-Claimed (R108). -/
theorem isAcRequest_of_short {c : Config} {pgn : Pgn} {data : List Byte} (hl : data.length < 3) :
    isAcRequest c pgn data = false := by
  refine Bool.eq_false_iff.2 fun h => ?_
  obtain ⟨-, extra, rfl⟩ := isAcRequest_inv h
  simp only [requestAcBytes, List.length_append, List.length_cons, List.length_nil] at hl
  omega

/-! ### Classification, one equation per branch (R111) -/

/-- A legacy standard frame (40_codec.md R146). -/
theorem decode_standard {c : Config} {h : Nat} {f : Frame} (hl : f.data.length ≤ 8) (hb : f.id.getLsbD 31 = false) :
    decode c h f = .ok (.stdFrame h f.id f.data) := by
  rw [decode, if_neg (Nat.not_lt.2 hl), if_pos hb]

section Classes
variable {c : Config} {h : Nat} {f : Frame} {pgn : Pgn} {r : Routing}

/-- An extended frame is classified by its PGN and its data alone, in the dispatcher's order. -/
theorem decode_extended (hf : OfClass f pgn r) : decode c h f =
    if isAcRequest c pgn f.data then .ok (.requestAc h r (f.data.drop 3))
    else if pgn = pgnTpCm then decodeCm h r f.data
    else if pgn = pgnTpDt then decodeDt h r f.data
    else if pgn = pgnAddressClaimed then decodeClaim h r f.data
    else .ok (.app h r.prio pgn r.src r.dst f.data) := by
  rw [decode, if_neg (Nat.not_lt.2 hf.length_le), if_neg (by rw [hf.extended]; decide)]
  simp only [hf.fields]

theorem decode_requestAc (hf : OfClass f pgn r) (hr : isAcRequest c pgn f.data = true) :
    decode c h f = .ok (.requestAc h r (f.data.drop 3)) := by
  rw [decode_extended hf, if_pos hr]

theorem decode_tpCm (hf : OfClass f pgnTpCm r) (hr : isAcRequest c pgnTpCm f.data = false) :
    decode c h f = decodeCm h r f.data := by
  rw [decode_extended hf, if_neg (by simp [hr]), if_pos rfl]

theorem decode_tpDt (hf : OfClass f pgnTpDt r) (hr : isAcRequest c pgnTpDt f.data = false) :
    decode c h f = decodeDt h r f.data := by
  rw [decode_extended hf, if_neg (by simp [hr]), if_neg (by decide), if_pos rfl]

theorem decode_addressClaimed (hf : OfClass f pgnAddressClaimed r)
    (hr : isAcRequest c pgnAddressClaimed f.data = false) : decode c h f = decodeClaim h r f.data := by
  rw [decode_extended hf, if_neg (by simp [hr]), if_neg (by decide), if_neg (by decide), if_pos rfl]

theorem decode_app (hf : OfClass f pgn r) (hr : isAcRequest c pgn f.data = false) (hcm : pgn ≠ pgnTpCm)
    (hdt : pgn ≠ pgnTpDt) (hac : pgn ≠ pgnAddressClaimed) :
    decode c h f = .ok (.app h r.prio pgn r.src r.dst f.data) := by
  rw [decode_extended hf, if_neg (by simp [hr]), if_neg hcm, if_neg hdt, if_neg hac]

end Classes

/-! ### The TP.CM sub-classes, one equation per control byte (R112) -/

section SubClasses
variable (h : Nat) (r : Routing) (b1 b2 b3 b4 : Byte) (pgn : Pgn)

theorem decodeCm_rts :
    decodeCm h r (cmBytes ctrlRts b1 b2 b3 b4 pgn) = .ok (.tpCmRts h r (le16 b1 b2) b3 b4 pgn) := by
  simp [decodeCm, cmBytes]

theorem decodeCm_cts : decodeCm h r (cmBytes ctrlCts b1 b2 b3 b4 pgn) = .ok (.tpCmCts h r b1 b2 b3 b4 pgn) := by
  simp [decodeCm, cmBytes, ctrlRts, ctrlCts]

theorem decodeCm_eoma :
    decodeCm h r (cmBytes ctrlEoma b1 b2 b3 b4 pgn) = .ok (.tpCmEoma h r (le16 b1 b2) b3 b4 pgn) := by
  simp [decodeCm, cmBytes, ctrlRts, ctrlCts, ctrlEoma]

theorem decodeCm_bam :
    decodeCm h r (cmBytes ctrlBam b1 b2 b3 b4 pgn) = .ok (.tpCmBam h r (le16 b1 b2) b3 b4 pgn) := by
  simp [decodeCm, cmBytes, ctrlRts, ctrlCts, ctrlEoma, ctrlBam]

theorem decodeCm_abort :
    decodeCm h r (cmBytes ctrlAbort b1 b2 b3 b4 pgn) = .ok (.tpCmAbort h r b1 b2 b3 b4 pgn) := by
  simp [decodeCm, cmBytes, ctrlRts, ctrlCts, ctrlEoma, ctrlBam, ctrlAbort]

end SubClasses

theorem decodeCm_other {h : Nat} {r : Routing} {k : Byte} {rest : List Byte} (hl : rest.length = 7)
    (hk : isCmControl k = false) : decodeCm h r (k :: rest) = .ok (.tpCmOther h r k rest) := by
  obtain ⟨d1, d2, d3, d4, d5, d6, d7, rfl⟩ := sevenBytes_eq hl
  simp only [isCmControl, Bool.or_eq_false_iff, beq_eq_false_iff_ne] at hk
  obtain ⟨⟨⟨⟨hrts, hcts⟩, heoma⟩, hbam⟩, habort⟩ := hk
  simp only [decodeCm, hrts, hcts, heoma, hbam, habort, if_false]

theorem decodeDt_cons {h : Nat} {r : Routing} {k : Byte} {chunk : List Byte} (hl : chunk.length = 7) :
    decodeDt h r (k :: chunk) = .ok (.tpDt h r k chunk) := by
  obtain ⟨d1, d2, d3, d4, d5, d6, d7, rfl⟩ := sevenBytes_eq hl
  rfl

theorem decodeClaim_nameBytes (h : Nat) (r : Routing) (name : Name64) :
    decodeClaim h r (nameBytes name) = .ok (.addressClaimed h r name) := by
  simp only [decodeClaim, nameBytes, le64_byteOf]

/-! ### Decode of encode -/

/-- A TP.CM frame whose control byte is not 0x00 is no Request, whatever the Request PGN of the configuration. -/
theorem decode_cmFrame (c : Config) (h : Nat) (r : Routing) {k : Byte} (b1 b2 b3 b4 : Byte) (pgn : Pgn)
    (hk : k ≠ 0#8) :
    decode c h (classFrame pgnTpCm r (cmBytes k b1 b2 b3 b4 pgn)) = decodeCm h r (cmBytes k b1 b2 b3 b4 pgn) :=
  decode_tpCm (ofClass_classFrame (validTuple_own _).1 (Nat.le_refl 8)) (isAcRequest_of_ne hk)

/-- Settles O4, row by row: the frame is of the row's class, no earlier row takes it, and its fields are read back. The
other rows have no frame to decode. -/
theorem decodeOfEncode : Obligations.DecodeOfEncode := by
  intro c i f hw he
  cases i with
  | stdFrame h id data =>
    simp only [WellFormed, Bool.and_eq_true, decide_eq_true_eq] at hw
    cases he
    exact ⟨h, rfl, decode_standard hw.2 hw.1⟩
  | requestAc h r extra =>
    simp only [WellFormed, Bool.and_eq_true, decide_eq_true_eq] at hw
    obtain ⟨hv, hl⟩ := hw
    cases he
    have hlen : (requestAcBytes ++ extra).length ≤ 8 := by simp [requestAcBytes]; omega
    exact ⟨h, rfl, decode_requestAc (ofClass_classFrame hv hlen) (isAcRequest_requestAc c extra)⟩
  | tpCmRts h r len npkt maxPackets pgn =>
    cases he
    exact ⟨h, rfl, (decode_cmFrame c h r _ _ _ _ pgn (by decide)).trans (by rw [decodeCm_rts, le16_byteOf])⟩
  | tpCmCts h r packets nextSeq res3 res4 pgn =>
    cases he
    exact ⟨h, rfl, (decode_cmFrame c h r _ _ _ _ pgn (by decide)).trans (decodeCm_cts ..)⟩
  | tpCmEoma h r len npkt res4 pgn =>
    cases he
    exact ⟨h, rfl, (decode_cmFrame c h r _ _ _ _ pgn (by decide)).trans (by rw [decodeCm_eoma, le16_byteOf])⟩
  | tpCmBam h r len npkt res4 pgn =>
    cases he
    exact ⟨h, rfl, (decode_cmFrame c h r _ _ _ _ pgn (by decide)).trans (by rw [decodeCm_bam, le16_byteOf])⟩
  | tpCmAbort h r reason res2 res3 res4 pgn =>
    cases he
    exact ⟨h, rfl, (decode_cmFrame c h r _ _ _ _ pgn (by decide)).trans (decodeCm_abort ..)⟩
  | tpCmOther h r control rest =>
    simp only [WellFormed, sevenBytes, Bool.and_eq_true, decide_eq_true_eq, Bool.not_eq_true'] at hw
    obtain ⟨⟨hl, hk⟩, hr⟩ := hw
    cases he
    have hf := ofClass_classFrame (data := control :: rest) (validTuple_own r.dst).1 (by simp [hl])
    exact ⟨h, rfl, (decode_tpCm hf hr).trans (decodeCm_other hl hk)⟩
  | tpDt h r seq chunk =>
    simp only [WellFormed, sevenBytes, Bool.and_eq_true, decide_eq_true_eq, Bool.not_eq_true'] at hw
    obtain ⟨hl, hr⟩ := hw
    cases he
    have hf := ofClass_classFrame (data := seq :: chunk) (validTuple_own r.dst).2.1 (by simp [hl])
    exact ⟨h, rfl, (decode_tpDt hf hr).trans (decodeDt_cons hl)⟩
  | addressClaimed h r name =>
    simp only [WellFormed, Bool.not_eq_true'] at hw
    cases he
    have hf := ofClass_classFrame (validTuple_own r.dst).2.2 (nameBytes_length name).le
    exact ⟨h, rfl, (decode_addressClaimed hf hw).trans (decodeClaim_nameBytes h r name)⟩
  | app h prio pgn src dst data =>
    simp only [WellFormed, appFrameWf, Bool.and_eq_true, decide_eq_true_eq, Bool.not_eq_true'] at hw
    obtain ⟨⟨⟨⟨⟨hl, hv⟩, hr⟩, hcm⟩, hdt⟩, hac⟩ := hw
    cases he
    have hf := ofClass_classFrame (r := { prio := prio, dst := dst, src := src }) hv hl
    exact ⟨h, rfl, decode_app hf hr hcm hdt hac⟩
  | _ => cases he

/-! ### The classes by match and mask -/

/-- An extended frame that does not match a block PGN under the mask has another PGN. -/
theorem decodeId_pgn_ne_of_mask {id : IdWord} {d : BitVec 1} {pf : Byte} (hb : id.getLsbD 31 = true)
    (hpf : pfIsPdu1 pf = true) (hw : id &&& 0x81FF0000#32 ≠ 1#1 ++ 0#6 ++ d ++ pf ++ 0#16) :
    (decodeId id).pgn ≠ 0#7 ++ d ++ pf ++ 0#8 :=
  mt (mask_iff_decodeId_pgn hb hpf).2 hw

/-- Bytes of a TP.CM frame in the layout of R97. -/
theorem cmBytes_le24 (k b1 b2 b3 b4 b5 b6 b7 : Byte) :
    cmBytes k b1 b2 b3 b4 (le24 b5 b6 b7) = [k, b1, b2, b3, b4, b5, b6, b7] := by
  simp [cmBytes]

/-- Settles O6: the mask gives the class, and the class its equation. -/
theorem classesByMatchAndMask : Obligations.ClassesByMatchAndMask := by
  intro c h f hc hl r w
  have other : ∀ {pgn : Pgn} {data : List Byte}, pgn ≠ 0x00EA00#24 → isAcRequest c pgn data = false :=
    fun hp => isAcRequest_of_pgn_ne (by rwa [hc])
  refine ⟨fun hw extra hx => ?_, fun hw b1 b2 b3 b4 b5 b6 b7 => ?_, fun hw k b1 b2 b3 b4 b5 b6 b7 hx => ?_,
    fun hw b0 b1 b2 b3 b4 b5 b6 b7 hx => ?_, fun hea hec heb hee hb => ?_, decode_standard hl⟩
  · have hf : OfClass f 0x00EA00#24 r := ofClass_of_mask (d := 0#1) (pf := 0xEA#8) hl (by decide) hw
    have hr : isAcRequest c 0x00EA00#24 f.data = true := by
      rw [← hc, hx]
      exact isAcRequest_requestAc c extra
    rw [decode_requestAc hf hr, hx]
    rfl
  · have hf : OfClass f pgnTpCm r := ofClass_of_mask (d := 0#1) (pf := 0xEC#8) hl (by decide) hw
    rw [decode_tpCm hf (other (by decide))]
    refine ⟨?_, ?_, ?_, ?_, ?_, fun k hrts hcts heoma hbam habort hx => ?_⟩
    case refine_6 =>
      rw [hx]
      exact decodeCm_other rfl (by simp [isCmControl, ctrlRts, ctrlCts, ctrlEoma, ctrlBam, ctrlAbort, *])
    all_goals
      intro hx
      rw [hx, ← cmBytes_le24]
    · exact decodeCm_rts ..
    · exact decodeCm_cts ..
    · exact decodeCm_eoma ..
    · exact decodeCm_bam ..
    · exact decodeCm_abort ..
  · have hf : OfClass f pgnTpDt r := ofClass_of_mask (d := 0#1) (pf := 0xEB#8) hl (by decide) hw
    rw [decode_tpDt hf (other (by decide)), hx]
    exact decodeDt_cons rfl
  · have hf : OfClass f pgnAddressClaimed r := ofClass_of_mask (d := 0#1) (pf := 0xEE#8) hl (by decide) hw
    rw [decode_addressClaimed hf (other (by decide)), hx, ← nameBytes_le64]
    exact decodeClaim_nameBytes ..
  · have hr : isAcRequest c (decodeId f.id).pgn f.data = false := by
      refine Bool.eq_false_iff.2 fun hreq => ?_
      obtain ⟨hp, hdata⟩ := isAcRequest_inv hreq
      refine hea.elim (fun hw => ?_) fun hnone => hnone hdata
      exact decodeId_pgn_ne_of_mask (d := 0#1) (pf := 0xEA#8) hb (by decide) hw (hp.trans hc)
    exact decode_app (ofClass_decodeId hl hb) hr
      (decodeId_pgn_ne_of_mask (d := 0#1) (pf := 0xEC#8) hb (by decide) hec)
      (decodeId_pgn_ne_of_mask (d := 0#1) (pf := 0xEB#8) hb (by decide) heb)
      (decodeId_pgn_ne_of_mask (d := 0#1) (pf := 0xEE#8) hb (by decide) hee)

/-- Settles O7: `decode` evaluated on the six words. -/
theorem rowWordsDecode : Obligations.RowWordsDecode := by
  unfold Obligations.RowWordsDecode
  decide

end Sys2Proof
end

section
/-! What a received frame's length and marker decide (30_encoding.md R107, R108), and which frames the operations of the
host emit (R113): what `hostOp_cases` says of the run, said of the state it leaves. -/

namespace Sys2Proof.Machine

/-- A standard frame moves nothing: its discard comes before the listen-only delivery (40_codec.md R146). -/
theorem discardStandard_unmoved {s : State} {h : Nat} {n : Node} (hl : Live s h n) :
    discardStandard h s = .next (s.unmoved .ok) :=
  onNode_discard (why := .stdFrame) hl rfl

/-- Settles O11: as a frame and as a row, a standard frame is `discardStandard`. -/
theorem standardFrameDiscarded : Obligations.StandardFrameDiscarded := fun s h _ hl =>
  ⟨fun _ hb => (exec_rxframe_standard s h hb).trans (discardStandard_unmoved hl),
    fun _ _ => discardStandard_unmoved hl⟩

/-! ### Frames of a wrong length (30_encoding.md R108) -/

section WrongLength
variable {m : Message} (hm : m.data.length ≠ 8) (c : Config) (r : NodeRun)
include hm

theorem tpOnCm_badLength : tpOnCm m c r = .error (.discard .badLength) := by
  unfold tpOnCm
  split
  case h_1 hd => exact absurd (congrArg List.length hd) hm
  case h_2 => rfl

theorem tpOnDt_badLength : tpOnDt m c r = .error (.discard .badLength) := by
  unfold tpOnDt
  split
  case h_1 hd => exact absurd (congrArg List.length hd) hm
  case h_2 => rfl

/-- A Cannot-Claim node ignores the claim before it looks at the length (42_address_claim.md R201). -/
theorem acOnClaimMessage_wrongLength :
    acOnClaimMessage m c r = .ok r ∨ acOnClaimMessage m c r = .error (.discard .badLength) := by
  unfold acOnClaimMessage
  split
  case isTrue => exact .inl rfl
  case isFalse =>
  split
  case h_1 hd => exact absurd (congrArg List.length hd) hm
  case h_2 => exact .inr rfl

/-- The handler of a protocol message of another length than 8 does nothing, with a reason or without. -/
theorem dispatch_wrongLength (hr : isAcRequest c m.pgn m.data = false)
    (hp : m.pgn = pgnTpCm ∨ m.pgn = pgnTpDt ∨ m.pgn = pgnAddressClaimed) :
    dispatch m c r = .ok r ∨ dispatch m c r = .error (.discard .badLength) := by
  rcases hp with hp | hp | hp
  · exact .inr ((dispatch_tpCm hr hp).trans (tpOnCm_badLength hm c r))
  · exact .inr ((dispatch_tpDt hr hp).trans (tpOnDt_badLength hm c r))
  · rw [dispatch_addressClaimed hr hp]
    exact acOnClaimMessage_wrongLength hm c r

end WrongLength

/-- A heard message whose handler leaves the run as it began, or discards, moves nothing. -/
theorem receive_unmoved {s : State} {h : Nat} {n : Node} {m : Message}
    {k : Config → NodeRun → Except Stop NodeRun} {why : Discard} (hl : Live s h n) (hd : Hears s n m.dst)
    (hk : k s.cfg { node := n, out := [], draws := s.txDraws } = .ok { node := n, out := [], draws := s.txDraws } ∨
      k s.cfg { node := n, out := [], draws := s.txDraws } = .error (.discard why)) :
    receive h m k s = .next (s.unmoved .ok) := by
  rcases hk with hk | hk
  · rw [receive_ok hl hd hk, ← State.ends_eq, State.ends_self hl]
  · exact receive_discard hl hd hk

/-- Settles O15: the routing of a wrong length moves nothing, and the classification of the others is APP. -/
theorem lengthRules : Obligations.LengthRules := by
  intro s h n f hl hb
  refine ⟨fun hd hr h8 hp => ?_, fun h8 hcm hdt hac hreq => ?_⟩
  · rw [exec_rxframe_extended s h hb]
    exact receive_unmoved hl hd (dispatch_wrongLength (m := frameToMessage f) h8 _ _ hr hp)
  · exact decode_app (ofClass_decodeId h8 hb) (hreq.elim isAcRequest_of_pgn_ne isAcRequest_of_short) hcm hdt hac

/-! ### The frames of the host operations (30_encoding.md R113) -/

/-- The record a successful INIT leaves in use. -/
theorem live_registered {s : State} {old : Node} (r : NodeRun) (hg : s.nodes[s.nodeCount]? = some old) :
    Live (s.registered r) s.nodeCount r.node := by
  obtain ⟨hlt, -⟩ := List.getElem?_eq_some_iff.1 hg
  exact ⟨Nat.lt_succ_self _, by simp [hlt]⟩

/-- The only frame of INIT is the claim of the address and the NAME it was given (42_address_claim.md R191, R193). -/
theorem acInit_txFrame {c : Config} {name : Name64} {pref : Byte} {n : Node} {d : Nat} {f : Frame}
    (hf : OutEvent.txFrame f ∈ (acInit c name pref { node := n, out := [], draws := d }).out) :
    f = encodeTx (.addressClaimed pref name) := by
  rw [acInit_eq] at hf
  simp only [List.nil_append, List.mem_append] at hf
  rcases hf with hf | hf
  · split at hf
    · simp at hf
    · simpa using hf
  · split at hf <;> simp at hf

theorem acInit_claimed {c : Config} {name : Name64} {pref : Byte} {r : NodeRun} :
    (acInit c name pref r).node.addr = pref ∧ (acInit c name pref r).node.name = name := by
  rw [acInit_eq]
  exact ⟨rfl, rfl⟩

/-- Settles O59: RESET and a bare status hand out nothing, a run on the node of the operation's handle hands out what
`Emission` says, and INIT its claim. -/
theorem transmittedFramesAreTableRows : Obligations.TransmittedFramesAreTableRows := by
  intro s t op f ho hf
  obtain ⟨-, rfl⟩ | ⟨st, rfl⟩ | ⟨h, n₀, r, st, ha, hl, rfl, hem⟩ | ⟨name, pref, tick, old, rfl, hg, rfl⟩ :=
    hostOp_cases ho
  · exact absurd hf List.not_mem_nil
  · exact absurd hf List.not_mem_nil
  · obtain ⟨hrow, h8⟩ := hem.row f hf
    exact ⟨h, n₀, r.node, .inl ⟨ha, hl⟩, by simpa using hl.finish hl r st, h8, hrow⟩
  · have hrow := acInit_txFrame hf
    refine ⟨s.nodeCount, old, _, .inr ⟨⟨name, pref, tick, rfl⟩, rfl, hg⟩, live_registered _ hg, ?_, hrow,
      acInit_claimed⟩
    rw [hrow]
    exact Nat.le_refl 8

end Sys2Proof.Machine
end

section
/-! The codec statements (40_codec.md): the identifier of R140 and R141 field by field, its round trips (R142), and the
encoder on what the decoder answers (30_encoding.md R105, R111, R112). -/

namespace Sys2Proof

/-! ### Decode, one equation per PDU format (R140) -/

theorem decodeId_pdu1 {id : IdWord} (hp : pfIsPdu1 (id.extractLsb' 16 8) = true) :
    decodeId id =
      { prio := id.extractLsb' 26 3, pgn := 0#7 ++ id.extractLsb' 24 1 ++ id.extractLsb' 16 8 ++ 0#8
        src := id.extractLsb' 0 8, dst := id.extractLsb' 8 8 } := by
  rw [decodeId, if_pos hp]

theorem decodeId_pdu2 {id : IdWord} (hp : pfIsPdu1 (id.extractLsb' 16 8) = false) :
    decodeId id =
      { prio := id.extractLsb' 26 3, pgn := 0#7 ++ id.extractLsb' 24 1 ++ id.extractLsb' 16 8 ++ id.extractLsb' 8 8
        src := id.extractLsb' 0 8, dst := addrGlobal } := by
  rw [decodeId, if_neg (by simp [hp])]

/-! ### Fields as numbers -/

/-- The left operand of `++` is the high part of the number. -/
theorem append_toNat {m n : Nat} (x : BitVec m) (y : BitVec n) : (x ++ y).toNat = x.toNat * 2 ^ n + y.toNat := by
  rw [BitVec.toNat_append, ← Nat.shiftLeft_add_eq_or_of_lt y.isLt, Nat.shiftLeft_eq]

/-- R92's test on an identifier word, by its number. -/
theorem pfIsPdu1_id_eq (id : IdWord) :
    pfIsPdu1 (id.extractLsb' 16 8) = decide (id.toNat / 65536 % 256 < 240) := by
  simp only [pfIsPdu1, BitVec.extractLsb'_toNat, Nat.shiftRight_eq_div_pow]
  rfl

/-- A PGN as `Decode` assembles it. -/
theorem pgn_toNat (dp : BitVec 1) (pf ps : Byte) :
    (0#7 ++ dp ++ pf ++ ps : Pgn).toNat = dp.toNat * 65536 + pf.toNat * 256 + ps.toNat := by
  simp only [append_toNat, BitVec.toNat_ofNat]
  omega

/-- Settles O1: the equation of each PDU format, its fields taken as numbers. -/
theorem decodeReadsIdFields : Obligations.DecodeReadsIdFields := by
  intro id
  have hpf := pfIsPdu1_id_eq id
  split
  case isTrue hlt =>
    rw [decodeId_pdu1 (hpf.trans (decide_eq_true hlt))]
    simp [pgn_toNat, Nat.shiftRight_eq_div_pow]
  case isFalse hge =>
    rw [decodeId_pdu2 (hpf.trans (decide_eq_false hge))]
    simp [pgn_toNat, Nat.shiftRight_eq_div_pow, addrGlobal]

theorem psOf_toNat (pgn : Pgn) (dst : Byte) :
    (psOf pgn dst).toNat = if pgn.toNat / 256 % 256 < 240 then dst.toNat else pgn.toNat % 256 := by
  simp only [psOf, pgnIsPdu1_eq, decide_eq_true_eq, apply_ite BitVec.toNat, byteOf_toNat]
  simp

/-- Settles O2: the number of the concatenation is the sum of its fields at their places. -/
theorem encodeWritesIdFields : Obligations.EncodeWritesIdFields := by
  intro prio pgn src dst
  rw [← psOf_toNat]
  simp only [encodeId, append_toNat, BitVec.extractLsb'_toNat, Nat.shiftRight_eq_div_pow, byteOf_toNat, BitVec.toNat_ofNat]
  omega

/-! ### The round trips of the identifier (R142) -/

theorem validTuple_of_toNat {pgn : Pgn} {dst : Byte} (hlt : pgn.toNat < 2 ^ 17)
    (hlow : if pgn.toNat / 256 % 256 < 240 then pgn.toNat % 256 = 0 else dst = 255#8) :
    validTuple pgn dst = true := by
  have hhigh : pgn.extractLsb' 17 7 = 0#7 := by
    apply BitVec.eq_of_toNat_eq
    rw [BitVec.extractLsb'_toNat, Nat.shiftRight_eq_div_pow, Nat.div_eq_of_lt hlt]
    rfl
  simp only [validTuple, hhigh, pgnIsPdu1_eq, decide_true, Bool.true_and, decide_eq_true_eq]
  split at hlow
  case isTrue hpf =>
    rw [if_pos hpf, decide_eq_true_eq]
    apply BitVec.eq_of_toNat_eq
    simpa [byteOf_toNat] using hlow
  case isFalse hpf => rw [if_neg hpf, hlow]; rfl

/-- An identifier word put together from all its fields, the unread ones too. -/
theorem id_assembled (w : IdWord) :
    (w.extractLsb' 31 1 ++ w.extractLsb' 29 2 ++ w.extractLsb' 26 3 ++ w.extractLsb' 25 1 ++ w.extractLsb' 24 1 ++
      w.extractLsb' 16 8 ++ w.extractLsb' 8 8 ++ w.extractLsb' 0 8 : IdWord) = w := by
  iterate 7 rw [BitVec.extractLsb'_append_extractLsb'_eq_extractLsb' (by rfl)]
  simp

/-- R142's mask keeps priority, data page, PDU format, PDU specific and source, clears bits 30, 29 and 25, and sets the
marker. -/
theorem normalised_append (eff : BitVec 1) (rtr : BitVec 2) (prio : BitVec 3) (edp dp : BitVec 1) (pf ps src : Byte) :
    ((eff ++ rtr ++ prio ++ edp ++ dp ++ pf ++ ps ++ src : IdWord) &&& 0x1DFFFFFF#32) ||| 0x80000000#32 =
      1#1 ++ 0#2 ++ prio ++ 0#1 ++ dp ++ pf ++ ps ++ src := by
  show ((eff ++ rtr ++ prio ++ edp ++ dp ++ pf ++ ps ++ src) &&&
      (0#1 ++ 0#2 ++ BitVec.allOnes 3 ++ 0#1 ++ BitVec.allOnes 1 ++ BitVec.allOnes 8 ++ BitVec.allOnes 8 ++
        BitVec.allOnes 8)) ||| (1#1 ++ 0#2 ++ 0#3 ++ 0#1 ++ 0#1 ++ 0#8 ++ 0#8 ++ 0#8) = _
  simp only [BitVec.and_append, BitVec.or_append, BitVec.and_allOnes, BitVec.and_zero, BitVec.or_zero,
    BitVec.zero_or]

/-- Every word comes back with the fields `Decode` does not read normalised. -/
theorem encodeId_decodeId (w : IdWord) :
    encodeId (decodeId w).prio (decodeId w).pgn (decodeId w).src (decodeId w).dst =
      (w &&& 0x1DFFFFFF#32) ||| 0x80000000#32 := by
  conv_rhs => rw [← id_assembled w, normalised_append]
  cases hp : pfIsPdu1 (w.extractLsb' 16 8) with
  | true =>
    rw [decodeId_pdu1 hp, encodeId, psOf, pgnIsPdu1, pgn_dp, pgn_pf, if_pos hp]
  | false =>
    rw [decodeId_pdu2 hp, encodeId, psOf, pgnIsPdu1, pgn_dp, pgn_pf, if_neg (by simp [hp]), pgn_ps]

/-- The PGN bits R142 keeps: data page and PDU format, and in PDU2 the low byte too. -/
theorem pgn_mask_pdu1 (pgn : Pgn) :
    pgn &&& 0x01FF00#24 = 0#7 ++ (pgn.extractLsb' 16 1 : BitVec 1) ++ byteOf pgn 1 ++ 0#8 := by
  conv_lhs => rw [← pgn_assembled pgn]
  show (pgn.extractLsb' 17 7 ++ pgn.extractLsb' 16 1 ++ byteOf pgn 1 ++ byteOf pgn 0) &&&
    (0#7 ++ BitVec.allOnes 1 ++ BitVec.allOnes 8 ++ 0#8) = _
  simp only [BitVec.and_append, BitVec.and_allOnes, BitVec.and_zero]

theorem pgn_mask_pdu2 (pgn : Pgn) :
    pgn &&& 0x01FFFF#24 = 0#7 ++ (pgn.extractLsb' 16 1 : BitVec 1) ++ byteOf pgn 1 ++ byteOf pgn 0 := by
  conv_lhs => rw [← pgn_assembled pgn]
  show (pgn.extractLsb' 17 7 ++ pgn.extractLsb' 16 1 ++ byteOf pgn 1 ++ byteOf pgn 0) &&&
    (0#7 ++ BitVec.allOnes 1 ++ BitVec.allOnes 8 ++ BitVec.allOnes 8) = _
  simp only [BitVec.and_append, BitVec.and_allOnes, BitVec.and_zero]

/-- Every tuple comes back with the fields `Encode` ignores cleared or replaced. -/
theorem decodeId_encodeId_masked (prio : BitVec 3) (pgn : Pgn) (src dst : Byte) :
    decodeId (encodeId prio pgn src dst) =
      if pgnIsPdu1 pgn then { prio := prio, pgn := pgn &&& 0x01FF00#24, src := src, dst := dst }
      else { prio := prio, pgn := pgn &&& 0x01FFFF#24, src := src, dst := addrGlobal } := by
  have hpf : pfIsPdu1 ((encodeId prio pgn src dst).extractLsb' 16 8) = pgnIsPdu1 pgn :=
    congrArg pfIsPdu1 (encodeId_pf ..)
  cases hp : pgnIsPdu1 pgn with
  | true =>
    rw [decodeId_pdu1 (hpf.trans hp), encodeId_prio, encodeId_dp, encodeId_pf, encodeId_ps, encodeId_src, psOf,
      if_pos hp, if_pos rfl, pgn_mask_pdu1]
  | false =>
    rw [decodeId_pdu2 (hpf.trans hp), encodeId_prio, encodeId_dp, encodeId_pf, encodeId_ps, encodeId_src, psOf,
      if_neg (by simp [hp]), if_neg (by decide), pgn_mask_pdu2]

/-- Settles O3, its three parts: valid tuples, words, all tuples. -/
theorem codecRoundTrip : Obligations.CodecRoundTrip := by
  refine ⟨fun _ _ _ _ hlt hlow => decodeId_encodeId (validTuple_of_toNat hlt hlow), encodeId_decodeId,
    fun prio pgn src dst => ?_⟩
  rw [decodeId_encodeId_masked]
  simp only [pgnIsPdu1_eq, decide_eq_true_eq]
  rfl

/-! ### Encode of decode -/

theorem OfClass.valid {f : Frame} {pgn : Pgn} {r : Routing} (hf : OfClass f pgn r) :
    validTuple pgn r.dst = true := by
  have hv := decodeId_valid f.id
  rwa [hf.fields] at hv

/-- The frame of an extended frame's class is that frame, but for the bits `Decode` does not read (R105). -/
theorem OfClass.classFrame_eq {f : Frame} {pgn : Pgn} {r : Routing} (hf : OfClass f pgn r) :
    classFrame pgn r f.data = { id := (f.id &&& 0x1DFFFFFF#32) ||| 0x80000000#32, data := f.data } := by
  rw [← encodeId_decodeId, hf.fields, classFrame]

open Machine (actingNode)

/-- `i` is a well-formed row on the handle `h`, and its frame is `f`. -/
structure RowOf (c : Config) (h : Nat) (f : Frame) (i : Instr) : Prop where
  wellFormed : WellFormed c i = true
  acting : actingNode i = some h
  encoded : encode c i = some f

section Rows
variable {c : Config} {h : Nat} {r : Routing} {data : List Byte} {f : Frame} {pgn : Pgn} {i : Instr}

/-- The sub-class of a TP.CM frame keeps every data byte (R97 to R102, R112). -/
theorem rowOf_decodeCm (hd : decodeCm h r data = .ok i) (hr : isAcRequest c pgnTpCm data = false) :
    RowOf c h (classFrame pgnTpCm r data) i := by
  obtain ⟨len, npkt, b4, pgn, rfl, rfl⟩ | ⟨b1, b2, b3, b4, pgn, rfl, rfl⟩ | ⟨len, npkt, b4, pgn, rfl, rfl⟩ |
    ⟨len, npkt, b4, pgn, rfl, rfl⟩ | ⟨b1, b2, b3, b4, pgn, rfl, rfl⟩ | ⟨k, rest, rfl, rfl, hl, hk⟩ :=
    decodeCm_cases hd
  case inr.inr.inr.inr.inr => exact ⟨by simp [WellFormed, sevenBytes, hl, hk, hr], rfl, rfl⟩
  all_goals exact ⟨rfl, rfl, rfl⟩

/-- A TP.DT frame (R103). -/
theorem rowOf_decodeDt (hd : decodeDt h r data = .ok i) (hr : isAcRequest c pgnTpDt data = false) :
    RowOf c h (classFrame pgnTpDt r data) i := by
  unfold decodeDt at hd
  split at hd
  · cases hd
    exact ⟨by simp [WellFormed, sevenBytes, hr], rfl, rfl⟩
  · cases hd

/-- An Address-Claimed frame: the NAME's bytes are the data (R96). -/
theorem rowOf_decodeClaim (hd : decodeClaim h r data = .ok i) (hr : isAcRequest c pgnAddressClaimed data = false) :
    RowOf c h (classFrame pgnAddressClaimed r data) i := by
  unfold decodeClaim at hd
  split at hd
  · cases hd
    exact ⟨by simp [WellFormed, hr], rfl, by simp [encode]⟩
  · cases hd

/-- A Request for Address-Claimed: the three bytes routing rule 1 tested, then the bytes it did not read (R95). -/
theorem rowOf_requestAc (hr : isAcRequest c pgn f.data = true) (hf : OfClass f pgn r) :
    RowOf c h (classFrame pgn r f.data) (.requestAc h r (f.data.drop 3)) := by
  obtain ⟨rfl, extra, hx⟩ := isAcRequest_inv hr
  have hl : extra.length ≤ 5 := by
    have hl := hf.length_le
    simp only [hx, requestAcBytes, List.length_append, List.length_cons, List.length_nil] at hl
    omega
  have hdrop : (requestAcBytes ++ extra).drop 3 = extra := rfl
  rw [hx, hdrop]
  exact ⟨by simp [WellFormed, hf.valid, hl], rfl, rfl⟩

/-- An application frame: no earlier row takes it (R111). -/
theorem rowOf_app (hf : OfClass f pgn r) (hr : isAcRequest c pgn f.data = false) (hcm : pgn ≠ pgnTpCm)
    (hdt : pgn ≠ pgnTpDt) (hac : pgn ≠ pgnAddressClaimed) :
    RowOf c h (classFrame pgn r f.data) (.app h r.prio pgn r.src r.dst f.data) :=
  ⟨by simp [WellFormed, appFrameWf, hf.length_le, hf.valid, hr, hcm, hdt, hac], rfl, rfl⟩

/-- A standard frame is its own row (40_codec.md R146). -/
theorem rowOf_stdFrame (hl : f.data.length ≤ 8) (hb : f.id.getLsbD 31 = false) :
    RowOf c h f (.stdFrame h f.id f.data) :=
  ⟨by simp only [WellFormed, hb, hl, decide_true, Bool.and_self], rfl, rfl⟩

end Rows

/-- Settles O5: a standard frame is its own row; an extended one is a row of its class, whose frame has the identifier
R142 brings back. -/
theorem encodeOfDecode : Obligations.EncodeOfDecode := by
  intro c h f i hd
  obtain ⟨hl, ⟨hb, rfl⟩ | ⟨hb, hrow⟩⟩ := decode_cases hd
  · obtain ⟨hw, ha, he⟩ := rowOf_stdFrame (c := c) (h := h) hl hb
    exact ⟨hw, ha, by rw [he, hb]; rfl⟩
  have hf := ofClass_decodeId hl hb
  suffices hi : RowOf c h (classFrame (decodeId f.id).pgn _ f.data) i by
    rw [hf.classFrame_eq] at hi
    exact ⟨hi.wellFormed, hi.acting, by rw [hi.encoded, hb]; rfl⟩
  obtain ⟨hr, rfl⟩ | ⟨hr, ⟨hp, hcm⟩ | ⟨-, hp, hdt⟩ | ⟨-, -, hp, hac⟩ | ⟨hcm, hdt, hac, rfl⟩⟩ := hrow
  · exact rowOf_requestAc hr hf
  · rw [hp] at hr ⊢
    exact rowOf_decodeCm hcm hr
  · rw [hp] at hr ⊢
    exact rowOf_decodeDt hdt hr
  · rw [hp] at hr ⊢
    exact rowOf_decodeClaim hac hr
  · exact rowOf_app hf hr hcm hdt hac

end Sys2Proof
end

section
/-! The dispatcher statements (41_dispatcher.md). A received row is RXFRAME of its frame (log entry 1), so what the
receive path of R160 does is said once, of RXFRAME, and holds of the rows; SEND is said branch by branch (R170); and
what an operation hands to the transport is what `hostOp_cases` says of its run. -/

namespace Sys2Proof.Machine

/-! ### Rows and frames -/

/-- Settles O9: routing and classification agree branch by branch, behind the same receive path. -/
theorem receivedFrameRunsItsRow : Obligations.ReceivedFrameRunsItsRow :=
  fun _ _ _ _ hd => exec_rxframe_of_decode hd

/-- A well-formed received row is RXFRAME of its frame: that frame decodes to the row (O4). -/
theorem exec_row_eq_rxframe {s : State} {h : Nat} {f : Frame} {i : Instr} (hw : WellFormed s.cfg i = true)
    (he : encode s.cfg i = some f) (ha : actingNode i = some h) : exec i s = exec (.rxframe h f) s := by
  obtain ⟨k, hk, hd⟩ := decodeOfEncode s.cfg i f hw he
  obtain rfl : h = k := Option.some.inj (ha.symm.trans hk)
  exact (exec_rxframe_of_decode hd).symm

/-! ### The receive path (R161, R166, R167) -/

/-- Settles O12: the filter is in front of every handler, and the rows of the frame are the frame. -/
theorem destinationFilter : Obligations.DestinationFilter := by
  intro s h n f hl hlo hb
  have hrx := exec_rxframe_extended s h hb
  refine ⟨fun hg hd => ?_, fun hd => hrx.trans (receive_heard hl ⟨hlo, hd⟩)⟩
  have hdrop := hrx.trans (receive_notAddressed hl hlo hg hd)
  exact ⟨hdrop, fun i hw he ha => (exec_row_eq_rxframe hw he ha).trans hdrop⟩

/-- A heard message whose handler delivers it goes to the application, and nothing else happens (R177). -/
theorem receive_delivered {s : State} {h : Nat} {n : Node} {m : Message}
    {k : Config → NodeRun → Except Stop NodeRun} (hl : Live s h n) (hd : Hears s n m.dst)
    (hk : ∀ run, k s.cfg run = .ok (deliver m run)) :
    receive h m k s = .next (s.ends h n [.deliver m] s.txDraws .ok) :=
  receive_ok hl hd (hk _)

/-- Settles O14: RXFRAME by the last branch of the routing, the row APP by its own handler. -/
theorem applicationFrameDelivered : Obligations.ApplicationFrameDelivered := by
  refine fun s h n hl => ⟨fun f hd hb hr hcm hdt hac => ?_, fun prio pgn src dst data hd => ?_⟩
  · rw [exec_rxframe_extended s h hb]
    exact receive_delivered hl hd fun _ => dispatch_app (m := frameToMessage f) hr hcm hdt hac
  · rw [exec, execApp]
    exact receive_delivered hl hd fun _ => rfl

/-! ### What an operation hands to the transport (R171, R175, R176) -/

section Init
variable (c : Config) (name : Name64) (pref : Byte) (n : Node) (d : Nat)

/-- INIT hands out its claim, and nothing in a listen-only block (42_address_claim.md R191, R193). -/
theorem acInit_frames : (acInit c name pref { node := n, out := [], draws := d }).out.filter isTxEvent =
    if c.listenOnly then [] else [.txFrame (encodeTx (.addressClaimed pref name))] := by
  have hdelay : (if 128 ≤ pref.toNat ∧ pref.toNat ≤ 247 then [OutEvent.startupDelay 250] else []).filter
      isTxEvent = [] := by split <;> rfl
  rw [acInit_eq, List.filter_append, hdelay, List.append_nil, List.nil_append]
  split <;> rfl

theorem acInit_draws : (acInit c name pref { node := n, out := [], draws := d }).draws =
    d + if c.listenOnly then 0 else 1 := by
  rw [acInit_eq]

end Init

/-- Settles O58: RESET and a bare status hand out nothing, a run on a node what `Emission` says, INIT its claim. -/
theorem atMostOneFramePerOperation : Obligations.AtMostOneFramePerOperation := by
  intro s t op ho
  obtain ⟨-, rfl⟩ | ⟨st, rfl⟩ | ⟨h, n, r, st, -, -, rfl, hem⟩ | ⟨name, pref, tick, old, -, -, rfl⟩ :=
    hostOp_cases ho
  · exact ⟨Nat.zero_le 1, rfl⟩
  · exact ⟨Nat.zero_le 1, rfl⟩
  · exact ⟨hem.one, hem.draws⟩
  · simp only [State.registered_outputs, State.registered_txDraws, acInit_frames, acInit_draws]
    split
    · exact ⟨Nat.zero_le 1, rfl⟩
    · exact ⟨Nat.le_refl 1, rfl⟩

/-- No operation of a listen-only block hands a frame to the transport (R167, R175). -/
theorem outputs_of_listenOnly {s t : State} {op : HostOp} (hlo : s.cfg.listenOnly = true)
    (ho : exec op.toInstr s = .next t) : t.outputs.filter isTxEvent = [] := by
  obtain ⟨-, rfl⟩ | ⟨st, rfl⟩ | ⟨h, n, r, st, -, -, rfl, hem⟩ | ⟨name, pref, tick, old, -, -, rfl⟩ :=
    hostOp_cases ho
  · rfl
  · rfl
  · obtain ⟨hquiet, -⟩ := hem.barred (by rw [txBarred, hlo, Bool.true_or])
    simpa using hquiet
  · rw [State.registered_outputs, acInit_frames, if_pos hlo]

/-- Settles O13: the listen-only branch of the receive path; a shut gate; and no draw without a frame (O58). -/
theorem listenOnlyDeliversAndIsSilent : Obligations.ListenOnlyDeliversAndIsSilent := by
  refine ⟨fun s h n f hl hlo hb => ?_, fun s t op hlo ho => ?_⟩
  · have hrx := (exec_rxframe_extended s h hb).trans (receive_listenOnly hl hlo)
    exact ⟨hrx, fun i hw he ha => (exec_row_eq_rxframe hw he ha).trans hrx⟩
  · have hnone := outputs_of_listenOnly hlo ho
    obtain ⟨-, hdraws⟩ := atMostOneFramePerOperation s t op ho
    exact ⟨by simpa using hnone, by rw [hdraws, hnone]; rfl⟩

/-! ### SEND, one equation per branch (R170) -/

section Send
variable {c : Config} {msg : Message} {r : NodeRun}

theorem sendNode_listenOnly (hlo : c.listenOnly = true) : sendNode msg c r = .ok (r, .errListenOnly) := by
  rw [sendNode, if_pos hlo]

theorem sendNode_cannotClaim (hlo : c.listenOnly = false) (hcc : r.node.cannotClaim = true) :
    sendNode msg c r = .ok (r, .errCannotClaim) := by
  rw [sendNode, if_neg (by simp [hlo]), if_pos hcc]

section Unbarred
variable (hlo : c.listenOnly = false) (hcc : r.node.cannotClaim = false)
include hlo hcc

theorem sendNode_tooLong (hlen : tpMaxLen < msg.len) : sendNode msg c r = .ok (r, .errParam) := by
  rw [sendNode, if_neg (by simp [hlo]), if_neg (by simp [hcc]), if_pos hlen]

theorem sendNode_short (hlen : msg.len ≤ 8) :
    sendNode msg c r = sendSingle { msg with src := r.node.addr } c r := by
  have hmax : ¬ tpMaxLen < msg.len := Nat.not_lt.2 (hlen.trans (by decide))
  rw [sendNode, if_neg (by simp [hlo]), if_neg (by simp [hcc]), if_neg hmax, if_pos hlen]

theorem sendNode_long (hlen : 8 < msg.len) (hmax : msg.len ≤ tpMaxLen) :
    sendNode msg c r = tpQueue { msg with src := r.node.addr } c r := by
  rw [sendNode, if_neg (by simp [hlo]), if_neg (by simp [hcc]), if_neg (Nat.not_lt.2 hmax),
    if_neg (Nat.not_le.2 hlen)]

end Unbarred

/-- A node with a connection takes no second one (43_transport_protocol.md R234). -/
theorem tpQueue_busy (hk : r.node.tpKind ≠ .none) : tpQueue msg c r = .ok (r, .errBusy) := by
  rw [tpQueue, if_pos hk]

/-- A single-frame send from a node's record, by the claims' name for its frame (R171). -/
theorem sendSingle_frame (n : Node) (d : Nat) : sendSingle msg c { node := n, out := [], draws := d } =
    .ok ({ node := n, out := if txBarred c n then [] else [.txFrame (singleFrame n msg)],
           draws := d + gatedDraws c n }, gatedStatus c n d) := by
  have hframe : singleFrame n msg = encodeTx (.appSingle msg.prio msg.pgn (psOf msg.pgn msg.dst) n.addr msg.data) :=
    frame_single msg n.addr
  rw [sendSingle_eq, hframe]
  rfl

end Send

section ExecSend
variable {s : State} {h : Nat} {n : Node} {msg : Message} {st : Status}

/-- SEND of a message whose node-level run ends with a report. -/
theorem exec_send_ok {r : NodeRun} (hl : Live s h n)
    (hs : sendNode msg s.cfg { node := n, out := [], draws := s.txDraws } = .ok (r, st)) :
    exec (.send h msg) s = .next (s.finish h r st) :=
  onNode_ok hl hs

/-- SEND that leaves the run as it began only reports. -/
theorem exec_send_refused (hl : Live s h n)
    (hs : sendNode msg s.cfg { node := n, out := [], draws := s.txDraws } =
      .ok ({ node := n, out := [], draws := s.txDraws }, st)) :
    exec (.send h msg) s = .next (s.unmoved st) := by
  rw [exec_send_ok hl hs, ← State.ends_eq, State.ends_self hl]

end ExecSend

/-- Settles O42: the branches of SEND that leave the run as it began. -/
theorem sendRefusals : Obligations.SendRefusals := by
  refine fun s h n msg hl => ⟨fun hlo => ?_, fun hlo hcc => ?_, fun hlo hcc hlen => ?_,
    fun hlo hcc hlen hmax hk => ?_⟩ <;> apply exec_send_refused hl
  · exact sendNode_listenOnly hlo
  · exact sendNode_cannotClaim hlo hcc
  · exact sendNode_tooLong hlo hcc hlen
  · exact (sendNode_long hlo hcc hlen hmax).trans (tpQueue_busy hk)

/-- Settles O43: the short branch of SEND is the single-frame send, and the gate of R175 is open. -/
theorem sendShort : Obligations.SendShort := by
  intro s h n msg hl hlo hcc hlen
  have hopen : txBarred s.cfg n = false := by rw [txBarred, hlo, hcc]; rfl
  have hs := (sendNode_short (r := { node := n, out := [], draws := s.txDraws }) hlo hcc hlen).trans
    (sendSingle_frame n s.txDraws)
  rw [exec_send_ok hl hs]
  simp only [gatedDraws, gatedStatus, hopen, Bool.false_eq_true, if_false]
  rfl

/-- Settles O49: the single-frame send, whatever the gate. -/
theorem txSingleSends : Obligations.TxSingleSends :=
  fun s _ n _ hl => onNode_ok hl (sendSingle_frame n s.txDraws)

end Sys2Proof.Machine
end

section
/-! The address-claim statements (42_address_claim.md). The claim handler is said once, by its branches and as the state
a row ADDRESS_CLAIMED leaves: a claim from another address, and our own kept, moved or lost. What every operation of the
host leaves of a node in use is said once too, from `hostOp_cases`. -/

namespace Sys2Proof.Machine

/-! ### The availability table and the search (R196, R197, R200) -/

theorem mark_acFree_guarded {c : Config} (hg : c.acDecrementGuarded = true) (a : Nat) (n : Node) :
    (mark c a n).acFree = if n.occupied a then n.acFree else n.acFree - 1 := by
  rw [mark, if_pos hg]
  split <;> rfl

theorem mark_acFree_unguarded {c : Config} (hg : c.acDecrementGuarded = false) (a : Nat) (n : Node) :
    (mark c a n).acFree = n.acFree - 1 := by
  rw [mark, if_neg (by simp [hg])]

/-- Settles O16: the table slot by slot, the counter by the parameter, and `mark_eq` for the rest. -/
theorem markAccounting : Obligations.MarkAccounting := by
  refine fun c n a _ => ⟨fun b hb => ?_, fun hg => mark_acFree_guarded hg a n, fun hg => mark_acFree_unguarded hg a n,
    ?_⟩
  · rw [mark_occupied c a n hb]
    split <;> simp [*]
  · rw [mark_eq]

/-- With the counter not 0, UpdateAddress takes the first free candidate. -/
theorem updateAddress_first {c : Config} {n : Node} {j : Nat} (hfree : n.acFree ≠ 0) (hj : j < 253)
    (hj_free : n.occupied ((n.addr.toNat + 1 + j) % 254) = false)
    (hbefore : ∀ i < j, n.occupied ((n.addr.toNat + 1 + i) % 254) = true) :
    updateAddress c n =
      some (mark c ((n.addr.toNat + 1 + j) % 254)
        { n with addr := BitVec.ofNat 8 ((n.addr.toNat + 1 + j) % 254) }) := by
  have hscan : scanFree n 253 ((n.addr.toNat + 1) % 254) = some ((n.addr.toNat + 1 + j) % 254) := by
    have hcand : ∀ i, ((n.addr.toNat + 1) % 254 + i) % 254 = (n.addr.toNat + 1 + i) % 254 := Nat.mod_add_mod _ _
    rw [← hcand j]
    exact scanFree_first 253 _ j (Nat.mod_lt _ (by decide)) hj (by rwa [hcand]) fun i hi => by
      rw [hcand]; exact hbefore i hi
  rw [updateAddress, if_neg hfree, hscan]

theorem updateAddress_eq_none_iff {c : Config} {n : Node} : updateAddress c n = none ↔
    n.acFree = 0 ∨ ∀ i < 253, n.occupied ((n.addr.toNat + 1 + i) % 254) = true := by
  refine ⟨updateAddress_none, fun hnone => ?_⟩
  cases hu : updateAddress c n with
  | none => rfl
  | some m =>
    obtain ⟨hfree, j, hj, a, rfl, ha, -⟩ := updateAddress_some hu
    rcases hnone with h0 | hall
    · exact absurd h0 hfree
    · rw [hall j hj] at ha
      cases ha

/-- Settles O17. -/
theorem updateAddressFirstFree : Obligations.UpdateAddressFirstFree :=
  fun _ _ => ⟨updateAddress_eq_none_iff, fun _ hj hfree => updateAddress_first hfree hj⟩

/-- A move keeps the NAME and the flag, and it is a move: fewer than 254 candidates are tried. -/
theorem updateAddress_moved {c : Config} {n m : Node} (hu : updateAddress c n = some m) :
    m.name = n.name ∧ m.cannotClaim = n.cannotClaim ∧ (n.addr.toNat ≤ 253 → m.addr ≠ n.addr) := by
  obtain ⟨-, j, hj, a, rfl, -, -, rfl⟩ := updateAddress_some hu
  refine ⟨mark_name .., mark_cannotClaim .., fun hle heq => ?_⟩
  have hnat := congrArg BitVec.toNat heq
  simp only [mark_addr, BitVec.toNat_ofNat] at hnat
  omega

@[simp] theorem clearTable_addr (n : Node) : (clearTable n).addr = n.addr := by rw [clearTable]
@[simp] theorem clearTable_name (n : Node) : (clearTable n).name = n.name := by rw [clearTable]
@[simp] theorem clearTable_cannotClaim (n : Node) : (clearTable n).cannotClaim = n.cannotClaim := by rw [clearTable]

theorem clearTable_getElem (n : Node) {a : Nat} (ha : a < 254) :
    (clearTable n).acTable[a] = decide (a = n.addr.toNat) := by
  have hocc : (clearTable n).occupied a = decide (n.addr.toNat = a) := selfOnly_occupied rfl ha
  simpa only [Node.occupied_eq ha, eq_comm] using hocc

/-! ### The gate (41_dispatcher.md R175) -/

theorem txBarred_of_hears {s : State} {n : Node} {dst : Byte} (hd : Hears s n dst) (hcc : n.cannotClaim = false) :
    txBarred s.cfg n = false := by
  rw [txBarred, hd.1, hcc]
  rfl

/-- `SendClaim` behind an open gate. -/
theorem sendClaim_unbarred {c : Config} {r : NodeRun} (hopen : txBarred c r.node = false) : sendClaim c r =
    { node := r.node, out := r.out ++ [.txFrame (encodeTx (.addressClaimed r.node.addr r.node.name))],
      draws := r.draws + 1 } := by
  simp [sendClaim_eq, gatedFrame, gatedDraws, hopen]

/-! ### The claim handler, one equation per branch (R194) -/

section Branches
variable {c : Config} {their : Name64} {r : NodeRun}

/-- A Cannot-Claim node ignores claims (R201). -/
theorem acOnClaim_cannotClaim (hcc : r.node.cannotClaim = true) (src : Byte) : acOnClaim c src their r = r := by
  rw [acOnClaim, if_pos hcc]

/-- The handler's last statement, by the claims' name for it. -/
theorem setNode_markSource (c : Config) (src : Byte) (r : NodeRun) : r.setNode (markSource c src r.node) =
    if src.toNat < acTableSize then r.setNode (mark c src.toNat r.node) else r := by
  unfold markSource
  split <;> rfl

/-- A Claimed node only marks another source. -/
theorem acOnClaim_other {src : Byte} (hcc : r.node.cannotClaim = false) (hs : src ≠ r.node.addr) :
    acOnClaim c src their r = r.setNode (markSource c src r.node) := by
  rw [acOnClaim, if_neg (by simp [hcc]), if_neg hs, setNode_markSource]

/-- A Claimed node contends for its own address, then marks the source. -/
theorem acOnClaim_own {src : Byte} (hcc : r.node.cannotClaim = false) (hs : src = r.node.addr) :
    acOnClaim c src their r = (contend c their r).setNode (markSource c src (contend c their r).node) := by
  rw [acOnClaim, if_neg (by simp [hcc]), if_pos hs, setNode_markSource]

theorem contend_kept (hn : r.node.name.toNat ≤ their.toNat) : contend c their r = sendClaim c r := by
  rw [contend, if_neg (Nat.not_lt.2 hn)]

theorem contend_moves {m : Node} (hn : their.toNat < r.node.name.toNat)
    (hu : updateAddress c r.node.closed = some m) : contend c their r = sendClaim c (r.setNode m) := by
  rw [contend, if_pos hn]
  simp only [NodeRun.close_node, hu]
  rfl

theorem contend_cannotClaim (hn : their.toNat < r.node.name.toNat) (hu : updateAddress c r.node.closed = none) :
    contend c their r = enterCannotClaim r.close := by
  rw [contend, if_pos hn]
  simp only [NodeRun.close_node, hu]

end Branches

/-! ### What the row ADDRESS_CLAIMED leaves -/

section Heard
variable {s : State} {h : Nat} {n : Node} {r : Routing} {name : Name64} (hl : Live s h n) (hd : Hears s n r.dst)
include hl hd

/-- A node that hears a claim runs the handler. -/
theorem exec_addressClaimed : exec (.addressClaimed h r name) s =
    .next (s.finish h (acOnClaim s.cfg r.src name { node := n, out := [], draws := s.txDraws }) .ok) := by
  rw [exec, execAddressClaimed]
  exact receive_ok hl hd rfl

theorem exec_requestAc (extra : List Byte) : exec (.requestAc h r extra) s =
    .next (s.finish h (acOnRequest s.cfg { node := n, out := [], draws := s.txDraws }) .ok) := by
  rw [exec, execRequestAc]
  exact receive_ok hl hd rfl

theorem exec_addressClaimed_cannotClaim (hcc : n.cannotClaim = true) :
    exec (.addressClaimed h r name) s = .next (s.unmoved .ok) := by
  rw [exec_addressClaimed hl hd, acOnClaim_cannotClaim hcc, ← State.ends_eq, State.ends_self hl]

theorem exec_requestAc_cannotClaim (hcc : n.cannotClaim = true) (extra : List Byte) :
    exec (.requestAc h r extra) s = .next (s.unmoved .ok) := by
  rw [exec_requestAc hl hd, acOnRequest, if_pos hcc, ← State.ends_eq, State.ends_self hl]

section Claimed
variable (hcc : n.cannotClaim = false)
include hcc

/-- A Request clears the table and repeats the claim (R199). -/
theorem exec_requestAc_claimed (extra : List Byte) : exec (.requestAc h r extra) s =
    .next (s.ends h (clearTable n) [.txFrame (encodeTx (.addressClaimed n.addr n.name))] (s.txDraws + 1) .ok) := by
  have hopen : txBarred s.cfg (clearTable n) = false :=
    (txBarred_setNode s.cfg (clearTable_cannotClaim n)).trans (txBarred_of_hears hd hcc)
  rw [exec_requestAc hl hd, acOnRequest, if_neg (by simp [hcc]),
    sendClaim_unbarred hopen, State.ends_eq]
  simp

theorem exec_addressClaimed_other (hs : r.src ≠ n.addr) : exec (.addressClaimed h r name) s =
    .next (s.ends h (markSource s.cfg r.src n) [] s.txDraws .ok) := by
  rw [exec_addressClaimed hl hd, acOnClaim_other hcc hs]
  rfl

variable (hs : r.src = n.addr)
include hs

/-- A claim of our own address: the contention, then the mark of the source. -/
theorem exec_addressClaimed_own {r' : NodeRun}
    (hr : contend s.cfg name { node := n, out := [], draws := s.txDraws } = r') :
    exec (.addressClaimed h r name) s =
      .next (s.ends h (markSource s.cfg r.src r'.node) r'.out r'.draws .ok) := by
  rw [exec_addressClaimed hl hd, acOnClaim_own hcc hs, hr]
  rfl

/-- The NAME is not lower: the address is kept and claimed again (R195). -/
theorem exec_addressClaimed_kept (hn : n.name.toNat ≤ name.toNat) : exec (.addressClaimed h r name) s =
    .next (s.ends h (markSource s.cfg r.src n) [.txFrame (encodeTx (.addressClaimed n.addr n.name))]
      (s.txDraws + 1) .ok) :=
  exec_addressClaimed_own hl hd hcc hs
    ((contend_kept hn).trans (sendClaim_unbarred (txBarred_of_hears hd hcc)))

variable (hn : name.toNat < n.name.toNat)
include hn

/-- The NAME is lower and an address is found: the node has it and claims it (R197). -/
theorem exec_addressClaimed_moves {m : Node} (hu : updateAddress s.cfg n.closed = some m) :
    exec (.addressClaimed h r name) s =
      .next (s.ends h (markSource s.cfg r.src m) [.txFrame (encodeTx (.addressClaimed m.addr n.name))]
        (s.txDraws + 1) .ok) := by
  obtain ⟨hname, hflag, -⟩ := updateAddress_moved hu
  have hopen : txBarred s.cfg m = false := (txBarred_setNode s.cfg hflag).trans (txBarred_of_hears hd hcc)
  rw [show n.name = m.name from hname.symm]
  exact exec_addressClaimed_own hl hd hcc hs ((contend_moves hn hu).trans (sendClaim_unbarred hopen))

/-- The NAME is lower and none is found: Cannot-Claim (R198). -/
theorem exec_addressClaimed_lost (hu : updateAddress s.cfg n.closed = none) :
    exec (.addressClaimed h r name) s =
      .next (s.ends h (markSource s.cfg r.src { n.closed with addr := 254#8, cannotClaim := true })
        [.txFrame (encodeTx (.cannotClaimAddress n.name))] (s.txDraws + 1) .ok) :=
  exec_addressClaimed_own hl hd hcc hs ((contend_cannotClaim hn hu).trans (enterCannotClaim_eq _))

end Claimed

end Heard

/-- Settles O18. -/
theorem claimFromAnotherAddress : Obligations.ClaimFromAnotherAddress :=
  fun _ _ _ _ _ hl hd hcc hs => exec_addressClaimed_other hl hd hcc hs

/-- Settles O19. -/
theorem contentionKept : Obligations.ContentionKept :=
  fun _ _ _ _ _ hl hd hcc hs hn => exec_addressClaimed_kept hl hd hcc hs hn

/-- Settles O20: the closed record has the table and the address of the open one, so UpdateAddress finds the same
candidate in it; a candidate is below 254, so as a byte it is the same number. -/
theorem contentionLostMoves : Obligations.ContentionLostMoves := by
  intro s h n r name j hl hd hcc hs hn hfree hj hj_free hbefore a
  have hu : updateAddress s.cfg n.closed = _ := updateAddress_first (n := n.closed) hfree hj hj_free hbefore
  have ha : a.toNat = (n.addr.toNat + 1 + j) % 254 := by
    simp only [a, BitVec.toNat_ofNat]
    omega
  rw [exec_addressClaimed_moves hl hd hcc hs hn hu, ha, mark_addr]
  rfl

/-- Settles O21: the search fails on the closed record as on the open one. -/
theorem contentionLostCannotClaim : Obligations.ContentionLostCannotClaim :=
  fun _ _ n _ _ hl hd hcc hs hn hnone =>
    exec_addressClaimed_lost hl hd hcc hs hn (updateAddress_eq_none_iff (n := n.closed).2 hnone)

@[simp] theorem markSource_addr (c : Config) (src : Byte) (n : Node) : (markSource c src n).addr = n.addr := by
  unfold markSource
  split
  · exact mark_addr ..
  · rfl

/-- Settles O22: the NAME is not lower and the address stays, or it is lower and UpdateAddress answers; either answer
leaves the old address, for one found is another and the null address is no Claimed node's. -/
theorem arbitrationLaw : Obligations.ArbitrationLaw := by
  intro s t h n n' r name hl hd hcc hle hs he hl'
  -- the state a branch leaves is `t`, and its record is `n'`
  have left : ∀ {m : Node} {evs : List OutEvent}, exec (.addressClaimed h r name) s =
      .next (s.ends h (markSource s.cfg r.src m) evs (s.txDraws + 1) .ok) →
      n' = markSource s.cfg r.src m ∧ t.outputs = evs := by
    intro m evs hm
    cases he.symm.trans hm
    exact ⟨hl'.unique (hl.ends ..), rfl⟩
  have kept := fun hn => left (exec_addressClaimed_kept (name := name) hl hd hcc hs hn)
  have moves := fun hn m hu => left (exec_addressClaimed_moves (name := name) (m := m) hl hd hcc hs hn hu)
  have lost := fun hn hu => left (exec_addressClaimed_lost (name := name) hl hd hcc hs hn hu)
  refine ⟨⟨fun hkept => ?_, fun hn => by rw [(kept hn).1, markSource_addr]⟩, kept, moves, lost⟩
  by_contra hn
  have hn := Nat.not_le.1 hn
  cases hu : updateAddress s.cfg n.closed with
  | some m =>
    obtain ⟨-, -, hmoved⟩ := updateAddress_moved hu
    rw [(moves hn m hu).1, markSource_addr] at hkept
    exact hmoved hle hkept
  | none =>
    rw [(lost hn hu).1, markSource_addr] at hkept
    have hnull : n.addr = 254#8 := hkept.symm
    rw [hnull] at hle
    exact absurd hle (by decide)

/-- Settles O23: the handler's two branches, and the cleared table entry by entry. -/
theorem requestReannounces : Obligations.RequestReannounces :=
  fun _ _ n _ extra hl hd => ⟨fun hcc => exec_requestAc_cannotClaim hl hd hcc extra,
    fun hcc => ⟨(clearTable n).acTable, fun _ ha => clearTable_getElem n ha, exec_requestAc_claimed hl hd hcc extra⟩⟩

/-- Settles O25: the two actions of the engine on the node's own run. -/
theorem txClaimRowsSend : Obligations.TxClaimRowsSend := by
  intro s h n hl
  constructor
  · rw [exec, execTxAddressClaimed, State.ends_eq]
    exact onNode_ok hl (by rw [sendClaim_eq]; rfl)
  · rw [exec, execTxCannotClaimAddress, State.ends_eq]
    exact onNode_ok hl (by rw [enterCannotClaim_eq]; rfl)

/-! ### What an operation of the host leaves of a node in use -/

/-- INIT writes the first record not in use. -/
theorem Live.registered {s : State} {h : Nat} {n : Node} (hl : Live s h n) (r : NodeRun) :
    Live (s.registered r) h n :=
  ⟨Nat.lt_succ_of_lt hl.1, by rw [State.registered_nodes, List.getElem?_set_ne (Nat.ne_of_gt hl.1), hl.2]⟩

/-- An operation other than RESET leaves a node in use as it is, handing out nothing if it is the operation's own, or
has run on it. -/
theorem hostOp_live_cases {s t : State} {h : Nat} {n : Node} {op : HostOp} (hl : Live s h n) (hop : op ≠ .reset)
    (ho : exec op.toInstr s = .next t) :
    (Live t h n ∧ (actingNode op.toInstr = some h → t.outputs = [])) ∨
    ∃ r, Live t h r.node ∧ t.outputs = r.out ∧ Emission s.cfg n s.txDraws (SentBy s.cfg op n) r := by
  obtain ⟨rfl, -⟩ | ⟨st, rfl⟩ | ⟨k, n₀, r, st, ha, hk, rfl, hem⟩ | ⟨name, pref, tick, old, rfl, -, rfl⟩ :=
    hostOp_cases ho
  · exact absurd rfl hop
  · exact .inl ⟨hl, fun _ => rfl⟩
  · have hlive := hk.finish hl r st
    by_cases hkh : h = k
    · subst hkh
      rw [if_pos rfl] at hlive
      exact .inr ⟨r, hlive, rfl, hl.unique hk ▸ hem⟩
    · rw [if_neg hkh] at hlive
      exact .inl ⟨hlive, fun hh => absurd (Option.some.inj (hh.symm.trans ha)) hkh⟩
  · exact .inl ⟨hl.registered _, nofun⟩

/-- Settles O57: a run on a node keeps its NAME and tick period. -/
theorem nameIsImmutable : Obligations.NameIsImmutable := by
  intro s t h n op hl hop ho
  obtain ⟨hl', -⟩ | ⟨r, hl', -, hem⟩ := hostOp_live_cases hl hop ho
  · exact ⟨n, hl', rfl, rfl⟩
  · exact ⟨r.node, hl', hem.ident⟩

/-- Settles O24: the handlers ignore their frames, and a run on a node whose gate its own flag shuts hands out no frame
and keeps the flag with the address, table and counter. -/
theorem cannotClaimIsTerminal : Obligations.CannotClaimIsTerminal := by
  refine ⟨fun s h n r hl hd hcc => ⟨fun name => exec_addressClaimed_cannotClaim hl hd hcc,
    exec_requestAc_cannotClaim hl hd hcc⟩, fun s t h n op hl hcc hop ho => ?_⟩
  obtain ⟨hl', hout⟩ | ⟨r, hl', hout, hem⟩ := hostOp_live_cases hl hop ho
  · exact ⟨⟨n, hl', hcc, rfl, rfl, rfl⟩, fun ha => by simp [hout ha]⟩
  · obtain ⟨hquiet, hflag, hclaim⟩ := hem.barred (by rw [txBarred, hcc, Bool.or_true])
    exact ⟨⟨r.node, hl', hflag.trans hcc, hclaim hcc⟩, fun _ => hout ▸ hquiet⟩

end Sys2Proof.Machine
end

section
/-! That the block never stops (43_transport_protocol.md R282, 60_exceptions.md R320): from a state in form every
operation of the host answers, so a step can only refuse what is no operation. -/

namespace Sys2Proof.Machine

/-- The only operation that is none of the block's is an RXFRAME of no CAN frame (log entry 14). -/
theorem illFormed_hostOp {c : Config} {op : HostOp} (hw : WellFormed c op.toInstr = false) :
    ∃ h f, op = .rxframe h f ∧ 8 < f.data.length := by
  cases op with
  | rxframe h f => exact ⟨h, f, rfl, by simpa [HostOp.toInstr, WellFormed] using hw⟩
  | reset => cases hw
  | init => cases hw
  | tick => cases hw
  | send => cases hw

/-- In form a step answers a next state, or refuses a frame of more than eight bytes. -/
theorem step_of_stateInv {s : State} (hi : StateInv s) :
    (∃ t, step s = .next t) ∨ (step s = .refused .notAnOperation ∧
      ∃ h f rest, s.pending = .rxframe h f :: rest ∧ 8 < f.data.length) := by
  cases hp : s.pending with
  | nil => exact .inl ⟨s, step_idle hp⟩
  | cons op rest =>
    cases hw : WellFormed s.cfg op.toInstr with
    | true =>
      obtain ⟨t, ht, -⟩ := exec_hostOp_stateInv (hi.withPending rest) op
      exact .inl ⟨t, (step_wellFormed hp hw).trans ht⟩
    | false =>
      obtain ⟨h, f, rfl, hlen⟩ := illFormed_hostOp hw
      exact .inr ⟨step_illFormed hp hw, h, f, rest, rfl, hlen⟩

/-- Settles O54: every operation ends well in form, and a step is one operation or a refusal. -/
theorem everyOperationCompletes : Obligations.EveryOperationCompletes := by
  refine fun s hi => ⟨fun op => (exec_hostOp_stateInv hi op).imp fun _ ht => ht.1, fun why hs => ?_, fun why hs => ?_⟩
  · obtain ⟨t, ht⟩ | ⟨ht, -⟩ := step_of_stateInv hi <;> cases ht.symm.trans hs
  · obtain ⟨t, ht⟩ | ⟨-, hframe⟩ := step_of_stateInv hi
    · cases ht.symm.trans hs
    · exact hframe

end Sys2Proof.Machine
end

section
/-! The statements on data transfer (43_transport_protocol.md R235, R280 to R282): a data frame is accepted, out of
sequence, or of no reception; an accepted packet lands at its offset; and the packets of a payload, accepted one after
another, rebuild it (`Receiving` is the invariant of that induction). -/

namespace Sys2Proof.Machine

/-! ### `TP_OnDT`, one equation per branch (R280) -/

section OnDt
variable {c : Config} {run : NodeRun} {seq : Byte} {chunk : List Byte}

/-- No connection, a sender, or nothing left to receive. -/
theorem onDt_discard (hno : run.node.tpKind = .none ∨ run.node.tpRole = .sender ∨ run.node.tpRem = 0) :
    ∃ why, onDt seq chunk c run = .error (.discard why) := by
  unfold onDt
  split
  case isTrue => exact ⟨_, rfl⟩
  case isFalse hk =>
  split
  case isTrue => exact ⟨_, rfl⟩
  case isFalse hrole =>
  obtain hno | hno | hno := hno
  · exact absurd hno hk
  · exact absurd (by rw [hno]; decide) hrole
  · exact ⟨_, if_pos hno⟩

section Expecting
variable (hk : run.node.tpKind ≠ .none) (hrole : run.node.tpRole = .receiver) (hrem : 0 < run.node.tpRem)
include hk hrole hrem

theorem onDt_mismatch (hq : seq ≠ run.node.tpSeq) : onDt seq chunk c run = onSeqMismatch c run := by
  rw [onDt, if_neg hk, if_neg (not_not.2 hrole), if_neg (Nat.ne_of_gt hrem), if_pos hq]

theorem onDt_expected (hfit : PacketFits run.node) : onDt run.node.tpSeq chunk c run =
    .ok (run.setNode (run.node.accepted run.node.tpSeq chunk)) := by
  have htake := List.length_take_le (min 7 run.node.tpRem) chunk
  rw [onDt, if_neg hk, if_neg (not_not.2 hrole), if_neg (Nat.ne_of_gt hrem), if_neg (not_not.2 rfl),
    accept_ok hfit.1 (by have := hfit.2; omega)]

end Expecting

end OnDt

/-! ### A sequence mismatch, one equation per branch (R281) -/

section Mismatch
variable {c : Config} {run : NodeRun}

theorem onSeqMismatch_ignores (hoff : c.dtSeqMismatchAborts = false) :
    onSeqMismatch c run = .error (.discard .seqMismatch) := by
  rw [onSeqMismatch, if_neg (by simp [hoff])]

section Aborts
variable (hon : c.dtSeqMismatchAborts ≠ false)
include hon

theorem onSeqMismatch_aborts (hk : run.node.tpKind = .p2p) : onSeqMismatch c run =
    .ok { node := run.node.closed
          out := run.out ++ gatedFrame c run.node (abortForm run.node c.abortReasonTimeout)
          draws := run.draws + gatedDraws c run.node } := by
  rw [onSeqMismatch, if_pos (by simpa using hon), if_pos hk, tpAbort_eq]

theorem onSeqMismatch_closes (hk : run.node.tpKind ≠ .p2p) : onSeqMismatch c run = .ok run.close := by
  rw [onSeqMismatch, if_pos (by simpa using hon), if_neg hk]

end Aborts

end Mismatch

/-! ### The row TP_DT at a node that hears it -/

/-- The expected packet is accepted, and nothing is emitted. -/
theorem exec_tpDt_expected {s : State} {h : Nat} {n : Node} {r : Routing} {chunk : List Byte} (hl : Live s h n)
    (hd : Hears s n r.dst) (hk : n.tpKind ≠ .none) (hrole : n.tpRole = .receiver) (hrem : 0 < n.tpRem)
    (hfit : PacketFits n) :
    exec (.tpDt h r n.tpSeq chunk) s = .next (s.ends h (n.accepted n.tpSeq chunk) [] s.txDraws .ok) :=
  receive_ok hl hd (onDt_expected (run := { node := n, out := [], draws := s.txDraws }) hk hrole hrem hfit)

/-- The buffer after an accepted packet: its bytes at its offset, none past the message (R235). -/
theorem read_accepted {n : Node} (hw : n.tpBuf.wf = true) (seq : Byte) {chunk : List Byte} (hc : chunk.length = 7)
    (k : Nat) : (n.accepted seq chunk).tpBuf.read k =
      if (seq.toNat - 1) * 7 ≤ k ∧ k < (seq.toNat - 1) * 7 + min 7 n.tpRem then
        chunk.getD (k - (seq.toNat - 1) * 7) 0#8
      else n.tpBuf.read k := by
  have hlen : (chunk.take (min 7 n.tpRem)).length = min 7 n.tpRem := by rw [List.length_take]; omega
  rw [Node.accepted, Memory.read_writeAll hw, hlen]
  split
  case isTrue hin =>
    rw [List.getD_eq_getElem?_getD, List.getElem?_take_of_lt (by omega), ← List.getD_eq_getElem?_getD, unlistedByte]
  case isFalse => rfl

/-- Settles O32: the accepted record, its buffer read byte by byte. -/
theorem dataFrameAccepted : Obligations.DataFrameAccepted := by
  rintro s h n r seq chunk hl hd hk hrole hrem rfl hc hfit hw
  exact ⟨_, Memory.writeAll_wf _ _ hw, read_accepted hw _ hc, exec_tpDt_expected hl hd hk hrole hrem hfit⟩

/-- Settles O33: the discards of R280, and the three ends of a mismatch (R281). -/
theorem dataFrameNotAccepted : Obligations.DataFrameNotAccepted := by
  intro s h n r seq chunk hl hd
  rw [exec, execTpDt]
  refine ⟨fun hno => ?_, fun hk hrole hrem hq => ?_⟩
  · obtain ⟨why, hwhy⟩ := onDt_discard (run := { node := n, out := [], draws := s.txDraws }) hno
    exact receive_discard hl hd hwhy
  have hmismatch := onDt_mismatch (c := s.cfg) (run := { node := n, out := [], draws := s.txDraws })
    (chunk := chunk) hk hrole hrem hq
  split
  case isTrue hoff => exact receive_discard hl hd (hmismatch.trans (onSeqMismatch_ignores hoff))
  case isFalse hon =>
  split
  case isTrue hp2p => exact receive_ok hl hd (hmismatch.trans (onSeqMismatch_aborts hon hp2p))
  case isFalse hbam => exact receive_ok hl hd (hmismatch.trans (onSeqMismatch_closes hon hbam))

/-- Settles O34: `7 (tp_seq - 1)` bytes are behind the packet and at least one is left (I5). -/
theorem packetsStayInTheBuffer : Obligations.PacketsStayInTheBuffer := by
  intro n hi hk hrem
  obtain ⟨-, hbehind⟩ := hi.seq_rem hk hrem
  obtain ⟨-, hmax⟩ := hi.rem_le hk
  have hlen : tpMaxLen = 1785 := rfl
  exact ⟨hi.packet hk hrem, by omega, by omega, by omega⟩

/-! ### A payload as padded packets (R103) -/

theorem packetBytes_length (data : List Byte) (k : Nat) : (packetBytes data k).length = 7 := by
  simp only [packetBytes, List.length_append, List.length_replicate, List.length_take]
  omega

/-- A byte of packet `k + 1` that is no padding. -/
theorem packetBytes_getD {data : List Byte} {k j : Nat} (hj : j < 7) (hin : 7 * k + j < data.length) :
    (packetBytes data k).getD j 0#8 = data.getD (7 * k + j) 0#8 := by
  have hlt : j < ((data.drop (7 * k)).take 7).length := by
    rw [List.length_take, List.length_drop]
    omega
  simp only [packetBytes, List.getD_eq_getElem?_getD, List.getElem?_append_left hlt, List.getElem?_take_of_lt hj,
    List.getElem?_drop]

/-! ### The packets of a payload, one after another -/

/-- A reception of `data` with its first `k` packets accepted. -/
structure Receiving (n : Node) (data : List Byte) (k : Nat) : Prop where
  connected : n.tpKind ≠ .none
  role : n.tpRole = .receiver
  seq : n.tpSeq = BitVec.ofNat 8 (k + 1)
  rem : n.tpRem = data.length - 7 * k
  canonical : n.tpBuf.wf = true
  stored : ∀ j, j < 7 * k → j < data.length → n.tpBuf.read j = data.getD j 0#8

section Receiving
variable {n : Node} {data : List Byte} {k : Nat} (hrec : Receiving n data k) (hmore : 7 * k < data.length)
  (hmax : data.length ≤ 1785)
include hrec hmore hmax

theorem Receiving.seq_toNat : n.tpSeq.toNat = k + 1 := by
  rw [hrec.seq, BitVec.toNat_ofNat]
  omega

theorem Receiving.fits : PacketFits n := by
  have hseq := hrec.seq_toNat hmore hmax
  refine ⟨fun h0 => ?_, ?_⟩
  · rw [h0] at hseq
    simp at hseq
  · rw [hseq, hrec.rem, tpMaxLen]
    omega

/-- One more packet: its bytes are the payload's next ones, and the others stay. -/
theorem Receiving.accepted : Receiving (n.accepted n.tpSeq (packetBytes data k)) data (k + 1) where
  connected := hrec.connected
  role := hrec.role
  seq := by rw [Node.accepted, hrec.seq, ← BitVec.ofNat_add]
  rem := by rw [show (n.accepted _ _).tpRem = n.tpRem - min 7 n.tpRem from rfl, hrec.rem]; omega
  canonical := Memory.writeAll_wf _ _ hrec.canonical
  stored j hj hin := by
    rw [read_accepted hrec.canonical _ (packetBytes_length data k), hrec.seq_toNat hmore hmax, hrec.rem,
      Nat.add_sub_cancel, Nat.mul_comm k 7]
    split
    case isTrue hnew =>
      rw [packetBytes_getD (by omega) (by omega), Nat.add_sub_cancel' hnew.1]
    case isFalse hold => exact hrec.stored j (by omega) hin

end Receiving

/-- The rows of the first `k` packets of `data`. -/
def packetRows (h : Nat) (r : Routing) (data : List Byte) (k : Nat) : List Instr :=
  (List.range k).map fun k => Instr.tpDt h r (BitVec.ofNat 8 (k + 1)) (packetBytes data k)

theorem packetRows_succ (h : Nat) (r : Routing) (data : List Byte) (k : Nat) : packetRows h r data (k + 1) =
    packetRows h r data k ++ [.tpDt h r (BitVec.ofNat 8 (k + 1)) (packetBytes data k)] := by
  rw [packetRows, List.range_succ, List.map_append]
  rfl

/-- One instruction as a sequence. -/
theorem execAll_singleton (i : Instr) (s : State) : execAll [i] s = exec i s := by
  rw [execAll]
  cases exec i s <;> rfl

/-- The first `k` packets run to their end and leave a reception with `k` packets accepted. -/
theorem execAll_packetRows {s : State} {h : Nat} {n : Node} {r : Routing} {data : List Byte} (hl : Live s h n)
    (hd : Hears s n r.dst) (hstart : Receiving n data 0) (hmax : data.length ≤ 1785) (k : Nat)
    (hk : k ≤ packetCount data.length) :
    ∃ t n', execAll (packetRows h r data k) s = .next t ∧ Live t h n' ∧ Hears t n' r.dst ∧ Receiving n' data k := by
  induction k with
  | zero => exact ⟨s, n, rfl, hl, hd, hstart⟩
  | succ k ih =>
    obtain ⟨t, n', hrun, hl', hd', hrec⟩ := ih (by omega)
    have hmore : 7 * k < data.length := by rw [packetCount] at hk; omega
    have hstep := exec_tpDt_expected (chunk := packetBytes data k) hl' hd' hrec.connected hrec.role
      (by rw [hrec.rem]; omega) (hrec.fits hmore hmax)
    rw [packetRows_succ, execAll_append hrun, ← hrec.seq, execAll_singleton]
    exact ⟨_, _, hstep, hl'.ends _ _ _ _, hd', hrec.accepted hmore hmax⟩

/-- With every packet accepted the buffer holds the payload. -/
theorem Receiving.complete {n : Node} {data : List Byte} (hrec : Receiving n data (packetCount data.length)) :
    n.tpRem = 0 ∧ bufBytes n 0 data.length = data := by
  have hall : data.length ≤ 7 * packetCount data.length := by rw [packetCount]; omega
  refine ⟨by rw [hrec.rem]; omega, List.ext_getElem (by simp [bufBytes]) fun j _ hj => ?_⟩
  simp only [bufBytes, List.getElem_map, List.getElem_range, Nat.zero_add]
  rw [hrec.stored j (by omega) hj, List.getD_eq_getElem _ _ hj]

/-- Settles O35, by induction on the packets: `Receiving` holds before the first and is kept by each. -/
theorem segmentationRoundTrip : Obligations.SegmentationRoundTrip := by
  intro s h n r data hl hd hk hrole hseq hrem _ _ hmax hw
  have hstart : Receiving n data 0 := ⟨hk, hrole, hseq, hrem, hw, fun j hj => absurd hj (Nat.not_lt_zero j)⟩
  obtain ⟨t, n', hrun, hl', -, hrec⟩ := execAll_packetRows hl hd hstart hmax _ (Nat.le_refl _)
  exact ⟨t, n', hrun, hl', hrec.complete⟩

end Sys2Proof.Machine
end

section
/-! The statements on the TP.CM rows (43_transport_protocol.md R270 to R277). RTS and BAM are one handler, `onOpen`; CTS,
EOMA and ABORT change the node on a condition and ignore the frame otherwise. -/

namespace Sys2Proof.Machine

/-! ### `onOpen`, one equation per branch -/

section OnOpen
variable {kind : TpKind} {src dst : Byte} {len : BitVec 16} {npkt : Byte} {pgn : Pgn} {c : Config} {run : NodeRun}

theorem onOpen_busy (hk : run.node.tpKind ≠ .none) : onOpen kind src dst len npkt pgn c run =
    .ok { node := run.node, out := run.out ++ gatedFrame c run.node (.abort src run.node.addr c.abortReasonBusy pgn),
          draws := run.draws + gatedDraws c run.node } := by
  rw [onOpen, if_pos hk, tpBusyAbort_eq]

section Idle
variable (hk : run.node.tpKind = .none)
include hk

theorem onOpen_tooLong (hlen : 1785 < len.toNat) :
    onOpen kind src dst len npkt pgn c run = .error (.discard .badLength) := by
  rw [onOpen, if_neg (not_not.2 hk)]
  exact if_pos hlen

theorem onOpen_opens (hlen : len.toNat ≤ 1785) : onOpen kind src dst len npkt pgn c run =
    .ok (run.setNode (openedNode run.node kind src dst len npkt pgn)) := by
  rw [onOpen, if_neg (not_not.2 hk)]
  exact if_neg (Nat.not_lt.2 hlen)

end Idle

end OnOpen

/-! ### The rows at a node that hears them -/

section Heard
variable {s : State} {h : Nat} {n : Node} {m : Message} (hl : Live s h n) (hd : Hears s n m.dst)
include hl hd

/-- RTS and BAM: busy, over-length, or opened, in this order (R272, R274, R276). -/
theorem receive_onOpen (kind : TpKind) (src dst : Byte) (len : BitVec 16) (npkt : Byte) (pgn : Pgn) :
    receive h m (onOpen kind src dst len npkt pgn) s =
      if n.tpKind ≠ .none then
        .next (s.ends h n (gatedFrame s.cfg n (.abort src n.addr s.cfg.abortReasonBusy pgn))
          (s.txDraws + gatedDraws s.cfg n) .ok)
      else if 1785 < len.toNat then .next (s.unmoved .ok)
      else .next (s.ends h (openedNode n kind src dst len npkt pgn) [] s.txDraws .ok) := by
  split
  case isTrue hbusy => exact receive_ok hl hd (onOpen_busy hbusy)
  case isFalse hidle =>
  have hidle := not_not.1 hidle
  split
  case isTrue hlong => exact receive_discard hl hd (onOpen_tooLong hidle hlong)
  case isFalse hfits => exact receive_ok hl hd (onOpen_opens hidle (Nat.not_lt.1 hfits))

/-- A handler that changes the record on a condition and ignores the frame otherwise. -/
theorem receive_ite {k : Config → NodeRun → Except Stop NodeRun} {n' : Node} {p : Prop} {_ : Decidable p}
    (hk : k s.cfg { node := n, out := [], draws := s.txDraws } =
      .ok (if p then { node := n', out := [], draws := s.txDraws } else { node := n, out := [], draws := s.txDraws })) :
    receive h m k s = if p then .next (s.ends h n' [] s.txDraws .ok) else .next (s.unmoved .ok) := by
  split
  case isTrue hp => exact receive_ok hl hd (hk.trans (by rw [if_pos hp]))
  case isFalse hp => exact receive_unmoved (why := .badLength) hl hd (.inl (hk.trans (by rw [if_neg hp])))

end Heard

/-- Settles O26. -/
theorem rtsReceived : Obligations.RtsReceived :=
  fun _ _ _ r len npkt _ pgn hl hd => receive_onOpen hl hd .p2p r.src r.dst len npkt pgn

/-- Settles O27: the destination of the reception is the global address, whatever the frame's (R274). -/
theorem bamReceived : Obligations.BamReceived :=
  fun _ _ _ r len npkt _ pgn hl hd => receive_onOpen hl hd .bcast r.src addrGlobal len npkt pgn

/-- Settles O28: the record of the run is `onCts` of it, by its two branches. -/
theorem ctsReceived : Obligations.CtsReceived := by
  intro s h n r packets nextSeq res3 res4 pgn hl hd
  rw [exec, execTpCmCts]
  refine receive_ite hl ?_ ?_
  · exact hd
  · exact congrArg Except.ok (apply_ite (NodeRun.setNode _) ..)

/-- Settles O29. -/
theorem eomaReceived : Obligations.EomaReceived := by
  intro s h n r len npkt res4 pgn hl hd
  rw [exec, execTpCmEoma]
  refine receive_ite hl ?_ ?_
  · exact hd
  · rfl

/-- Settles O30. -/
theorem abortReceived : Obligations.AbortReceived := by
  intro s h n r reason res2 res3 res4 pgn hl hd
  rw [exec, execTpCmAbort]
  refine receive_ite hl ?_ ?_
  · exact hd
  · rfl

/-- Settles O31: the row's handler leaves the run as it began, and the frame decodes to the row. -/
theorem otherControlIgnored : Obligations.OtherControlIgnored := by
  intro s h n r control rest hl hd hlen hrts hcts heoma hbam habort
  have hrow : exec (.tpCmOther h r control rest) s = .next (s.unmoved .ok) := by
    rw [exec, execTpCmOther]
    exact receive_unmoved (why := .badLength) hl hd (.inl rfl)
  refine ⟨hrow, fun hreq => (exec_rxframe_of_decode ?_).trans hrow⟩
  have hclass : OfClass (classFrame pgnTpCm r (control :: rest)) pgnTpCm r :=
    ofClass_classFrame (validTuple_own _).1 (by rw [List.length_cons, hlen])
  have hother : isCmControl control = false := by
    simp [isCmControl, ctrlRts, ctrlCts, ctrlEoma, ctrlBam, ctrlAbort, hrts, hcts, heoma, hbam, habort]
  exact (decode_tpCm hclass hreq).trans (decodeCm_other hlen hother)

end Sys2Proof.Machine
end

section
/-! The statements on the transmitted rows of the transport engine (43_transport_protocol.md R232 to R239, R254) and on the
SEND that opens a connection (R234). What SendDT and the delivery answer outside their preconditions is said here once,
by name (log entry 13). -/

namespace Sys2Proof.Machine

/-! ### `SendDT` and the delivery outside their preconditions -/

section Stops
variable {c : Config} {run : NodeRun}

theorem sendDt_noData (hrem : run.node.tpRem = 0) : sendDt c run = .error (.fault .sendWithoutData) := by
  rw [sendDt, if_pos hrem]

section Left
variable (hrem : run.node.tpRem ≠ 0)
include hrem

theorem sendDt_noOffset (hq : run.node.tpSeq = 0#8) : sendDt c run = .error (.fault .noOffset) := by
  rw [sendDt, if_neg hrem, packetOffset, if_pos hq]

theorem sendDt_outside (hq : run.node.tpSeq ≠ 0#8) (hout : ¬ PacketFits run.node) :
    sendDt c run = .error (.fault .bufferRange) := by
  have hread : memRead run.node.tpBuf ((run.node.tpSeq.toNat - 1) * tpChunk) (min tpChunk run.node.tpRem) =
      .error (.fault .bufferRange) := if_neg fun hin => hout ⟨hq, hin⟩
  simp only [sendDt, if_neg hrem, packetOffset_ok hq, hread]

theorem sendDt_fits (hfit : PacketFits run.node) : sendDt c run =
    .ok { node := run.node.sentDt, out := run.out ++ gatedFrame c run.node (dtForm run.node),
          draws := run.draws + gatedDraws c run.node } :=
  sendDt_ok c run (Nat.pos_of_ne_zero hrem) hfit.1 hfit.2

end Left

theorem deliverReassembled_outside (hlen : ¬ run.node.tpLen ≤ 1785) :
    deliverReassembled run = .error (.fault .bufferRange) := by
  have hread : memRead run.node.tpBuf 0 run.node.tpLen = .error (.fault .bufferRange) :=
    if_neg (by rw [Nat.zero_add]; exact hlen)
  rw [deliverReassembled, hread]

theorem sendEoma_outside (hlen : ¬ run.node.tpLen ≤ 1785) : sendEoma c run = .error (.fault .bufferRange) := by
  have hstop : ∀ out draws, deliverReassembled { node := run.node, out := out, draws := draws } =
      .error (.fault .bufferRange) := fun _ _ => deliverReassembled_outside hlen
  simp only [sendEoma, cm_form c run _ _ _ (frame_cm_eoma ..), hstop]

end Stops

/-! ### The transmitted rows -/

/-- Settles O45: the two openers on the node's own run. -/
theorem txOpenersSend : Obligations.TxOpenersSend := by
  intro s h n hl
  constructor
  · rw [exec, execTxTpCmBam, State.ends_eq]
    exact onNode_ok hl (by rw [openBam_eq, openBam_status]; rfl)
  · rw [exec, execTxTpCmRts, State.ends_eq]
    exact onNode_ok hl (by rw [openRts_eq, openRts_status]; rfl)

/-- Settles O46: the CTS branch, and the completion within the buffer and outside it. -/
theorem txReceiverAnswersSend : Obligations.TxReceiverAnswersSend := by
  intro s h n hl
  constructor
  · rw [exec, execTxTpCmCts, State.ends_eq]
    exact onNode_ok hl (by rw [sendCts_eq]; rfl)
  rw [exec, execTxTpCmEoma, State.ends_eq]
  split
  case isTrue hlen => exact onNode_ok hl (by rw [sendEoma_ok _ _ hlen]; rfl)
  case isFalse hlen => exact onNode_fault hl (by rw [sendEoma_outside hlen]; rfl)

/-- Settles O47: `TP_Abort` and `TP_BusyAbort` on the node's own run. -/
theorem txAbortsSend : Obligations.TxAbortsSend := by
  intro s h n hl
  refine ⟨?_, fun dst pgn => ?_⟩
  · rw [exec, execTxTpCmAbortTimeout, State.ends_eq]
    exact onNode_ok hl (by rw [tpAbort_eq]; rfl)
  · rw [exec, execTxTpCmAbortBusy, State.ends_eq]
    exact onNode_ok hl (by rw [tpBusyAbort_eq]; rfl)

/-- Settles O48: SendDT by its preconditions, in their order. -/
theorem txDataSends : Obligations.TxDataSends := by
  intro s h n hl
  rw [exec, execTxTpDt, State.ends_eq]
  split
  case isTrue hrem => exact onNode_fault hl (by rw [sendDt_noData hrem]; rfl)
  case isFalse hrem =>
  split
  case isTrue hq => exact onNode_fault hl (by rw [sendDt_noOffset hrem hq]; rfl)
  case isFalse hq =>
  split
  case isTrue hout =>
    have hout : ¬ PacketFits n := fun hfit => Nat.not_le.2 hout hfit.2
    exact onNode_fault hl (by rw [sendDt_outside hrem hq hout]; rfl)
  case isFalse hin =>
    have hfit : PacketFits n := ⟨hq, Nat.not_lt.1 hin⟩
    exact onNode_ok hl (by rw [sendDt_fits hrem hfit]; rfl)

/-! ### SEND of a long message -/

/-- The buffer TP_Queue leaves: the payload at its start, every other byte as it was (R234). -/
theorem read_queued {m : Memory} (hw : m.wf = true) (data : List Byte) (k : Nat) :
    (m.writeAll 0 data).read k = if k < data.length then data.getD k 0#8 else m.read k := by
  simp only [Memory.read_writeAll hw, Nat.zero_le, true_and, Nat.zero_add, Nat.sub_zero, unlistedByte]

/-- Settles O44: the long branch of SEND is TP_Queue on an idle node, and the gate of R175 is open. -/
theorem sendLongOpensConnection : Obligations.SendLongOpensConnection := by
  intro s h n msg hl hlo hcc hk hlong hmax hw
  refine ⟨n.tpBuf.writeAll 0 msg.data, Memory.writeAll_wf 0 _ hw, read_queued hw msg.data, ?_⟩
  have hopen : txBarred s.cfg n = false := by rw [txBarred, hlo, hcc]; rfl
  have hs := (sendNode_long (r := { node := n, out := [], draws := s.txDraws }) hlo hcc hlong hmax).trans
    (tpQueue_ok (m := { msg with src := n.addr }) hk hmax)
  rw [exec_send_ok hl hs]
  simp only [gatedFrame, gatedDraws, gatedStatus, hopen, Bool.false_eq_true, if_false]
  rfl

end Sys2Proof.Machine
end

section
/-! The statements on TICK (43_transport_protocol.md R250 to R255): one equation per branch of each kind and role's update,
on the run whose timer has moved; what an update leaves in the timer, stops included; and an RTS that is never answered,
by induction on the TICKs. -/

namespace Sys2Proof.Machine

/-! ### The updates, one equation per branch -/

section Updates
variable {c : Config} {run : NodeRun}

theorem tickNode_idle (hk : run.node.tpKind = .none) : tickNode c run = .ok run := if_pos hk

/-! #### The broadcast sender (R251) -/

theorem tickBamTx_finished (hrem : run.node.tpRem = 0) : tickBamTx c run = .ok run.close := by
  rw [tickBamTx, if_neg fun h => Nat.ne_of_gt h.1 hrem, if_pos hrem]

theorem tickBamTx_waits (hrem : run.node.tpRem ≠ 0) (ht : run.node.tpTimer < 50) : tickBamTx c run = .ok run := by
  rw [tickBamTx, if_neg fun h => Nat.not_le.2 ht h.2, if_neg hrem]

/-- The packet goes out, and the connection closes behind the last one. -/
theorem tickBamTx_sends (hrem : run.node.tpRem ≠ 0) (ht : 50 ≤ run.node.tpTimer) (hfit : PacketFits run.node) :
    tickBamTx c run =
      .ok { node := { run.node.sentDt with
                        tpTimer := 0
                        tpKind := if run.node.tpRem ≤ 7 then .none else run.node.tpKind
                        tpCts := if run.node.tpRem ≤ 7 then false else run.node.tpCts }
            out := run.out ++ gatedFrame c run.node (dtForm run.node)
            draws := run.draws + gatedDraws c run.node } := by
  rw [tickBamTx, if_pos ⟨Nat.pos_of_ne_zero hrem, ht⟩, sendDt_fits hrem hfit]
  have hlast : run.node.sentDt.tpRem = 0 ↔ run.node.tpRem ≤ 7 := by simp only [Node.sentDt]; omega
  by_cases h7 : run.node.tpRem ≤ 7
  · simp only [hlast, if_pos h7]; rfl
  · simp only [hlast, if_neg h7]; rfl

/-! #### The broadcast receiver (R252) -/

theorem tickBamRx_finished (hrem : run.node.tpRem = 0) (hlen : run.node.tpLen ≤ 1785) : tickBamRx c run =
    .ok (deliver (reassembledMessage run.node (bufBytes run.node 0 run.node.tpLen)) run).close := by
  rw [tickBamRx, if_pos hrem, deliverReassembled_ok run hlen]

section Left
variable (hrem : run.node.tpRem ≠ 0)
include hrem

theorem tickBamRx_waits (ht : run.node.tpTimer < 1250) : tickBamRx c run = .ok run := by
  rw [tickBamRx, if_neg hrem]
  exact if_neg (Nat.not_le.2 ht)

section TimesOut
variable (ht : 1250 ≤ run.node.tpTimer)
include ht

theorem tickBamRx_closes (hoff : c.bamRxTimeoutSendsAbort = false) : tickBamRx c run = .ok run.close := by
  rw [tickBamRx, if_neg hrem, if_pos (show t1Ms ≤ _ from ht), if_neg (by simp [hoff])]

theorem tickBamRx_aborts (hon : c.bamRxTimeoutSendsAbort ≠ false) : tickBamRx c run =
    .ok { node := run.node.closed
          out := run.out ++ gatedFrame c run.node (abortForm run.node c.abortReasonTimeout)
          draws := run.draws + gatedDraws c run.node } := by
  rw [tickBamRx, if_neg hrem, if_pos (show t1Ms ≤ _ from ht), if_pos (by simpa using hon), tpAbort_eq]

end TimesOut

end Left

/-! #### The peer-to-peer sender (R253) -/

theorem tickP2pTx_uncleared (hcts : run.node.tpCts = false) : tickP2pTx c run =
    .ok (if 200 ≤ run.node.tpTimer then tpAbort c c.abortReasonTimeout run else run) := if_pos hcts

section Cleared
variable (hcts : run.node.tpCts ≠ false)
include hcts

theorem tickP2pTx_finished (hrem : run.node.tpRem = 0) : tickP2pTx c run =
    .ok (if 1250 ≤ run.node.tpTimer then tpAbort c c.abortReasonTimeout run else run) := by
  rw [tickP2pTx, if_neg hcts, if_neg (Nat.not_lt.2 (Nat.le_of_eq hrem))]
  rfl

theorem tickP2pTx_waits (hrem : run.node.tpRem ≠ 0) (ht : run.node.tpTimer < 50) : tickP2pTx c run = .ok run := by
  rw [tickP2pTx, if_neg hcts, if_pos (Nat.pos_of_ne_zero hrem)]
  exact if_neg (Nat.not_le.2 ht)

theorem tickP2pTx_sends (hrem : run.node.tpRem ≠ 0) (ht : 50 ≤ run.node.tpTimer) (hfit : PacketFits run.node) :
    tickP2pTx c run =
      .ok { node := { run.node.sentDt with tpTimer := 0 }
            out := run.out ++ gatedFrame c run.node (dtForm run.node)
            draws := run.draws + gatedDraws c run.node } := by
  rw [tickP2pTx, if_neg hcts, if_pos (Nat.pos_of_ne_zero hrem),
    if_pos (show tPeriodMs ≤ _ from ht), sendDt_fits hrem hfit]
  rfl

end Cleared

/-! #### The peer-to-peer receiver (R254) -/

section Uncleared
variable (hcts : run.node.tpCts = false)
include hcts

theorem tickP2pRx_waits (ht : run.node.tpTimer < 50) : tickP2pRx c run = .ok run := by
  rw [tickP2pRx, if_pos hcts, if_neg (show ¬ tPeriodMs ≤ _ from Nat.not_le.2 ht)]

theorem tickP2pRx_sendsCts (ht : 50 ≤ run.node.tpTimer) : tickP2pRx c run =
    .ok { node := { run.node with tpCts := true, tpTimer := 0 }
          out := run.out ++ gatedFrame c run.node (.cts run.node.tpPeer run.node.addr run.node.tpNpkt run.node.tpPgn)
          draws := run.draws + gatedDraws c run.node } := by
  rw [tickP2pRx, if_pos hcts, if_pos (show tPeriodMs ≤ _ from ht), sendCts_eq]

end Uncleared

section Cleared
variable (hcts : run.node.tpCts ≠ false)
include hcts

theorem tickP2pRx_finished (hrem : run.node.tpRem = 0) : tickP2pRx c run = sendEoma c run := by
  rw [tickP2pRx, if_neg hcts, if_pos hrem]

theorem tickP2pRx_left (hrem : run.node.tpRem ≠ 0) : tickP2pRx c run =
    .ok (if 1250 ≤ run.node.tpTimer then tpAbort c c.abortReasonTimeout run else run) := by
  rw [tickP2pRx, if_neg hcts, if_neg hrem]
  rfl

end Cleared

end Updates

/-! ### TICK of each kind and role -/

/-- An update that only watches a limit: below it the timer has moved and no more, from it on ABORT(Timeout) goes out and
the connection is closed (R237). -/
theorem exec_tick_limit {s : State} {h : Nat} {n : Node} {t limit : Nat} (hl : Live s h n)
    (ht : tickNode s.cfg { node := n, out := [], draws := s.txDraws } =
      .ok (if limit ≤ t then
          tpAbort s.cfg s.cfg.abortReasonTimeout { node := { n with tpTimer := t }, out := [], draws := s.txDraws }
        else { node := { n with tpTimer := t }, out := [], draws := s.txDraws })) :
    exec (.tick h) s =
      if t < limit then .next (s.ends h { n with tpTimer := t } [] s.txDraws .ok)
      else
        .next (s.ends h { n with tpKind := .none, tpCts := false, tpTimer := t }
          (gatedFrame s.cfg n (.abort n.tpPeer n.addr s.cfg.abortReasonTimeout n.tpPgn))
          (s.txDraws + gatedDraws s.cfg n) .ok) := by
  split
  case isTrue hlt =>
    rw [if_neg (Nat.not_le.2 hlt)] at ht
    exact exec_tick_ok hl ht
  case isFalse hge =>
    rw [if_pos (Nat.not_lt.1 hge), tpAbort_eq] at ht
    exact exec_tick_ok hl ht

/-- Settles O37: the three branches of the broadcast sender's update. -/
theorem tickBroadcastSender : Obligations.TickBroadcastSender := by
  intro s h n hl hc hfit t
  split
  case isTrue hrem => exact exec_tick_ok hl ((tickNode_bamTx hc).trans (tickBamTx_finished hrem))
  case isFalse hrem =>
  split
  case isTrue ht => exact exec_tick_ok hl ((tickNode_bamTx hc).trans (tickBamTx_waits hrem ht))
  case isFalse ht =>
    rw [← hc.1]
    exact exec_tick_ok hl ((tickNode_bamTx hc).trans
      (tickBamTx_sends hrem (Nat.not_lt.1 ht) (hfit (Nat.pos_of_ne_zero hrem))))

/-- Settles O38: completion first, then the limit T1, whose end the parameter chooses. -/
theorem tickBroadcastReceiver : Obligations.TickBroadcastReceiver := by
  intro s h n hl hc hlen t closed
  split
  case isTrue hrem => exact exec_tick_ok hl ((tickNode_bamRx hc).trans (tickBamRx_finished hrem hlen))
  case isFalse hrem =>
  split
  case isTrue ht => exact exec_tick_ok hl ((tickNode_bamRx hc).trans (tickBamRx_waits hrem ht))
  case isFalse ht =>
  have ht := Nat.not_lt.1 ht
  split
  case isTrue hoff => exact exec_tick_ok hl ((tickNode_bamRx hc).trans (tickBamRx_closes hrem ht hoff))
  case isFalse hon => exact exec_tick_ok hl ((tickNode_bamRx hc).trans (tickBamRx_aborts hrem ht hon))

/-- Settles O39: the limits TR and T3, and the data period. -/
theorem tickPeerSender : Obligations.TickPeerSender := by
  intro s h n hl hc hfit t waits aborts
  split
  case isTrue hcts => exact exec_tick_limit hl ((tickNode_p2pTx hc).trans (tickP2pTx_uncleared hcts))
  case isFalse hcts =>
  split
  case isTrue hrem => exact exec_tick_limit hl ((tickNode_p2pTx hc).trans (tickP2pTx_finished hcts hrem))
  case isFalse hrem =>
  split
  case isTrue ht => exact exec_tick_ok hl ((tickNode_p2pTx hc).trans (tickP2pTx_waits hcts hrem ht))
  case isFalse ht =>
    exact exec_tick_ok hl ((tickNode_p2pTx hc).trans
      (tickP2pTx_sends hcts hrem (Nat.not_lt.1 ht) (hfit (Nat.pos_of_ne_zero hrem))))

/-- Settles O40: the CTS slot, else completion, else the limit T1. -/
theorem tickPeerReceiver : Obligations.TickPeerReceiver := by
  intro s h n hl hc hlen t closed
  split
  case isTrue hcts =>
    split
    case isTrue ht => exact exec_tick_ok hl ((tickNode_p2pRx hc).trans (tickP2pRx_waits hcts ht))
    case isFalse ht =>
      exact exec_tick_ok hl ((tickNode_p2pRx hc).trans (tickP2pRx_sendsCts hcts (Nat.not_lt.1 ht)))
  case isFalse hcts =>
  split
  case isTrue hrem =>
    exact exec_tick_ok hl ((tickNode_p2pRx hc).trans ((tickP2pRx_finished hcts hrem).trans (sendEoma_ok s.cfg _ hlen)))
  case isFalse hrem => exact exec_tick_limit hl ((tickNode_p2pRx hc).trans (tickP2pRx_left hcts hrem))

/-! ### What TICK leaves in the timer -/

/-- The timer after TICK of a node with a connection: it restarts where a packet or the CTS goes out (R251, R253, R254). -/
def tickedTimer (c : Config) (n : Node) : Nat :=
  if 50 ≤ timerSum c n.tpTimer n.tickMs ∧
      ((n.tpRole = .sender ∧ 0 < n.tpRem ∧ (n.tpKind = .bcast ∨ n.tpCts = true)) ∨
        (n.tpRole = .receiver ∧ n.tpKind = .p2p ∧ n.tpCts = false)) then 0
  else timerSum c n.tpTimer n.tickMs

/-- A run that ends with the timer at `t`, or stops by name; it discards nothing. -/
def LeavesTimer (t : Nat) : Except Stop NodeRun → Prop
  | .ok run => run.node.tpTimer = t
  | .error (.discard _) => False
  | .error (.fault _) => True

section Timer
variable {c : Config} {run : NodeRun}

/-- With bytes left SendDT stops by name, or its packet lies within the buffer. -/
theorem sendDt_fault_or_fits (hrem : run.node.tpRem ≠ 0) :
    (∃ why, sendDt c run = .error (.fault why)) ∨ PacketFits run.node := by
  by_cases hq : run.node.tpSeq = 0#8
  · exact .inl ⟨_, sendDt_noOffset hrem hq⟩
  · by_cases hfit : PacketFits run.node
    · exact .inr hfit
    · exact .inl ⟨_, sendDt_outside hrem hq hfit⟩

theorem tickBamTx_timer :
    LeavesTimer (if 50 ≤ run.node.tpTimer ∧ 0 < run.node.tpRem then 0 else run.node.tpTimer) (tickBamTx c run) := by
  by_cases hrem : run.node.tpRem = 0
  · rw [tickBamTx_finished hrem, if_neg (by omega)]
    rfl
  by_cases ht : 50 ≤ run.node.tpTimer
  · rw [if_pos ⟨ht, Nat.pos_of_ne_zero hrem⟩]
    obtain ⟨why, hstop⟩ | hfit := sendDt_fault_or_fits (c := c) hrem
    · rw [tickBamTx, if_pos ⟨Nat.pos_of_ne_zero hrem, ht⟩, hstop]
      trivial
    · rw [tickBamTx_sends hrem ht hfit]
      rfl
  · rw [tickBamTx_waits hrem (Nat.not_le.1 ht), if_neg fun h => ht h.1]
    rfl

theorem tickBamRx_timer : LeavesTimer run.node.tpTimer (tickBamRx c run) := by
  by_cases hrem : run.node.tpRem = 0
  · by_cases hlen : run.node.tpLen ≤ 1785
    · rw [tickBamRx_finished hrem hlen]
      rfl
    · rw [tickBamRx, if_pos hrem, deliverReassembled_outside hlen]
      trivial
  by_cases ht : 1250 ≤ run.node.tpTimer
  · by_cases hoff : c.bamRxTimeoutSendsAbort = false
    · rw [tickBamRx_closes hrem ht hoff]
      rfl
    · rw [tickBamRx_aborts hrem ht hoff]
      rfl
  · rw [tickBamRx_waits hrem (Nat.not_le.1 ht)]
    rfl

/-- Watching a limit leaves the timer. -/
theorem limit_timer (p : Prop) [Decidable p] (reason : Byte) :
    LeavesTimer run.node.tpTimer (.ok (if p then tpAbort c reason run else run)) := by
  split
  · rw [tpAbort_eq]
    rfl
  · rfl

theorem tickP2pTx_timer :
    LeavesTimer (if 50 ≤ run.node.tpTimer ∧ 0 < run.node.tpRem ∧ run.node.tpCts = true then 0 else run.node.tpTimer)
      (tickP2pTx c run) := by
  by_cases hcts : run.node.tpCts = false
  · rw [tickP2pTx_uncleared hcts, if_neg (by simp [hcts])]
    exact limit_timer _ _
  by_cases hrem : run.node.tpRem = 0
  · rw [tickP2pTx_finished hcts hrem, if_neg (by omega)]
    exact limit_timer _ _
  by_cases ht : 50 ≤ run.node.tpTimer
  · rw [if_pos ⟨ht, Nat.pos_of_ne_zero hrem, by simpa using hcts⟩]
    obtain ⟨why, hstop⟩ | hfit := sendDt_fault_or_fits (c := c) hrem
    · rw [tickP2pTx, if_neg hcts, if_pos (Nat.pos_of_ne_zero hrem), if_pos (show tPeriodMs ≤ _ from ht), hstop]
      trivial
    · rw [tickP2pTx_sends hcts hrem ht hfit]
      rfl
  · rw [tickP2pTx_waits hcts hrem (Nat.not_le.1 ht), if_neg fun h => ht h.1]
    rfl

theorem tickP2pRx_timer :
    LeavesTimer (if 50 ≤ run.node.tpTimer ∧ run.node.tpCts = false then 0 else run.node.tpTimer)
      (tickP2pRx c run) := by
  by_cases hcts : run.node.tpCts = false
  · by_cases ht : 50 ≤ run.node.tpTimer
    · rw [tickP2pRx_sendsCts hcts ht, if_pos ⟨ht, hcts⟩]
      rfl
    · rw [tickP2pRx_waits hcts (Nat.not_le.1 ht), if_neg fun h => ht h.1]
      rfl
  rw [if_neg fun h => hcts h.2]
  by_cases hrem : run.node.tpRem = 0
  · rw [tickP2pRx_finished hcts hrem]
    by_cases hlen : run.node.tpLen ≤ 1785
    · rw [sendEoma_ok c run hlen]
      rfl
    · rw [sendEoma_outside hlen]
      trivial
  · rw [tickP2pRx_left hcts hrem]
    exact limit_timer _ _

/-- TICK of a node with a connection, by kind and role. -/
theorem tickNode_timer (hk : run.node.tpKind ≠ .none) : LeavesTimer (tickedTimer c run.node) (tickNode c run) := by
  cases hkind : run.node.tpKind with
  | none => exact absurd hkind hk
  | bcast =>
    cases hrole : run.node.tpRole with
    | sender =>
      rw [tickNode_bamTx ⟨hkind, hrole⟩]
      simpa [tickedTimer, hkind, hrole] using
        tickBamTx_timer (c := c) (run := run.setTimer (timerSum c run.node.tpTimer run.node.tickMs))
    | receiver =>
      rw [tickNode_bamRx ⟨hkind, hrole⟩]
      simpa [tickedTimer, hkind, hrole] using
        tickBamRx_timer (c := c) (run := run.setTimer (timerSum c run.node.tpTimer run.node.tickMs))
  | p2p =>
    cases hrole : run.node.tpRole with
    | sender =>
      rw [tickNode_p2pTx ⟨hkind, hrole⟩]
      simpa [tickedTimer, hkind, hrole] using
        tickP2pTx_timer (c := c) (run := run.setTimer (timerSum c run.node.tpTimer run.node.tickMs))
    | receiver =>
      rw [tickNode_p2pRx ⟨hkind, hrole⟩]
      simpa [tickedTimer, hkind, hrole] using
        tickP2pRx_timer (c := c) (run := run.setTimer (timerSum c run.node.tpTimer run.node.tickMs))

end Timer

/-- A TICK that answers has run its node's update to the end: an update discards nothing, and a stop answers no
state. -/
theorem exec_tick_timer {s t : State} {h : Nat} {n : Node} (hl : Live s h n) (hk : n.tpKind ≠ .none)
    (he : exec (.tick h) s = .next t) : ∃ n', Live t h n' ∧ n'.tpTimer = tickedTimer s.cfg n := by
  have hleaves := tickNode_timer (c := s.cfg) (run := { node := n, out := [], draws := s.txDraws }) hk
  cases hrun : tickNode s.cfg { node := n, out := [], draws := s.txDraws } with
  | ok run =>
    rw [hrun] at hleaves
    cases (exec_tick_ok hl hrun).symm.trans he
    exact ⟨run.node, hl.ends run.node run.out run.draws .ok, hleaves⟩
  | error stop =>
    rw [hrun] at hleaves
    cases stop with
    | discard why => exact hleaves.elim
    | fault why =>
      have hstop : exec (.tick h) s = .fault why := by
        rw [exec, execTick]
        exact onNode_fault hl (by rw [hrun]; rfl)
      cases hstop.symm.trans he

theorem timerSum_fits {c : Config} {timer tick : Nat} (hfit : timer + tick < 2 ^ c.timerW) :
    timerSum c timer tick = timer + tick := if_pos hfit

theorem timerSum_lt (c : Config) (timer tick : Nat) : timerSum c timer tick < 2 ^ c.timerW := by
  unfold timerSum
  split
  case isTrue hfit => exact hfit
  case isFalse => exact Nat.mod_lt _ (Nat.two_pow_pos _)

/-- Settles O36: an idle node's TICK, a connected one's timer, and the sum. -/
theorem timerRunsInAConnection : Obligations.TimerRunsInAConnection := by
  refine ⟨fun s h n hl hk => ?_, fun s t h n hl hk he => exec_tick_timer hl hk he,
    fun c timer tick => ⟨timerSum_fits, timerSum_lt c timer tick⟩⟩
  rw [exec_tick_ok hl (tickNode_idle hk), ← State.ends_eq, State.ends_self hl]

/-! ### An RTS that is never answered -/

/-- `t` is `s` but for the timer of node `h`, now `k`, and for what the last operation reported. -/
structure Waited (s t : State) (h : Nat) (n : Node) (k : Nat) : Prop where
  live : Live t h { n with tpTimer := k }
  cfg : t.cfg = s.cfg
  draws : t.txDraws = s.txDraws
  overwritten : ∀ n' evs d st, t.ends h n' evs d st = s.ends h n' evs d st

section OneTick
variable {s t : State} {h k : Nat} {n : Node} (hc : Connected n .p2p .sender) (hcts : n.tpCts = false)
  (hw : Waited s t h n k) (hfit : k + n.tickMs < 2 ^ s.cfg.timerW)
include hc hcts hw hfit

/-- One more TICK: below TR it only waits, from TR on it aborts (R253). -/
theorem Waited.exec_tick : exec (.tick h) t =
    if k + n.tickMs < 200 then .next (s.ends h { n with tpTimer := k + n.tickMs } [] s.txDraws .ok)
    else
      .next (s.ends h { n with tpKind := .none, tpTimer := k + n.tickMs }
        (gatedFrame s.cfg n (.abort n.tpPeer n.addr s.cfg.abortReasonTimeout n.tpPgn))
        (s.txDraws + gatedDraws s.cfg n) .ok) := by
  have htick := exec_tick_limit hw.live ((tickNode_p2pTx hc).trans (tickP2pTx_uncleared hcts))
  simp only [hw.cfg, hw.draws, hw.overwritten, timerSum_fits hfit] at htick
  rw [← hcts] at htick
  exact htick

end OneTick

section Unanswered
variable {s : State} {h : Nat} {n : Node} (hl : Live s h n) (hc : Connected n .p2p .sender) (hcts : n.tpCts = false)
  (hzero : n.tpTimer = 0) (hfit : 199 + n.tickMs < 2 ^ s.cfg.timerW)
include hl hc hcts hzero hfit

/-- While `m` TICKs stay below TR they only move the timer. -/
theorem waited_ticks (m : Nat) (hm : m * n.tickMs < 200) :
    ∃ t, execAll (List.replicate m (.tick h)) s = .next t ∧ Waited s t h n (m * n.tickMs) := by
  induction m with
  | zero => exact ⟨s, rfl, by rw [Nat.zero_mul, ← hzero]; exact hl, rfl, rfl, fun _ _ _ _ => rfl⟩
  | succ m ih =>
    rw [Nat.succ_mul] at hm ⊢
    obtain ⟨t, hrun, hw⟩ := ih (by omega)
    have htick := hw.exec_tick hc hcts (by omega)
    rw [if_pos hm] at htick
    rw [List.replicate_succ', execAll_append hrun, execAll_singleton]
    exact ⟨_, htick, hl.ends _ _ _ _, rfl, rfl, fun _ _ _ _ => State.ends_ends ..⟩

/-- The TICK after `m` TICKs that stay below TR. -/
theorem execAll_ticks_succ (m : Nat) (hm : m * n.tickMs < 200) :
    execAll (List.replicate (m + 1) (.tick h)) s =
      if (m + 1) * n.tickMs < 200 then .next (s.ends h { n with tpTimer := (m + 1) * n.tickMs } [] s.txDraws .ok)
      else
        .next (s.ends h { n with tpKind := .none, tpTimer := (m + 1) * n.tickMs }
          (gatedFrame s.cfg n (.abort n.tpPeer n.addr s.cfg.abortReasonTimeout n.tpPgn))
          (s.txDraws + gatedDraws s.cfg n) .ok) := by
  obtain ⟨t, hrun, hw⟩ := waited_ticks hl hc hcts hzero hfit m hm
  rw [List.replicate_succ', execAll_append hrun, execAll_singleton, Nat.succ_mul]
  exact hw.exec_tick hc hcts (by omega)

end Unanswered

/-- Settles O41: the TICKs before the `m`-th have stayed below TR, and the `m`-th waits or aborts. -/
theorem unansweredRtsAbortsAtTr : Obligations.UnansweredRtsAbortsAtTr := by
  intro s h n m hl hc hcts hzero _ hfit hm
  obtain ⟨m, rfl⟩ := Nat.exists_eq_succ_of_ne_zero (Nat.ne_of_gt hm)
  refine ⟨fun hlt => ?_, fun hbefore hge => ?_⟩
  · have hbefore : m * n.tickMs < 200 := Nat.lt_of_le_of_lt (Nat.mul_le_mul_right _ (Nat.le_succ m)) hlt
    rw [execAll_ticks_succ hl hc hcts hzero hfit m hbefore, if_pos hlt]
  · rw [execAll_ticks_succ hl hc hcts hzero hfit m hbefore, if_neg (Nat.not_lt.2 hge)]

end Sys2Proof.Machine
end

section
/-! The registry statements (44_node_registry.md). An instruction that carries a handle is one operation behind the
handle check of R303 (`exec_eq_onNode`), so what such an operation reads of the state and what it leaves of it is said
once, of `onNode`; RESET and INIT are the only others, and INIT is said branch by branch (R301). -/

namespace Sys2Proof.Machine

/-! ### An operation on a node: what it reads, and what it leaves (R305, 20_memory.md R73, R74) -/

/-- An operation on a node reads the parameters, the node count, the draws and that node's record: another state with
the same answers alike. -/
theorem onNode_congr {h : Nat} {s₁ s₂ t₁ : State} {op : NodeOp} (hcfg : s₁.cfg = s₂.cfg)
    (hcount : s₁.nodeCount = s₂.nodeCount) (hdraws : s₁.txDraws = s₂.txDraws) (hrec : s₁.nodes[h]? = s₂.nodes[h]?)
    (ho : onNode h s₁ op = .next t₁) :
    ∃ t₂, onNode h s₂ op = .next t₂ ∧ t₂.nodes[h]? = t₁.nodes[h]? ∧ t₂.outputs = t₁.outputs ∧ t₂.result = t₁.result ∧
      t₂.txDraws = t₁.txDraws := by
  obtain ⟨hh, rfl⟩ | ⟨n, hl, hrun⟩ := onNode_cases ho
  · exact ⟨_, onNode_unknown op (hcount ▸ hh), hrec.symm, rfl, rfl, hdraws.symm⟩
  have hl₂ : Live s₂ h n := ⟨hcount ▸ hl.1, hrec ▸ hl.2⟩
  rw [hcfg, hdraws] at hrun
  obtain ⟨r, st, hr, rfl⟩ | ⟨why, hr, rfl⟩ := hrun
  · exact ⟨_, onNode_ok hl₂ hr, by simp [hl.lt, hl₂.lt], rfl, rfl, rfl⟩
  · exact ⟨_, onNode_discard hl₂ hr, hrec.symm, rfl, rfl, hdraws.symm⟩

/-- An operation on a node writes no record but that node's, and nothing of the registry. -/
theorem onNode_frame {h : Nat} {s t : State} {op : NodeOp} (ho : onNode h s op = .next t) :
    t.cfg = s.cfg ∧ t.pending = s.pending ∧ t.nodeCount = s.nodeCount ∧ t.freeDraws = s.freeDraws ∧
      ∀ k, k ≠ h → t.nodes[k]? = s.nodes[k]? := by
  obtain ⟨-, rfl⟩ | ⟨n, -, ⟨r, st, -, rfl⟩ | ⟨why, -, rfl⟩⟩ := onNode_cases ho
  · exact ⟨rfl, rfl, rfl, rfl, fun _ _ => rfl⟩
  · exact ⟨rfl, rfl, rfl, rfl, fun k hk => List.getElem?_set_ne hk.symm⟩
  · exact ⟨rfl, rfl, rfl, rfl, fun _ _ => rfl⟩

/-- Settles O56: an instruction with a handle is the same operation on its node in both states. -/
theorem nodesAreIndependent : Obligations.NodesAreIndependent := by
  intro i h s₁ s₂ t₁ ha hcfg hcount hdraws hrec ho
  obtain ⟨op, hop⟩ := exec_eq_onNode ha s₁.cfg
  rw [hop s₁ rfl] at ho
  rw [hop s₂ hcfg.symm]
  exact onNode_congr hcfg hcount hdraws hrec ho

/-- Settles O10: behind every row with a handle stands the handle check. -/
theorem everyHandleIsChecked : Obligations.EveryHandleIsChecked := by
  intro s i h ha hh
  obtain ⟨op, hop⟩ := exec_eq_onNode ha s.cfg
  rw [hop s rfl, State.unmoved_eq]
  exact onNode_unknown op hh

/-! ### INIT, one equation per branch (R301) -/

section Init
variable {s : State} {name : Name64} {pref : Byte} {tick : Nat}

theorem exec_init_badParam (hbad : 253 < pref.toNat ∨ tick = 0 ∨ 2 ^ s.cfg.tickW ≤ tick) :
    exec (.init name pref tick) s = .next (s.returned .errParam) := by
  rw [exec, execInit]
  obtain hpref | htick := hbad
  · rw [if_pos hpref]
  · rw [if_pos htick, ite_self]

section Accepted
variable (hpref : pref.toNat ≤ 253) (hpos : 0 < tick) (hfits : tick < 2 ^ s.cfg.tickW)
include hpref hpos hfits

theorem exec_init_full (hfull : s.nodeCount = s.cfg.maxNodes) :
    exec (.init name pref tick) s = .next (s.returned .errCapacity) := by
  rw [exec, execInit, if_neg (Nat.not_lt.2 hpref), if_neg (by omega), if_pos hfull]

theorem exec_init_registers {old : Node} (hroom : s.nodeCount ≠ s.cfg.maxNodes)
    (hold : s.nodes[s.nodeCount]? = some old) :
    exec (.init name pref tick) s = .next (s.registered
      (acInit s.cfg name pref { node := initNode tick s.freeDraws old, out := [], draws := s.txDraws })) := by
  rw [exec, execInit, if_neg (Nat.not_lt.2 hpref), if_neg (by omega), if_neg hroom, hold]

end Accepted

/-- INIT reports, or registers a record in the first slot not in use. -/
theorem exec_init_cases {t : State} (ho : exec (.init name pref tick) s = .next t) :
    (∃ st, t = s.returned st) ∨ ∃ r, t = s.registered r := by
  obtain ⟨⟨⟩, -⟩ | hret | ⟨_, _, _, _, ⟨⟩, -⟩ | ⟨_, _, _, _, -, -, hreg⟩ :=
    hostOp_cases (op := .init name pref tick) ho
  · exact .inl hret
  · exact .inr ⟨_, hreg⟩

end Init

/-- A table with only one address occupied (42_address_claim.md R191), slot by slot. -/
theorem selfOnlyTable_getElem (addr : Byte) {a : Nat} (ha : a < 254) :
    (selfOnlyTable addr)[a] = decide (a = addr.toNat) :=
  clearTable_getElem { Node.reset with addr := addr } ha

/-- Settles O50: the tests of INIT in their order, and the record and outputs of `acInit_eq`. -/
theorem initCreatesNode : Obligations.InitCreatesNode := by
  refine fun s name pref tick => ⟨exec_init_badParam, exec_init_full, fun old hpref hpos hfits hroom hold =>
    ⟨_, _, exec_init_registers hpref hpos hfits hroom hold, rfl, rfl, rfl, ?_⟩⟩
  rw [State.registered_outputs, acInit_eq]
  exact ⟨rfl, rfl, rfl, rfl, rfl, rfl, fun a ha => selfOnlyTable_getElem pref ha, rfl, rfl, rfl, rfl, rfl⟩

/-! ### Every instruction -/

/-- RESET and INIT are the only instructions without a handle (30_encoding.md R130). -/
theorem actingNode_eq_none {i : Instr} (ha : actingNode i = none) :
    i = .reset ∨ ∃ name pref tick, i = .init name pref tick := by
  cases i with
  | reset => exact .inl rfl
  | init name pref tick => exact .inr ⟨name, pref, tick, rfl⟩
  | _ => cases ha

/-- Settles O55: an instruction with a handle by `onNode_frame`; RESET speaks of no record; INIT writes the slot at the
node count. -/
theorem otherNodesUntouched : Obligations.OtherNodesUntouched := by
  intro i s t ho
  cases ha : actingNode i with
  | some h =>
    obtain ⟨op, hop⟩ := exec_eq_onNode ha s.cfg
    rw [hop s rfl] at ho
    obtain ⟨hcfg, hpend, hcount, hfree, hother⟩ := onNode_frame ho
    refine ⟨hcfg, hpend, fun _ k hh hk => ?_, ?_⟩
    · cases hh
      exact ⟨hother k hk, hcount, hfree⟩
    · rintro _ _ _ _ rfl
      cases ha
  | none =>
    obtain rfl | ⟨name, pref, tick, rfl⟩ := actingNode_eq_none ha
    · cases ho
      exact ⟨rfl, rfl, nofun, nofun⟩
    · obtain ⟨st, rfl⟩ | ⟨r, rfl⟩ := exec_init_cases ho
      · exact ⟨rfl, rfl, nofun, fun _ _ _ _ _ _ => rfl⟩
      · exact ⟨rfl, rfl, nofun, fun _ _ _ _ _ hk => List.getElem?_set_ne hk.symm⟩

end Sys2Proof.Machine
end

section
/-! The statement of 70_reset_and_hazards.md: after RESET no handle is below the node count, so the handle check of R303
refuses every operation on a node. -/

namespace Sys2Proof.Machine

/-- Settles O51: RESET writes node count 0 and clears the outputs and the result, and at node count 0 every handle is one
of no node (`everyHandleIsChecked`). -/
theorem resetDropsEveryNode : Obligations.ResetDropsEveryNode :=
  fun _ => ⟨_, rfl, rfl, rfl, rfl, rfl, rfl, rfl, fun i h ha => everyHandleIsChecked _ i h ha (Nat.zero_le h)⟩

end Sys2Proof.Machine
end
